-- ==== Sys2Proof/Word.lean ====
section
/-! DEFINITION. The widths of HUFFCORE's values (00_scope.md R6) as bit vectors, one name each. -/

namespace Sys2Proof

/-- A command word or a response's data: CMDW = DATAW = 64 bits (R6). -/
abbrev Word := BitVec 64

/-- A byte of the encoded stream. -/
abbrev Byte := BitVec 8

/-- A Symbol: SYMW = 8 bits, 0..255 (R6). -/
abbrev Symbol := BitVec 8

/-- One frequency counter FREQ[s]: FW = 32 bits (R6). -/
abbrev Count := BitVec 32

/-- A node's frequency field: NW = 40 bits (R6). -/
abbrev Freq := BitVec 40

/-- A node index: IDXW = 9 bits (R6). -/
abbrev NodeIdx := BitVec 9

end Sys2Proof
end

