-- ==== Sys2Proof/Syntax.lean ====
section
/-! DEFINITION. The eighteen commands of HUFFCORE (30_encoding.md R82), one constructor per row of spec/opcode_table.json,
with their operands at the exact widths of R81: an operand outside its range cannot be written down here. -/

namespace Sys2Proof

/-- A legal command word, decoded (R82). -/
inductive Instr where
  /-- RESET, 45_control.md R190. -/
  | reset
  /-- CLRERR, 45_control.md R191. -/
  | clrerr
  /-- RDCSR csr, 45_control.md R192. -/
  | rdcsr (csr : BitVec 3)
  /-- CLRFREQ, 40_frequency.md R100. -/
  | clrfreq
  /-- CNT sym, 40_frequency.md R102. -/
  | cnt (sym : Symbol)
  /-- WRFREQ sym, val, 40_frequency.md R101. -/
  | wrfreq (sym : Symbol) (val : Count)
  /-- RDFREQ sym, 40_frequency.md R103. -/
  | rdfreq (sym : Symbol)
  /-- BUILD, 41_tree_builder.md R110. -/
  | build
  /-- RDNODE node, 41_tree_builder.md R123. -/
  | rdnode (node : NodeIdx)
  /-- ASSIGN, 42_code_assigner.md R130. -/
  | assign
  /-- RDCLEN sym, 42_code_assigner.md R140. -/
  | rdclen (sym : Symbol)
  /-- RDCODE sym, w, 42_code_assigner.md R141. -/
  | rdcode (sym : Symbol) (w : BitVec 2)
  /-- ENCSTART, 43_encoder.md R150. -/
  | encstart
  /-- ENC sym, 43_encoder.md R153. -/
  | enc (sym : Symbol)
  /-- ENCEND, 43_encoder.md R154. -/
  | encend
  /-- DECSTART, 44_decoder.md R170. -/
  | decstart
  /-- DEC byte, nb (consumes nb + 1 bits), 44_decoder.md R172. -/
  | dec (byte : Byte) (nb : BitVec 3)
  /-- DECEND, 44_decoder.md R173. -/
  | decend
  deriving DecidableEq, Repr

end Sys2Proof
end

