-- ==== Sys2Proof/WellFormed.lean ====
section
/-! DEFINITION. Well-formedness. An `Instr` is well formed by its types (each operand has its field's exact width, 30_encoding.md
R81), so the checks stand one level up, on the assembler's commands of R87, whose operands are plain numbers: "An assembler
rejects an operand outside the stated range rather than truncating it." -/

namespace Sys2Proof

/-- One line of assembler (R87): the operands are the numbers written, not yet checked. `dec` takes the bit count n = nb + 1. -/
inductive Asm where
  | reset
  | clrerr
  | rdcsr (k : Nat)
  | clrfreq
  | cnt (s : Nat)
  | wrfreq (s v : Nat)
  | rdfreq (s : Nat)
  | build
  | rdnode (i : Nat)
  | assign
  | rdclen (s : Nat)
  | rdcode (s w : Nat)
  | encstart
  | enc (s : Nat)
  | encend
  | decstart
  | dec (b n : Nat)
  | decend
  /-- `.word v`: the 64-bit word v itself, "used to write illegal words in tests". -/
  | word (v : Nat)
  deriving DecidableEq, Repr

/-- The operand ranges of R87. -/
def Asm.wellFormed : Asm → Bool
  | .reset | .clrerr | .clrfreq | .build | .assign | .encstart | .encend | .decstart | .decend => true
  | .rdcsr k => decide (k < 8)
  | .cnt s | .rdfreq s | .rdclen s | .enc s => decide (s < 256)
  | .wrfreq s v => decide (s < 256) && decide (v < 2 ^ 32)
  | .rdnode i => decide (i < 512)
  | .rdcode s w => decide (s < 256) && decide (w < 4)
  | .dec b n => decide (b < 256) && decide (1 ≤ n) && decide (n ≤ 8)
  | .word v => decide (v < 2 ^ 64)

end Sys2Proof
end

