-- ==== Sys2Proof/Decode.lean ====
section
/-! DEFINITION. Command words (30_encoding.md): the decoder, total on 64-bit words and rejecting by name (R83, R84); the table
of R82 as data; and, after them, the encoder, the assembler of R87 and the pseudo-instructions of R88. -/

namespace Sys2Proof

/-- `cmd.op`, bits 63:56 (R80). -/
def fieldOp (w : Word) : BitVec 8 := w.extractLsb' 56 8

/-- `cmd.aux`, bits 55:48 (R80). -/
def fieldAux (w : Word) : BitVec 8 := w.extractLsb' 48 8

/-- `cmd.idx`, bits 47:32 (R80). -/
def fieldIdx (w : Word) : BitVec 16 := w.extractLsb' 32 16

/-- `cmd.imm`, bits 31:0 (R80). -/
def fieldImm (w : Word) : BitVec 32 := w.extractLsb' 0 32

/-- Bits 63:48, the `op` and `aux` fields: what ERRARG records of an illegal word (R83). -/
def illegalArg (w : Word) : BitVec 16 := w.extractLsb' 48 16

/-- The two ways a word is illegal (R84). -/
inductive DecodeError where
  /-- `op` is none of the eighteen opcodes of R82. -/
  | undefinedOpcode (op : BitVec 8)
  /-- The opcode is defined and a must-be-zero bit of its format is 1 (R81). -/
  | mustBeZero (op : BitVec 8)
  deriving DecidableEq, Repr

/-- Answer `i` if the must-be-zero bits are all zero (R83). -/
def checkZero (w : Word) (ok : Bool) (i : Instr) : Except DecodeError Instr :=
  if ok then .ok i else .error (.mustBeZero (fieldOp w))

/-- Format N: must be zero 55:0 (R81). -/
def formatN (w : Word) (i : Instr) : Except DecodeError Instr :=
  checkZero w (fieldAux w == 0 && fieldIdx w == 0 && fieldImm w == 0) i

/-- Format S: sym = idx[7:0]; must be zero 55:40, 31:0 (R81). -/
def formatS (w : Word) (f : Symbol → Instr) : Except DecodeError Instr :=
  checkZero w (fieldAux w == 0 && (fieldIdx w).extractLsb' 8 8 == 0 && fieldImm w == 0)
    (f ((fieldIdx w).extractLsb' 0 8))

/-- Format SI: sym = idx[7:0], val = imm; must be zero 55:40 (R81). -/
def formatSI (w : Word) (f : Symbol → Count → Instr) : Except DecodeError Instr :=
  checkZero w (fieldAux w == 0 && (fieldIdx w).extractLsb' 8 8 == 0)
    (f ((fieldIdx w).extractLsb' 0 8) (fieldImm w))

/-- Format X: node = idx[8:0]; must be zero 55:41, 31:0 (R81). -/
def formatX (w : Word) (f : NodeIdx → Instr) : Except DecodeError Instr :=
  checkZero w (fieldAux w == 0 && (fieldIdx w).extractLsb' 9 7 == 0 && fieldImm w == 0)
    (f ((fieldIdx w).extractLsb' 0 9))

/-- Format C: csr = idx[2:0]; must be zero 55:35, 31:0 (R81). -/
def formatC (w : Word) (f : BitVec 3 → Instr) : Except DecodeError Instr :=
  checkZero w (fieldAux w == 0 && (fieldIdx w).extractLsb' 3 13 == 0 && fieldImm w == 0)
    (f ((fieldIdx w).extractLsb' 0 3))

/-- Format SW: w = aux[1:0], sym = idx[7:0]; must be zero 55:50, 47:40, 31:0 (R81). -/
def formatSW (w : Word) (f : Symbol → BitVec 2 → Instr) : Except DecodeError Instr :=
  checkZero w ((fieldAux w).extractLsb' 2 6 == 0 && (fieldIdx w).extractLsb' 8 8 == 0 && fieldImm w == 0)
    (f ((fieldIdx w).extractLsb' 0 8) ((fieldAux w).extractLsb' 0 2))

/-- Format D: nb = aux[2:0], byte = idx[7:0]; must be zero 55:51, 47:40, 31:0 (R81). -/
def formatD (w : Word) (f : Byte → BitVec 3 → Instr) : Except DecodeError Instr :=
  checkZero w ((fieldAux w).extractLsb' 3 5 == 0 && (fieldIdx w).extractLsb' 8 8 == 0 && fieldImm w == 0)
    (f ((fieldIdx w).extractLsb' 0 8) ((fieldAux w).extractLsb' 0 3))

/-- The decoding procedure of R83: `op` first, then the must-be-zero bits of that opcode's format. -/
def decode (w : Word) : Except DecodeError Instr :=
  match (fieldOp w).toNat with
  | 0x01 => formatN w .reset
  | 0x02 => formatN w .clrerr
  | 0x03 => formatC w .rdcsr
  | 0x10 => formatN w .clrfreq
  | 0x11 => formatS w .cnt
  | 0x12 => formatSI w .wrfreq
  | 0x13 => formatS w .rdfreq
  | 0x20 => formatN w .build
  | 0x21 => formatX w .rdnode
  | 0x30 => formatN w .assign
  | 0x31 => formatS w .rdclen
  | 0x32 => formatSW w .rdcode
  | 0x40 => formatN w .encstart
  | 0x41 => formatS w .enc
  | 0x42 => formatN w .encend
  | 0x50 => formatN w .decstart
  | 0x51 => formatD w .dec
  | 0x52 => formatN w .decend
  | _ => .error (.undefinedOpcode (fieldOp w))

/-- The word whose bits are `w`, of which the table gives the low `nbits`; a HUFFCORE command is one 64-bit word (R80). -/
def tableWord (nbits w : Nat) : Word := BitVec.ofNat 64 (w % 2 ^ nbits)

/-- The instruction the decoder reads from a row's word, none where it refuses. -/
def decodeTableWord (nbits w : Nat) : Option Instr :=
  match decode (tableWord nbits w) with
  | .ok i => some i
  | .error _ => none

/-- The seven formats of R81. -/
inductive Format where
  | n | s | si | x | c | sw | d
  deriving DecidableEq, Repr

/-- The mask of a format: the bits that are fixed (R81). -/
def Format.mask : Format → Word
  | .n  => 0xFFFFFFFFFFFFFFFF#64
  | .s  => 0xFFFFFF00FFFFFFFF#64
  | .si => 0xFFFFFF0000000000#64
  | .x  => 0xFFFFFE00FFFFFFFF#64
  | .c  => 0xFFFFFFF8FFFFFFFF#64
  | .sw => 0xFFFCFF00FFFFFFFF#64
  | .d  => 0xFFF8FF00FFFFFFFF#64

/-- One row of the command table of R82. -/
structure OpRow where
  mnemonic : String
  format   : Format
  pattern  : Word
  deriving DecidableEq, Repr

/-- The command table of R82: mnemonic, format, `match`. -/
def opcodeTable : List OpRow := [
  ⟨"RESET",    .n,  0x0100000000000000#64⟩,
  ⟨"CLRERR",   .n,  0x0200000000000000#64⟩,
  ⟨"RDCSR",    .c,  0x0300000000000000#64⟩,
  ⟨"CLRFREQ",  .n,  0x1000000000000000#64⟩,
  ⟨"CNT",      .s,  0x1100000000000000#64⟩,
  ⟨"WRFREQ",   .si, 0x1200000000000000#64⟩,
  ⟨"RDFREQ",   .s,  0x1300000000000000#64⟩,
  ⟨"BUILD",    .n,  0x2000000000000000#64⟩,
  ⟨"RDNODE",   .x,  0x2100000000000000#64⟩,
  ⟨"ASSIGN",   .n,  0x3000000000000000#64⟩,
  ⟨"RDCLEN",   .s,  0x3100000000000000#64⟩,
  ⟨"RDCODE",   .sw, 0x3200000000000000#64⟩,
  ⟨"ENCSTART", .n,  0x4000000000000000#64⟩,
  ⟨"ENC",      .s,  0x4100000000000000#64⟩,
  ⟨"ENCEND",   .n,  0x4200000000000000#64⟩,
  ⟨"DECSTART", .n,  0x5000000000000000#64⟩,
  ⟨"DEC",      .d,  0x5100000000000000#64⟩,
  ⟨"DECEND",   .n,  0x5200000000000000#64⟩]

/-- The opcode of a command (R82). -/
def opcodeOf : Instr → BitVec 8
  | .reset => 0x01#8
  | .clrerr => 0x02#8
  | .rdcsr _ => 0x03#8
  | .clrfreq => 0x10#8
  | .cnt _ => 0x11#8
  | .wrfreq _ _ => 0x12#8
  | .rdfreq _ => 0x13#8
  | .build => 0x20#8
  | .rdnode _ => 0x21#8
  | .assign => 0x30#8
  | .rdclen _ => 0x31#8
  | .rdcode _ _ => 0x32#8
  | .encstart => 0x40#8
  | .enc _ => 0x41#8
  | .encend => 0x42#8
  | .decstart => 0x50#8
  | .dec _ _ => 0x51#8
  | .decend => 0x52#8

/-- The mnemonic of a command (R82). -/
def mnemonicOf : Instr → String
  | .reset => "RESET"
  | .clrerr => "CLRERR"
  | .rdcsr _ => "RDCSR"
  | .clrfreq => "CLRFREQ"
  | .cnt _ => "CNT"
  | .wrfreq _ _ => "WRFREQ"
  | .rdfreq _ => "RDFREQ"
  | .build => "BUILD"
  | .rdnode _ => "RDNODE"
  | .assign => "ASSIGN"
  | .rdclen _ => "RDCLEN"
  | .rdcode _ _ => "RDCODE"
  | .encstart => "ENCSTART"
  | .enc _ => "ENC"
  | .encend => "ENCEND"
  | .decstart => "DECSTART"
  | .dec _ _ => "DEC"
  | .decend => "DECEND"

/-- The `aux` field of a command's word (R81). -/
def auxOf : Instr → BitVec 8
  | .rdcode _ w => w.setWidth 8
  | .dec _ nb => nb.setWidth 8
  | .reset | .clrerr | .rdcsr _ | .clrfreq | .cnt _ | .wrfreq _ _ | .rdfreq _ | .build | .rdnode _ | .assign | .rdclen _
  | .encstart | .enc _ | .encend | .decstart | .decend => 0#8

/-- The `idx` field of a command's word (R81). -/
def idxOf : Instr → BitVec 16
  | .rdcsr csr => csr.setWidth 16
  | .cnt sym | .wrfreq sym _ | .rdfreq sym | .rdclen sym | .rdcode sym _ | .enc sym => sym.setWidth 16
  | .rdnode node => node.setWidth 16
  | .dec byte _ => byte.setWidth 16
  | .reset | .clrerr | .clrfreq | .build | .assign | .encstart | .encend | .decstart | .decend => 0#16

/-- The `imm` field of a command's word (R81). -/
def immOf : Instr → BitVec 32
  | .wrfreq _ val => val
  | .reset | .clrerr | .rdcsr _ | .clrfreq | .cnt _ | .rdfreq _ | .build | .rdnode _ | .assign | .rdclen _ | .rdcode _ _
  | .encstart | .enc _ | .encend | .decstart | .dec _ _ | .decend => 0#32

/-- The command word of an instruction: the four fields of R80, most significant first. -/
def encode (i : Instr) : Word := opcodeOf i ++ auxOf i ++ idxOf i ++ immOf i

/-- The command a well-formed assembler line stands for; none for `.word`, which stands for its word (R87). -/
def Asm.toInstr : Asm → Option Instr
  | .reset => some .reset
  | .clrerr => some .clrerr
  | .rdcsr k => some (.rdcsr (BitVec.ofNat 3 k))
  | .clrfreq => some .clrfreq
  | .cnt s => some (.cnt (BitVec.ofNat 8 s))
  | .wrfreq s v => some (.wrfreq (BitVec.ofNat 8 s) (BitVec.ofNat 32 v))
  | .rdfreq s => some (.rdfreq (BitVec.ofNat 8 s))
  | .build => some .build
  | .rdnode i => some (.rdnode (BitVec.ofNat 9 i))
  | .assign => some .assign
  | .rdclen s => some (.rdclen (BitVec.ofNat 8 s))
  | .rdcode s w => some (.rdcode (BitVec.ofNat 8 s) (BitVec.ofNat 2 w))
  | .encstart => some .encstart
  | .enc s => some (.enc (BitVec.ofNat 8 s))
  | .encend => some .encend
  | .decstart => some .decstart
  | .dec b n => some (.dec (BitVec.ofNat 8 b) (BitVec.ofNat 3 (n - 1)))
  | .decend => some .decend
  | .word _ => none

/-- The word an assembler line assembles to; none where an operand is outside its range (R87). -/
def assemble (a : Asm) : Option Word :=
  if a.wellFormed then
    match a, a.toInstr with
    | .word v, _ => some (BitVec.ofNat 64 v)
    | _, some i => some (encode i)
    | _, none => none
  else none

/-- A Symbol or byte operand written as one ASCII character in single quotes (R87; ASCII is general knowledge,
93_implementation_defined.md G1; assumption log 11). -/
def charOperand (c : Char) : Nat := c.toNat

/-- The number of the CSR that a lower-case CSR name writes (R87, 10_state.md R28). -/
def csrNumber : String → Option Nat
  | "status" => some 0
  | "treeinfo" => some 1
  | "errinfo" => some 2
  | "errcmd" => some 3
  | "cmdcnt" => some 4
  | "encbits" => some 5
  | "encacc" => some 6
  | "deccur" => some 7
  | _ => none

/-- The pseudo-instructions of R88, over byte strings and bit strings. -/
inductive Pseudo where
  | cnts (text : List Byte)
  | encs (text : List Byte)
  | decbits (bits : List Bool)
  | count (text : List Byte)
  | encode (text : List Byte)
  | pipeline (text : List Byte)
  deriving DecidableEq, Repr

/-- A bit string read as a binary number, first character most significant (R88). -/
def bitsToNat (bits : List Bool) : Nat := bits.foldl (fun n b => 2 * n + b.toNat) 0

/-- The `dec` lines of one group of at most 8 bits: the group, then 8 − r zeros, with r the group's length (R88). -/
def decGroup (group : List Bool) : Asm :=
  .dec (bitsToNat (group ++ List.replicate (8 - group.length) false)) group.length

/-- `decbits`: groups of 8 from the left, `pending` being the group begun (R88). -/
def decbitsFrom (pending : List Bool) : List Bool → List Asm
  | [] => if pending = [] then [] else [decGroup pending]
  | b :: rest =>
    if pending.length = 7 then decGroup (pending ++ [b]) :: decbitsFrom [] rest
    else decbitsFrom (pending ++ [b]) rest

/-- `cnts`: one `cnt` per byte, in order (R88). -/
def expandCnts (text : List Byte) : List Asm := text.map fun b => .cnt b.toNat

/-- `encs`: one `enc` per byte, in order (R88). -/
def expandEncs (text : List Byte) : List Asm := text.map fun b => .enc b.toNat

/-- The commands a pseudo-instruction expands to (R88). -/
def expand : Pseudo → List Asm
  | .cnts text => expandCnts text
  | .encs text => expandEncs text
  | .decbits bits => decbitsFrom [] bits
  | .count text => .clrfreq :: expandCnts text
  | .encode text => .encstart :: expandEncs text ++ [.encend]
  | .pipeline text =>
    .clrfreq :: expandCnts text ++ [.build, .assign] ++ (.encstart :: expandEncs text ++ [.encend])

end Sys2Proof
end

