-- ==== Sys2Proof/Machine/Entries.lean ====
section
/-! DEFINITION. The entries of the memories NODE (10_state.md R31) and CODE (R32), and the shape in which a memory is held. -/

namespace Sys2Proof.Machine

/-- A memory that is addressed by index: a list of (index, entry) pairs. `Memory.wf` (Ops.lean) says that it is in the
one canonical form. -/
abbrev Memory (α : Type) := List (Nat × α)

/-- One entry of the node arena NODE, 67 bits (R31). -/
structure Node where
  leaf  : Bool
  sym   : Symbol
  freq  : Freq
  left  : NodeIdx
  right : NodeIdx
  deriving DecidableEq, Repr, Inhabited

/-- One entry of the code table CODE, 264 bits (R32); `bits` position i is the i-th code character (00_scope.md R8). -/
structure CodeEntry where
  valid : Bool
  len   : BitVec 8
  bits  : BitVec 255
  deriving DecidableEq, Repr, Inhabited

end Sys2Proof.Machine
end

