-- ==== Sys2Proof/Config.lean ====
section
/-! DEFINITION. The fixed parameters of HUFFCORE 1.0 (00_scope.md R6), and the free values of the spec: what NODE and CODE
hold where no command has written since the last reset (93_implementation_defined.md U8, U9). -/

namespace Sys2Proof.Config

/-- NSYMMAX, the number of symbol values, 2^SYMW (R6). -/
def nSymMax : Nat := 256

/-- NNODEMAX, the entries of the node arena (R6). -/
def nNodeMax : Nat := 511

/-- MAXLEN, the longest possible code in bits (R6). -/
def maxLen : Nat := 255

/-- The largest value of a frequency counter, 2^32 − 1 (R102). -/
def countMax : Count := 0xFFFFFFFF#32

/-- The largest value of the counter ENCBITS, 2^64 − 1 (R153). -/
def encBitsMax : Nat := 2 ^ 64 - 1

/-- FREE VALUE (assumption log 3). What NODE[i] holds after the reset numbered `epoch` until BUILD writes it: the spec calls
it unspecified and unobservable (10_state.md R31, 70_reset_and_hazards.md R233). No body: nothing can be proved of it. -/
opaque unspecifiedNode (epoch i : Nat) : Machine.Node

/-- FREE VALUE (assumption log 3). What CODE[s] holds after the reset numbered `epoch` until ASSIGN writes it: unspecified
and unobservable (10_state.md R32, 70_reset_and_hazards.md R233). No body: nothing can be proved of it. -/
opaque unspecifiedCode (epoch s : Nat) : Machine.CodeEntry

end Sys2Proof.Config
end

