-- ==== Sys2Proof/Machine/State.lean ====
section
/-! DEFINITION. The state of HUFFCORE (10_state.md R20): the fifteen registers of R21, the memories FREQ, NODE and CODE; and the
model's own fields: what the host will do next, and the logs of what left the block. -/

namespace Sys2Proof.Machine

/-- The eight errors (60_exceptions.md R200). Each is taken as a next state: none stops the machine. -/
inductive Error where
  | emptyInput | unknownSymbol | invalidCode | illegalCommand | sequenceError | rangeError | overflow | faultedRefusal
  deriving DecidableEq, Repr

/-- A response's status: OK or an error; "may have exactly nine values" (93_implementation_defined.md U11). -/
inductive Status where
  | ok
  | error (e : Error)
  deriving DecidableEq, Repr

/-- The response that ends a command: (status, data) (30_encoding.md R85). -/
structure Response where
  status : Status
  data   : Word
  deriving DecidableEq, Repr

/-- What the host may do to the block (00_scope.md R14): present a command word, or assert hardware reset between commands. -/
inductive HostAction where
  | command (w : Word)
  | hardwareReset
  deriving DecidableEq, Repr

/-- The state. The first eighteen fields are the spec's (R21, R30 to R32); the last five are the model's own
(assumption logs 1, 2 and 4). -/
structure State where
  cmdcnt     : BitVec 32
  treeValid  : Bool
  codesValid : Bool
  encActive  : Bool
  decActive  : Bool
  err        : Bool
  nsym       : BitVec 9
  root       : NodeIdx
  cur        : NodeIdx
  acc        : Byte
  nacc       : BitVec 3
  encbits    : BitVec 64
  errcode    : BitVec 4
  errarg     : BitVec 16
  errcmd     : BitVec 32
  /-- FREQ: the symbols with a nonzero count, ascending. -/
  freq       : Memory Count
  /-- NODE: the entries written since the last reset, ascending. -/
  node       : Memory Node
  /-- CODE: the entries written since the last reset, ascending. -/
  code       : Memory CodeEntry
  /-- What the host will do, next action first. -/
  host       : List HostAction
  /-- The responses given, oldest first. -/
  responses  : List Response
  /-- The bytes appended to OUTB, oldest first (20_memory.md R70). -/
  outb       : List Byte
  /-- The symbols appended to OUTS, oldest first (20_memory.md R70). -/
  outs       : List Symbol
  /-- How many resets there have been: the argument that keeps the free values of NODE and CODE apart (log 4). -/
  epoch      : Nat
  deriving DecidableEq, Repr

/-- The reasons a step can stop with a fault: none. "There is no stuck state and no hang: every command responds"
(00_scope.md R12); every error of the spec is a next state (60_exceptions.md R206). -/
inductive Fault where
  deriving DecidableEq, Repr

/-- The reasons a step can be refused. -/
inductive Refusal where
  /-- Raised by exec's arm of an instruction that has no meaning yet; safe. No arm raises it: every command is modelled. -/
  | notModelled (mnemonic : String)
  deriving DecidableEq, Repr

/-- The state right after reset (70_reset_and_hazards.md R230): every register 0, every FREQ entry 0, no entry of NODE or CODE
written; the host has nothing to do and nothing has left the block (logs 1, 2, 4). -/
def State.reset : State where
  cmdcnt     := 0#32
  treeValid  := false
  codesValid := false
  encActive  := false
  decActive  := false
  err        := false
  nsym       := 0#9
  root       := 0#9
  cur        := 0#9
  acc        := 0#8
  nacc       := 0#3
  encbits    := 0#64
  errcode    := 0#4
  errarg     := 0#16
  errcmd     := 0#32
  freq       := []
  node       := []
  code       := []
  host       := []
  responses  := []
  outb       := []
  outs       := []
  epoch      := 0

end Sys2Proof.Machine
end

