-- ==== Sys2Proof/Machine/Ops.lean ====
section
/-! DEFINITION. The named operations over memories and registers, raising an error (the latch of 60_exceptions.md R206) with its
acknowledgement beside it, and the prologue common to all commands (45_control.md R198). -/

namespace Sys2Proof.Machine

/-! ### Memories -/

/-- The entry listed at an index. -/
def Memory.read {α : Type} : Memory α → Nat → Option α
  | [], _ => none
  | (b, x) :: rest, a => if a = b then some x else Memory.read rest a

/-- List an entry at an index, in order. -/
def Memory.write {α : Type} : Memory α → Nat → α → Memory α
  | [], a, v => [(a, v)]
  | (b, x) :: rest, a, v =>
    if a < b then (a, v) :: (b, x) :: rest
    else if a = b then (a, v) :: rest
    else (b, x) :: Memory.write rest a v

/-- List nothing at an index. -/
def Memory.erase {α : Type} : Memory α → Nat → Memory α
  | [], _ => []
  | (b, x) :: rest, a => if a = b then rest else (b, x) :: Memory.erase rest a

/-- Write consecutive entries from an index on. -/
def Memory.writeFrom {α : Type} (m : Memory α) (a : Nat) : List α → Memory α
  | [] => m
  | v :: rest => Memory.writeFrom (m.write a v) (a + 1) rest

/-- The canonical form: indices strictly rising and below `size`. -/
def Memory.wf {α : Type} (size : Nat) (m : Memory α) : Bool :=
  match m with
  | [] => true
  | (a, _) :: rest =>
    decide (a < size) && (match rest with | [] => true | (b, _) :: _ => decide (a < b)) && Memory.wf size rest

/-- FREQ[s] (10_state.md R30): an unlisted symbol reads 0, as after reset. -/
def freqAt (s : State) (a : Nat) : Count := (Memory.read s.freq a).getD 0#32

/-- The memory FREQ with FREQ[a] = v: an entry is listed exactly when it is not 0. -/
def freqSet (m : Memory Count) (a : Nat) (v : Count) : Memory Count :=
  if v = 0#32 then m.erase a else m.write a v

/-- NODE[i] (10_state.md R31): an entry not written since the last reset reads as a free value (log 3). -/
def nodeAt (s : State) (i : Nat) : Node := (Memory.read s.node i).getD (Config.unspecifiedNode s.epoch i)

/-- CODE[a] (10_state.md R32): an entry not written since the last reset reads as a free value (log 3). -/
def codeAt (s : State) (a : Nat) : CodeEntry := (Memory.read s.code a).getD (Config.unspecifiedCode s.epoch a)

/-- FREQ is canonical: 256 indices, ascending, no entry 0 (what an unlisted symbol reads as). -/
def freqWf (m : Memory Count) : Bool := Memory.wf Config.nSymMax m && m.all fun e => e.2 != 0#32

/-- NNODE (10_state.md R24): 2·NSYM − 1 when a tree is valid, else 0. -/
def nnode (s : State) : Nat := if s.treeValid then 2 * s.nsym.toNat - 1 else 0

/-- The FAULT output: at all times equal to ERR (60_exceptions.md R211). -/
def State.faultOutput (s : State) : Bool := s.err

/-- `MemWrite(FREQ, a, v)` (00_scope.md R9). -/
def State.writeFreq (s : State) (a : Nat) (v : Count) : State := { s with freq := freqSet s.freq a v }

/-- Every FREQ entry 0 (40_frequency.md R100). -/
def State.clearFreq (s : State) : State := { s with freq := [] }

/-! ### The output side -/

/-- The status codes of R200. -/
def Error.code : Error → BitVec 4
  | .emptyInput => 1#4
  | .unknownSymbol => 2#4
  | .invalidCode => 3#4
  | .illegalCommand => 4#4
  | .sequenceError => 5#4
  | .rangeError => 6#4
  | .overflow => 7#4
  | .faultedRefusal => 8#4

/-- The 4-bit status of a response (30_encoding.md R85). -/
def Status.code : Status → BitVec 4
  | .ok => 0#4
  | .error e => e.code

/-- Give the one response of a command (R85). -/
def State.respond (s : State) (r : Response) : State := { s with responses := s.responses ++ [r] }

/-- `emitByte(b)` (00_scope.md R9). -/
def State.emitByte (s : State) (b : Byte) : State := { s with outb := s.outb ++ [b] }

/-- `emitSym` of each symbol in order (00_scope.md R9). -/
def State.emitSyms (s : State) (l : List Symbol) : State := { s with outs := s.outs ++ l }

/-! ### Errors -/

/-- The latch of R206: an error raised by the command numbered `n`. The first unacknowledged error is kept, and
FaultedRefusal is never latched. -/
def State.latch (s : State) (e : Error) (arg : BitVec 16) (n : BitVec 32) : State :=
  if s.err = false ∧ e ≠ .faultedRefusal then
    { s with err := true, errcode := e.code, errarg := arg, errcmd := n }
  else s

/-- Raising an error (R206): latch it, and answer its status with data 0. Nothing else changes (R205). -/
def State.raise (s : State) (e : Error) (arg : BitVec 16) (n : BitVec 32) : State :=
  (s.latch e arg n).respond ⟨.error e, 0#64⟩

/-- The return from FAULTED mode (60_exceptions.md R208, 45_control.md R191): the four error registers are cleared. -/
def State.acknowledge (s : State) : State :=
  { s with err := false, errcode := 0#4, errarg := 0#16, errcmd := 0#32 }

/-! ### Commands -/

/-- How a command's own action ends: `respond(data)` with the state it leaves, or `raise <Error>(arg)`, which carries no
state, so that every error is precise (00_scope.md R9, 60_exceptions.md R205). -/
inductive Effect where
  | respond (s : State) (data : Word)
  | raise (e : Error) (arg : BitVec 16)
  deriving DecidableEq, Repr

/-- Take a sequence number: CMDCNT + 1 modulo 2^32 (10_state.md R23). -/
def State.accept (s : State) : State := { s with cmdcnt := s.cmdcnt + 1#32 }

/-- End the command numbered `n`, accepted in state `s`, with the effect of its action. -/
def finish (n : BitVec 32) (s : State) : Effect → State
  | .respond s' data => s'.respond ⟨.ok, data⟩
  | .raise e arg => s.raise e arg n

/-- The state after one command word whose checks and action are `action` (45_control.md R198). -/
def afterCommand (action : State → Effect) (s : State) : State := finish s.cmdcnt s.accept (action s.accept)

/-- Accept one command word and run it (R198): it always ends in a next state. -/
def runCommand (action : State → Effect) (s : State) : Host.Outcome State Fault Refusal := .next (afterCommand action s)

/-- The FAULTED check (60_exceptions.md R204 item 2, R207), for a command outside the permitted set. FaultedRefusal has no
argument, since it is not latched. -/
def refuseIfFaulted (action : State → Effect) (s : State) : Effect :=
  if s.err then .raise .faultedRefusal 0#16 else action s

/-- A word that decodes to no command (30_encoding.md R83): IllegalCommand, in every mode, with bits 63:48 of the word. -/
def illegalCommand (arg : BitVec 16) (s : State) : Host.Outcome State Fault Refusal :=
  runCommand (fun _ => .raise .illegalCommand arg) s

/-- The reset event (70_reset_and_hazards.md R230): every register and FREQ entry 0, NODE and CODE unspecified. What the host
will do and what has left the block are no state of the block and stay (20_memory.md R70). -/
def State.doReset (s : State) : State :=
  { State.reset with
    host := s.host, responses := s.responses, outb := s.outb, outs := s.outs, epoch := s.epoch + 1 }

end Sys2Proof.Machine
end

