-- ==== Sys2Proof/Machine/Flags.lean ====
section
/-! DEFINITION. The five flags of 10_state.md R22: the sequence check that reads one (60_exceptions.md R204 item 3), and the changes
that commands make to them. -/

namespace Sys2Proof.Machine

/-- The sequence precondition: the flag a command needs is 1, else SequenceError with the opcode as its argument
(60_exceptions.md R200, R215). -/
def require (flag : State → Bool) (opcode : BitVec 8) (action : State → Effect) (s : State) : Effect :=
  if flag s then action s else .raise .sequenceError (opcode.setWidth 16)

/-- A successful BUILD (41_tree_builder.md R110): TREE_VALID set; CODES_VALID, ENC_ACTIVE and DEC_ACTIVE cleared. -/
def State.flagsAfterBuild (s : State) : State :=
  { s with treeValid := true, codesValid := false, encActive := false, decActive := false }

/-- ASSIGN sets CODES_VALID (42_code_assigner.md R130). -/
def State.setCodesValid (s : State) : State := { s with codesValid := true }

/-- ENCSTART sets ENC_ACTIVE (43_encoder.md R150). -/
def State.setEncActive (s : State) : State := { s with encActive := true }

/-- ENCEND clears ENC_ACTIVE (43_encoder.md R154). -/
def State.clearEncActive (s : State) : State := { s with encActive := false }

/-- DECSTART sets DEC_ACTIVE (44_decoder.md R170). -/
def State.setDecActive (s : State) : State := { s with decActive := true }

/-- DECEND clears DEC_ACTIVE (44_decoder.md R173). -/
def State.clearDecActive (s : State) : State := { s with decActive := false }

end Sys2Proof.Machine
end

