-- ==== Sys2Proof/Machine/Operands.lean ====
section
/-! DEFINITION. What an operand selects: the host-visible read formats of 20_memory.md R66 and 10_state.md R28, and the bit
sequences that ENC and DEC take from their operands. -/

namespace Sys2Proof.Machine

/-- MemRead(FREQ, a): the count in bits 31:0 (R66). -/
def readFreq (s : State) (a : Symbol) : Word := (freqAt s a.toNat).setWidth 64

/-- Bits 48:40 of MemRead(NODE, i): the symbol of a leaf, the left child of an internal node (R66). -/
def symOrLeft (d : Node) : BitVec 9 := if d.leaf then d.sym.setWidth 9 else d.left

/-- The word of a node: leaf 58, right 57:49, symbol or left 48:40, freq 39:0 (R66). -/
def nodeWord (d : Node) : Word := 0#5 ++ BitVec.ofBool d.leaf ++ d.right ++ symOrLeft d ++ d.freq

/-- MemRead(NODE, i) (R66). -/
def readNode (s : State) (i : NodeIdx) : Word := nodeWord (nodeAt s i.toNat)

/-- MemRead(CODELEN, a): len in bits 7:0, valid in bit 8 (R66). -/
def readCodeLen (s : State) (a : Symbol) : Word :=
  0#55 ++ BitVec.ofBool (codeAt s a.toNat).valid ++ (codeAt s a.toNat).len

/-- MemRead(CODEBITS, a, w): code position 64·w + j in bit j, and bit 63 of word 3 is 0 (R66). -/
def readCodeBits (s : State) (a : Symbol) (w : BitVec 2) : Word :=
  (codeAt s a.toNat).bits.extractLsb' (64 * w.toNat) 64

/-- The TREEINFO word of an NSYM and a ROOT: ROOT 24:16, NSYM 8:0 (R28). -/
def treeInfo (nsym : BitVec 9) (root : NodeIdx) : Word := 0#39 ++ root ++ 0#7 ++ nsym

/-- MemRead(CSR, k): the eight status words of 10_state.md R28; bits not listed are zero. -/
def readCsr (s : State) (k : BitVec 3) : Word :=
  match k.toNat with
  | 0 => 0#59 ++ BitVec.ofBool s.err ++ BitVec.ofBool s.decActive ++ BitVec.ofBool s.encActive
      ++ BitVec.ofBool s.codesValid ++ BitVec.ofBool s.treeValid
  | 1 => treeInfo s.nsym s.root
  | 2 => 0#32 ++ s.errarg ++ 0#12 ++ s.errcode
  | 3 => 0#32 ++ s.errcmd
  | 4 => 0#32 ++ s.cmdcnt
  | 5 => s.encbits
  | 6 => 0#53 ++ s.nacc ++ s.acc
  | _ => 0#55 ++ s.cur

/-- The bit string of a code: its characters in order (00_scope.md R8). -/
def codeBits (c : CodeEntry) : List Bool := (List.range c.len.toNat).map fun i => c.bits.getLsbD i

/-- The bits that DEC consumes: the nb + 1 most significant bits of the byte, bit 7 first (44_decoder.md R172). -/
def decBits (byte : Byte) (nb : BitVec 3) : List Bool := (List.range (nb.toNat + 1)).map fun i => byte.getLsbD (7 - i)

/-- The stored form of a code string (00_scope.md R8): position i of the vector is character i. -/
def storeBits : List Bool → BitVec 255
  | [] => 0#255
  | b :: rest => (storeBits rest <<< 1) ||| (BitVec.ofBool b).setWidth 255

end Sys2Proof.Machine
end

