-- ==== Sys2Proof/Machine/Codes.lean ====
section
/-! DEFINITION. The code-table assignment engine: ASSIGN, RDCLEN and RDCODE (42_code_assigner.md). -/

namespace Sys2Proof.Machine

/-- The entry of a symbol that is no leaf of the tree (R133). -/
def absentCode : CodeEntry := ⟨false, 0#8, 0#255⟩

/-- The entry of a code string (00_scope.md R8). -/
def storeCode (c : List Bool) : CodeEntry := ⟨true, BitVec.ofNat 8 c.length, storeBits c⟩

/-- All 256 entries absent: what ASSIGN writes first (R133). -/
def emptyTable : Memory CodeEntry := (List.range Config.nSymMax).map fun a => (a, absentCode)

/-- `walk(i, c)` (R130): depth first, "0" to the left and "1" to the right, recording the accumulated string at each leaf. The
depth is bounded by `fuel`: a walk in a tree of n leaves has at most n − 1 ≤ MAXLEN edges (R136), so that MAXLEN + 1 is never
used up in a reachable state (log 8). -/
def walk (s : State) : Nat → NodeIdx → List Bool → Memory CodeEntry → Memory CodeEntry
  | 0, _, _, table => table
  | fuel + 1, i, c, table =>
    let d := nodeAt s i.toNat
    if d.leaf then table.write d.sym.toNat (storeCode c)
    else walk s fuel d.right (c ++ [true]) (walk s fuel d.left (c ++ [false]) table)

/-- The code table of the tree in NODE (R130): for a single leaf the code "0" (R132), else the leaf paths (R131). -/
def codeTable (s : State) : Memory CodeEntry :=
  let d := nodeAt s s.root.toNat
  if d.leaf then emptyTable.write d.sym.toNat (storeCode [false])
  else walk s (Config.maxLen + 1) s.root [] emptyTable

/-- Write all 256 entries of CODE (R130). -/
def State.storeCodes (s : State) (table : Memory CodeEntry) : State := { s with code := table }

/-- ASSIGN (R130): needs TREE_VALID; answers 0. -/
def execAssign (s : State) : Host.Outcome State Fault Refusal :=
  runCommand (refuseIfFaulted (require State.treeValid (opcodeOf .assign) fun s =>
    .respond (s.storeCodes (codeTable s)).setCodesValid 0#64)) s

/-- RDCLEN sym (R140): needs CODES_VALID; permitted in FAULTED mode. -/
def execRdclen (sym : Symbol) (s : State) : Host.Outcome State Fault Refusal :=
  runCommand (require State.codesValid (opcodeOf (.rdclen sym)) fun s => .respond s (readCodeLen s sym)) s

/-- RDCODE sym, w (R141): needs CODES_VALID; permitted in FAULTED mode. -/
def execRdcode (sym : Symbol) (w : BitVec 2) (s : State) : Host.Outcome State Fault Refusal :=
  runCommand (require State.codesValid (opcodeOf (.rdcode sym w)) fun s => .respond s (readCodeBits s sym w)) s

end Sys2Proof.Machine
end

