-- ==== Sys2Proof/Machine/Control.lean ====
section
/-! DEFINITION. The control commands RESET, CLRERR and RDCSR (45_control.md). All three are permitted in FAULTED mode. -/

namespace Sys2Proof.Machine

/-- RESET (R190): the reset of R230, CMDCNT included; answers 0. -/
def execReset (s : State) : Host.Outcome State Fault Refusal :=
  runCommand (fun s => .respond s.doReset 0#64) s

/-- CLRERR (R191): acknowledge the latched error; answers 0. -/
def execClrerr (s : State) : Host.Outcome State Fault Refusal :=
  runCommand (fun s => .respond s.acknowledge 0#64) s

/-- RDCSR csr (R192): answers the status word; CSR 4 is already incremented for this command (10_state.md R28). -/
def execRdcsr (csr : BitVec 3) (s : State) : Host.Outcome State Fault Refusal :=
  runCommand (fun s => .respond s (readCsr s csr)) s

end Sys2Proof.Machine
end

