-- ==== Sys2Proof/Machine/Decoder.lean ====
section
/-! DEFINITION. The Huffman decoder: DECSTART, DEC and DECEND (44_decoder.md). -/

namespace Sys2Proof.Machine

/-- What one bit does to the walker: the node it comes to rest on, and the symbol emitted, if any. -/
structure DecMove where
  cur  : NodeIdx
  emit : Option Symbol
  deriving DecidableEq, Repr

/-- The child a bit leads to: left on 0, right on 1 (R171). -/
def childOf (d : Node) (b : Bool) : NodeIdx := if b then d.right else d.left

/-- `decStep(b)` (R171) from the node `cur`: none is "fail InvalidCode". -/
def decStep (s : State) (cur : NodeIdx) (b : Bool) : Option DecMove :=
  if (nodeAt s s.root.toNat).leaf then
    if b then none else some ⟨cur, some (nodeAt s s.root.toNat).sym⟩
  else
    let child := childOf (nodeAt s cur.toNat) b
    if (nodeAt s child.toNat).leaf then some ⟨s.root, some (nodeAt s child.toNat).sym⟩
    else some ⟨child, none⟩

/-- The end of a DEC's bits: where the walker stands and what it emitted, or the position of the first offending bit. -/
inductive DecRun where
  | done (cur : NodeIdx) (syms : List Symbol)
  | failed (i : Nat)
  deriving DecidableEq, Repr

/-- The loop of DEC (R172) from bit number `i`. -/
def decRun (s : State) : Nat → NodeIdx → List Bool → DecRun
  | _, cur, [] => .done cur []
  | i, cur, b :: rest =>
    match decStep s cur b with
    | none => .failed i
    | some m =>
      match decRun s (i + 1) m.cur rest with
      | .failed j => .failed j
      | .done c syms => .done c (m.emit.toList ++ syms)

/-- CUR written. -/
def State.setCur (s : State) (c : NodeIdx) : State := { s with cur := c }

/-- DECSTART (R170): needs TREE_VALID; restarts an active session. -/
def execDecstart (s : State) : Host.Outcome State Fault Refusal :=
  runCommand (refuseIfFaulted (require State.treeValid (opcodeOf .decstart) fun s =>
    .respond (s.setCur s.root).setDecActive 0#64)) s

/-- DEC byte, nb (R172): needs DEC_ACTIVE; InvalidCodeError, with the bit's position, has no effect; else answers the number
of symbols emitted. -/
def execDec (byte : Byte) (nb : BitVec 3) (s : State) : Host.Outcome State Fault Refusal :=
  runCommand (refuseIfFaulted (require State.decActive (opcodeOf (.dec byte nb)) fun s =>
    match decRun s 0 s.cur (decBits byte nb) with
    | .failed i => .raise .invalidCode (BitVec.ofNat 16 i)
    | .done c syms => .respond ((s.setCur c).emitSyms syms) (BitVec.ofNat 64 syms.length))) s

/-- DECEND (R173): needs DEC_ACTIVE, then CUR = ROOT, else InvalidCodeError with 0x8000 OR CUR. -/
def execDecend (s : State) : Host.Outcome State Fault Refusal :=
  runCommand (refuseIfFaulted (require State.decActive (opcodeOf .decend) fun s =>
    if s.cur = s.root then .respond s.clearDecActive 0#64
    else .raise .invalidCode (0x8000#16 ||| s.cur.setWidth 16))) s

end Sys2Proof.Machine
end

