-- ==== Sys2Proof/Machine/Encoder.lean ====
section
/-! DEFINITION. The Huffman encoder: ENCSTART, ENC and ENCEND (43_encoder.md). -/

namespace Sys2Proof.Machine

/-- ACC, NACC and ENCBITS to 0, as ENCSTART does (R150). -/
def State.clearWriter (s : State) : State := { s with acc := 0#8, nacc := 0#3, encbits := 0#64 }

/-- ACC and NACC to 0, as ENCEND does (R154). -/
def State.emptyAcc (s : State) : State := { s with acc := 0#8, nacc := 0#3 }

/-- The byte ACC with the bit `b` put below the `nacc` bits it holds (R151). -/
def accWith (acc : Byte) (nacc : BitVec 3) (b : Bool) : Byte :=
  acc ||| (((BitVec.ofBool b).setWidth 8) <<< (7 - nacc.toNat))

/-- `putBit(b)` (R151): a byte is emitted at the moment its eighth bit is written. -/
def State.putBit (s : State) (b : Bool) : State :=
  if s.nacc = 7#3 then
    { s with outb := s.outb ++ [accWith s.acc s.nacc b], acc := 0#8, nacc := 0#3, encbits := s.encbits + 1#64 }
  else
    { s with acc := accWith s.acc s.nacc b, nacc := s.nacc + 1#3, encbits := s.encbits + 1#64 }

/-- Write bits in order (R153). -/
def State.putBits (s : State) (bits : List Bool) : State := bits.foldl State.putBit s

/-- The final partial byte, if there is one (R154). -/
def State.flush (s : State) : State := if s.nacc = 0#3 then s else s.emitByte s.acc

/-- ENCSTART (R150): needs CODES_VALID; restarts an active session. -/
def execEncstart (s : State) : Host.Outcome State Fault Refusal :=
  runCommand (refuseIfFaulted (require State.codesValid (opcodeOf .encstart) fun s =>
    .respond s.clearWriter.setEncActive 0#64)) s

/-- ENC sym (R153): needs ENC_ACTIVE, then a valid code, then room in ENCBITS; answers the code's length. -/
def execEnc (sym : Symbol) (s : State) : Host.Outcome State Fault Refusal :=
  runCommand (refuseIfFaulted (require State.encActive (opcodeOf (.enc sym)) fun s =>
    let c := codeAt s sym.toNat
    if c.valid = false then .raise .unknownSymbol (sym.setWidth 16)
    else if Config.encBitsMax < s.encbits.toNat + c.len.toNat then .raise .overflow 0x0100#16
    else .respond (s.putBits (codeBits c)) (c.len.setWidth 64))) s

/-- ENCEND (R154): needs ENC_ACTIVE; pads and emits the partial byte; answers ENCBITS, which it keeps. -/
def execEncend (s : State) : Host.Outcome State Fault Refusal :=
  runCommand (refuseIfFaulted (require State.encActive (opcodeOf .encend) fun s =>
    .respond s.flush.emptyAcc.clearEncActive s.encbits)) s

end Sys2Proof.Machine
end

