-- ==== Sys2Proof/Machine/Frequency.lean ====
section
/-! DEFINITION. The frequency table commands CLRFREQ, CNT, WRFREQ and RDFREQ (40_frequency.md). -/

namespace Sys2Proof.Machine

/-- CLRFREQ (R100): every FREQ entry 0. -/
def execClrfreq (s : State) : Host.Outcome State Fault Refusal :=
  runCommand (refuseIfFaulted fun s => .respond s.clearFreq 0#64) s

/-- CNT sym (R102): FREQ[sym] + 1; OverflowError, with the symbol, at 2^32 − 1. -/
def execCnt (sym : Symbol) (s : State) : Host.Outcome State Fault Refusal :=
  runCommand (refuseIfFaulted fun s =>
    if freqAt s sym.toNat = Config.countMax then .raise .overflow (sym.setWidth 16)
    else .respond (s.writeFreq sym.toNat (freqAt s sym.toNat + 1#32)) 0#64) s

/-- WRFREQ sym, val (R101): FREQ[sym] is val. -/
def execWrfreq (sym : Symbol) (val : Count) (s : State) : Host.Outcome State Fault Refusal :=
  runCommand (refuseIfFaulted fun s => .respond (s.writeFreq sym.toNat val) 0#64) s

/-- RDFREQ sym (R103): answers FREQ[sym]; permitted in FAULTED mode. -/
def execRdfreq (sym : Symbol) (s : State) : Host.Outcome State Fault Refusal :=
  runCommand (fun s => .respond s (readFreq s sym)) s

end Sys2Proof.Machine
end

