-- ==== Sys2Proof/Machine/Tree.lean ====
section
/-! DEFINITION. The Huffman tree builder: BUILD and RDNODE (41_tree_builder.md). -/

namespace Sys2Proof.Machine

/-- A member of the priority queue (10_state.md R33): a node's index, with the frequency it is ordered by. -/
structure Key where
  freq : Freq
  idx  : Nat
  deriving DecidableEq, Repr

/-- The order of the queue (R113): lexicographic on (freq, index), unsigned. -/
def Key.precedes (a b : Key) : Bool := decide (a.freq < b.freq) || (a.freq == b.freq && decide (a.idx < b.idx))

/-- Remove the least of the member `k` and the members `rest` (R113): the least, and the others. -/
def extractMinFrom (k : Key) : List Key → Key × List Key
  | [] => (k, [])
  | x :: rest =>
    if x.precedes k then let r := extractMinFrom x rest; (r.1, k :: r.2)
    else let r := extractMinFrom k rest; (r.1, x :: r.2)

/-- `extractMin(PQ)` (00_scope.md R9): none when the queue is empty. -/
def extractMin : List Key → Option (Key × List Key)
  | [] => none
  | k :: rest => some (extractMinFrom k rest)

/-- The present symbols, in ascending order: L in R110. -/
def presentSymbols (s : State) : List Nat := (List.range Config.nSymMax).filter fun a => freqAt s a != 0#32

/-- The leaf of a symbol (R111). -/
def leafNode (a : Nat) (count : Count) : Node := ⟨true, BitVec.ofNat 8 a, count.setWidth 40, 0#9, 0#9⟩

/-- The leaves, in ascending symbol order: NODE[0 .. n−1] (R111). -/
def leaves (s : State) : List Node := (presentSymbols s).map fun a => leafNode a (freqAt s a)

/-- The queue's start: exactly the leaves, numbered from `i` on (R112). -/
def keysFrom (i : Nat) : List Node → List Key
  | [] => []
  | d :: rest => ⟨d.freq, i⟩ :: keysFrom (i + 1) rest

/-- The internal node of two removed members: the first removed is the left child (R114). -/
def mergeNode (a b : Key) : Node := ⟨false, 0#8, a.freq + b.freq, BitVec.ofNat 9 a.idx, BitVec.ofNat 9 b.idx⟩

/-- The merge loop (R110, R114): while the queue holds two members, merge its two least. `arena` holds the nodes made so far, in
index order, so the next node's index is its length. The loop removes two members and inserts one, so that it runs at most
`fuel` times when the queue holds at most `fuel` + 1 (R115). Answers the arena and the queue that is left. -/
def mergeLoop : Nat → List Node → List Key → List Node × List Key
  | 0, arena, pq => (arena, pq)
  | fuel + 1, arena, pq =>
    match extractMin pq with
    | none => (arena, pq)
    | some (a, pq₁) =>
      match extractMin pq₁ with
      | none => (arena, pq)
      | some (b, pq₂) =>
        mergeLoop fuel (arena ++ [mergeNode a b]) (⟨a.freq + b.freq, arena.length⟩ :: pq₂)

/-- The nodes of a tree and its root. -/
structure BuiltTree where
  nodes : List Node
  root  : Nat
  deriving DecidableEq, Repr

/-- The tree of a nonempty list of leaves: all its nodes in index order, and the index of the root, the single member left in
the queue (R110, R115). -/
def buildTree (leafNodes : List Node) : BuiltTree :=
  let done := mergeLoop (leafNodes.length - 1) leafNodes (keysFrom 0 leafNodes)
  ⟨done.1, match done.2 with | [] => 0 | k :: _ => k.idx⟩

/-- Store a built tree of `n` leaves (R110): NODE[0 .. 2n−2], ROOT and NSYM. Higher NODE entries stay. -/
def State.storeTree (s : State) (n : Nat) (t : BuiltTree) : State :=
  { s with node := s.node.writeFrom 0 t.nodes, nsym := BitVec.ofNat 9 n, root := BitVec.ofNat 9 t.root }

/-- The state a successful BUILD leaves (R110). -/
def State.afterBuild (s : State) : State :=
  (s.storeTree (leaves s).length (buildTree (leaves s))).flagsAfterBuild

/-- BUILD (R110): EmptyInputError when no FREQ entry is nonzero (R120); else the tree, answering the new TREEINFO word. -/
def execBuild (s : State) : Host.Outcome State Fault Refusal :=
  runCommand (refuseIfFaulted fun s =>
    if (leaves s).isEmpty then .raise .emptyInput 0#16
    else .respond s.afterBuild (treeInfo s.afterBuild.nsym s.afterBuild.root)) s

/-- RDNODE node (R123): needs TREE_VALID, then node < NNODE; permitted in FAULTED mode. -/
def execRdnode (node : NodeIdx) (s : State) : Host.Outcome State Fault Refusal :=
  runCommand (require State.treeValid (opcodeOf (.rdnode node)) fun s =>
    if node.toNat < nnode s then .respond s (readNode s node)
    else .raise .rangeError (node.setWidth 16)) s

end Sys2Proof.Machine
end

