-- ==== Sys2Proof/Machine/Dispatch.lean ====
section
/-! DEFINITION. One arm per command: each is its meaning, the command's prologue included (45_control.md R198). -/

namespace Sys2Proof.Machine

def exec (i : Instr) (s : State) : Host.Outcome State Fault Refusal :=
  match i with
  | .reset => Sys2Proof.Machine.execReset s
  | .clrerr => Sys2Proof.Machine.execClrerr s
  | .rdcsr csr => Sys2Proof.Machine.execRdcsr csr s
  | .clrfreq => Sys2Proof.Machine.execClrfreq s
  | .cnt sym => Sys2Proof.Machine.execCnt sym s
  | .wrfreq sym val => Sys2Proof.Machine.execWrfreq sym val s
  | .rdfreq sym => Sys2Proof.Machine.execRdfreq sym s
  | .build => Sys2Proof.Machine.execBuild s
  | .rdnode node => Sys2Proof.Machine.execRdnode node s
  | .assign => Sys2Proof.Machine.execAssign s
  | .rdclen sym => Sys2Proof.Machine.execRdclen sym s
  | .rdcode sym w => Sys2Proof.Machine.execRdcode sym w s
  | .encstart => Sys2Proof.Machine.execEncstart s
  | .enc sym => Sys2Proof.Machine.execEnc sym s
  | .encend => Sys2Proof.Machine.execEncend s
  | .decstart => Sys2Proof.Machine.execDecstart s
  | .dec byte nb => Sys2Proof.Machine.execDec byte nb s
  | .decend => Sys2Proof.Machine.execDecend s

end Sys2Proof.Machine
end

