-- ==== Sys2Proof/Machine/Port.lean ====
section
/-! DEFINITION. The command port: what one host action does to the block (00_scope.md R14), and how a word is put where the next
step takes it from. -/

namespace Sys2Proof.Machine

/-- The rest of what the host will do. -/
def State.setHost (s : State) (rest : List HostAction) : State := { s with host := rest }

/-- One command word on the port (45_control.md R198): decode, then run; an illegal word is a command that raises
IllegalCommand (30_encoding.md R83). -/
def presentWord (w : Word) (s : State) : Host.Outcome State Fault Refusal :=
  match decode w with
  | .ok i => exec i s
  | .error _ => illegalCommand (illegalArg w) s

/-- One host action: a command word, or hardware reset, which answers nothing (70_reset_and_hazards.md R231). -/
def hostAction (a : HostAction) (s : State) : Host.Outcome State Fault Refusal :=
  match a with
  | .command w => presentWord w s
  | .hardwareReset => .next s.doReset

/-- The next host action, if there is one; else the block is idle and keeps all its state (R232, 60_exceptions.md R214). -/
def stepHost (s : State) : Host.Outcome State Fault Refusal :=
  match s.host with
  | [] => .next s
  | a :: rest => hostAction a (s.setHost rest)

/-- The host presents a word next. -/
def State.withCommand (s : State) (w : Word) : State := s.setHost (.command w :: s.host)

end Sys2Proof.Machine
end

