-- ==== Sys2Proof/Machine/Step.lean ====
section
/-! DEFINITION. One step of the machine: the next host action, completely (00_scope.md R10). -/

namespace Sys2Proof.Machine

/-- One step: the next host action, or idling when the host has none. -/
def step (s : State) : Host.Outcome State Fault Refusal := stepHost s

/-- `s` with the host presenting the row's word next, so that the next step runs exactly it (assumption log 1). -/
def State.withFetchWord (s : State) (nbits w : Nat) : State := s.withCommand (tableWord nbits w)

end Sys2Proof.Machine
end

