-- ==== Sys2Proof/Safety.lean ====
section
/-! DEFINITION. The terms in which claims about the machine are stated: what a command leaves unchanged, what a failing command
does (60_exceptions.md R205, R206), runs of commands, and the invariants of 10_state.md R35. -/

namespace Sys2Proof.Machine

/-! ### What a command does and leaves -/

/-- From `s` to `t` one command word was accepted and answered with `r`: CMDCNT advanced by one modulo 2^32 (R23), one
response given (R85), the host's further actions untouched, no reset (`host` and `epoch` are the model's own fields, logs 1
and 4). -/
structure Answered (s t : State) (r : Response) : Prop where
  cmdcnt    : t.cmdcnt = s.cmdcnt + 1#32
  responses : t.responses = s.responses ++ [r]
  host      : t.host = s.host
  epoch     : t.epoch = s.epoch

/-- Every FREQ entry reads as before. -/
def KeepsFreq (s t : State) : Prop := ∀ a, freqAt t a = freqAt s a

/-- TREE_VALID, NSYM, ROOT and every NODE entry read as before. -/
structure KeepsTree (s t : State) : Prop where
  treeValid : t.treeValid = s.treeValid
  nsym      : t.nsym = s.nsym
  root      : t.root = s.root
  nodes     : ∀ i, nodeAt t i = nodeAt s i

/-- CODES_VALID and every CODE entry read as before. -/
structure KeepsCodes (s t : State) : Prop where
  codesValid : t.codesValid = s.codesValid
  codes      : ∀ a, codeAt t a = codeAt s a

/-- ENC_ACTIVE, ACC, NACC, ENCBITS and the stream OUTB are as before. -/
structure KeepsEncoder (s t : State) : Prop where
  encActive : t.encActive = s.encActive
  acc       : t.acc = s.acc
  nacc      : t.nacc = s.nacc
  encbits   : t.encbits = s.encbits
  outb      : t.outb = s.outb

/-- DEC_ACTIVE, CUR and the stream OUTS are as before. -/
structure KeepsDecoder (s t : State) : Prop where
  decActive : t.decActive = s.decActive
  cur       : t.cur = s.cur
  outs      : t.outs = s.outs

/-- ERR, ERRCODE, ERRARG and ERRCMD are as before. -/
structure KeepsErrors (s t : State) : Prop where
  err     : t.err = s.err
  errcode : t.errcode = s.errcode
  errarg  : t.errarg = s.errarg
  errcmd  : t.errcmd = s.errcmd

/-- Everything a command can change but CMDCNT and the error registers is as before. -/
structure KeepsAllButErrors (s t : State) : Prop where
  freq    : KeepsFreq s t
  tree    : KeepsTree s t
  codes   : KeepsCodes s t
  encoder : KeepsEncoder s t
  decoder : KeepsDecoder s t

/-- From `s` to `t` one command failed with error `e` and argument `arg`: precise (R205), answered with data 0, and latched
exactly when no error was latched before and `e` is not FaultedRefusal (R206). -/
structure Failed (s t : State) (e : Error) (arg : BitVec 16) : Prop where
  answered : Answered s t ⟨.error e, 0#64⟩
  precise  : KeepsAllButErrors s t
  latched  : s.err = false → e ≠ .faultedRefusal →
    t.err = true ∧ t.errcode = e.code ∧ t.errarg = arg ∧ t.errcmd = s.cmdcnt
  kept     : s.err = true ∨ e = .faultedRefusal → KeepsErrors s t

/-- `t` is the reset state (R230), reached from `s`: what left the block before stays (20_memory.md R70). -/
structure IsResetOf (s t : State) : Prop where
  registers : t.nsym = 0#9 ∧ t.root = 0#9 ∧ t.cur = 0#9 ∧ t.acc = 0#8 ∧ t.nacc = 0#3 ∧ t.encbits = 0#64
  counter   : t.cmdcnt = 0#32
  fault     : t.faultOutput = false
  errors    : t.err = false ∧ t.errcode = 0#4 ∧ t.errarg = 0#16 ∧ t.errcmd = 0#32
  flags     : t.treeValid = false ∧ t.codesValid = false ∧ t.encActive = false ∧ t.decActive = false
  freq      : ∀ a, freqAt t a = 0#32
  streams   : t.outb = s.outb ∧ t.outs = s.outs

/-- The permitted set of FAULTED mode (60_exceptions.md R207). -/
def permittedInFaulted : Instr → Bool
  | .reset | .clrerr | .rdcsr _ | .rdfreq _ | .rdnode _ | .rdclen _ | .rdcode _ _ => true
  | .clrfreq | .cnt _ | .wrfreq _ _ | .build | .assign | .encstart | .enc _ | .encend | .decstart | .dec _ _
  | .decend => false

/-- The flag a command needs (60_exceptions.md R200, the row of SequenceError). -/
def neededFlag (s : State) : Instr → Bool
  | .rdnode _ | .assign | .decstart => s.treeValid
  | .rdclen _ | .rdcode _ _ | .encstart => s.codesValid
  | .enc _ | .encend => s.encActive
  | .dec _ _ | .decend => s.decActive
  | .reset | .clrerr | .rdcsr _ | .clrfreq | .cnt _ | .wrfreq _ _ | .rdfreq _ | .build => true

/-- The commands in order, each run to completion; none if one of them does not answer a next state. -/
def runCommands : List Instr → State → Option State
  | [], s => some s
  | i :: rest, s =>
    match exec i s with
    | .next t => runCommands rest t
    | .fault _ => none
    | .refused _ => none

/-- From `s` to `t` every response is OK (00_scope.md R13: a run has gone wrong exactly when some status is not OK). -/
def AllOk (s t : State) : Prop :=
  ∃ l : List Response, t.responses = s.responses ++ l ∧ ∀ r ∈ l, r.status = .ok

/-! ### Bits of the encoded stream (20_memory.md R67) -/

/-- The bits of a byte, bit 7 first. -/
def byteBits (b : Byte) : List Bool := (List.range 8).map fun i => b.getLsbD (7 - i)

/-- The code bits held in ACC, in the order they were written. -/
def pendingBits (s : State) : List Bool := (List.range s.nacc.toNat).map fun i => s.acc.getLsbD (7 - i)

/-- The code string of a symbol in the code table: `code(s)` of 43_encoder.md R155. -/
def codeString (s : State) (a : Symbol) : List Bool := codeBits (codeAt s a.toNat)

/-- The code bits of a symbol sequence: B in R155. -/
def encodedBits (s : State) (l : List Symbol) : List Bool := l.flatMap (codeString s)

/-- The encode session of a symbol sequence (R155). -/
def encodeSession (l : List Symbol) : List Instr := .encstart :: l.map .enc ++ [.encend]

/-- The DEC commands that present the first `total` bits of a payload (44_decoder.md R175): 8 bits of each byte while 8 remain,
then the rest of the last byte. -/
def payloadDecs : List Byte → Nat → List Instr
  | [], _ => []
  | y :: rest, total =>
    if 8 ≤ total then .dec y 7#3 :: payloadDecs rest (total - 8)
    else if total = 0 then []
    else [.dec y (BitVec.ofNat 3 (total - 1))]

/-- The decode session of a payload (R175). -/
def decodeSession (bytes : List Byte) (total : Nat) : List Instr := .decstart :: payloadDecs bytes total ++ [.decend]

/-! ### The tree and its codes -/

/-- The node a bit string leads to from a node, left on 0 and right on 1; none if it goes on below a leaf
(42_code_assigner.md R131). -/
def walkDown (s : State) : NodeIdx → List Bool → Option NodeIdx
  | i, [] => some i
  | i, b :: rest =>
    if (nodeAt s i.toNat).leaf then none else walkDown s (childOf (nodeAt s i.toNat) b) rest

/-- `c` is the code of leaf `k` (R131), or the fixed code "0" of a single leaf (R132). -/
def IsLeafCode (s : State) (k : Nat) (c : List Bool) : Prop :=
  if s.nsym = 1#9 then c = [false] else walkDown s s.root c = some (BitVec.ofNat 9 k)

/-- The walk of a decode session over bits, in a tree of two or more leaves (44_decoder.md R171): from a node, over the bits,
emitting the symbols, to a node. -/
inductive DecodesTo (s : State) : NodeIdx → List Bool → List Symbol → NodeIdx → Prop where
  | stop (cur : NodeIdx) : DecodesTo s cur [] [] cur
  | inner (cur c : NodeIdx) (b : Bool) (rest : List Bool) (syms : List Symbol)
      (inside : (nodeAt s (childOf (nodeAt s cur.toNat) b).toNat).leaf = false)
      (more : DecodesTo s (childOf (nodeAt s cur.toNat) b) rest syms c) :
      DecodesTo s cur (b :: rest) syms c
  | leaf (cur c : NodeIdx) (b : Bool) (rest : List Bool) (syms : List Symbol)
      (atLeaf : (nodeAt s (childOf (nodeAt s cur.toNat) b).toNat).leaf = true)
      (more : DecodesTo s s.root rest syms c) :
      DecodesTo s cur (b :: rest) ((nodeAt s (childOf (nodeAt s cur.toNat) b).toNat).sym :: syms) c

/-- All `left` and `right` fields of the internal nodes of a tree of `n` leaves. -/
def childIndices (s : State) (n : Nat) : List Nat :=
  (List.range (n - 1)).flatMap fun m => [(nodeAt s (n + m)).left.toNat, (nodeAt s (n + m)).right.toNat]

/-- The well-formedness of an arena of `n` leaves (41_tree_builder.md R117, items 1 to 3). -/
structure ArenaWf (s : State) (n : Nat) : Prop where
  leaf : ∀ k, k < n → (nodeAt s k).leaf = true ∧ (nodeAt s k).left = 0#9 ∧ (nodeAt s k).right = 0#9 ∧
    1 ≤ (nodeAt s k).freq.toNat ∧ (nodeAt s k).freq.toNat ≤ 2 ^ 32 - 1
  ascending : ∀ k, k + 1 < n → (nodeAt s k).sym.toNat < (nodeAt s (k + 1)).sym.toNat
  inner : ∀ k, n ≤ k → k < 2 * n - 1 → (nodeAt s k).leaf = false ∧ (nodeAt s k).sym = 0#8 ∧
    (nodeAt s k).left.toNat < k ∧ (nodeAt s k).right.toNat < k ∧ (nodeAt s k).left ≠ (nodeAt s k).right ∧
    (nodeAt s k).freq.toNat =
      (nodeAt s (nodeAt s k).left.toNat).freq.toNat + (nodeAt s (nodeAt s k).right.toNat).freq.toNat
  once : ∀ j, j < 2 * n - 2 → (childIndices s n).count j = 1
  rootFree : (childIndices s n).count (2 * n - 2) = 0

/-- A node is in the queue when the node `k` is made: it was made before, and no node made since has taken it as a child
(41_tree_builder.md R112, R114). -/
def InQueueAt (s : State) (n k j : Nat) : Prop :=
  j < k ∧ ∀ m, n ≤ m → m < k → (nodeAt s m).left.toNat ≠ j ∧ (nodeAt s m).right.toNat ≠ j

/-- Node `i` precedes node `j` in the queue's order (R113). -/
def NodePrecedes (s : State) (i j : Nat) : Prop :=
  (nodeAt s i).freq.toNat < (nodeAt s j).freq.toNat ∨ ((nodeAt s i).freq.toNat = (nodeAt s j).freq.toNat ∧ i < j)

/-- The sum of all FREQ entries. -/
def freqSum (s : State) : Nat := ((List.range Config.nSymMax).map fun a => (freqAt s a).toNat).sum

/-! ### The invariants of 10_state.md R35 -/

/-- R35 item 1. -/
structure FlagsInv (s : State) : Prop where
  enc   : s.encActive = true → s.codesValid = true
  codes : s.codesValid = true → s.treeValid = true
  dec   : s.decActive = true → s.treeValid = true

/-- R35 item 2: R24 and R117. -/
structure TreeInv (s : State) : Prop where
  absent  : s.treeValid = false → s.nsym = 0#9 ∧ s.root = 0#9
  present : s.treeValid = true →
    1 ≤ s.nsym.toNat ∧ s.nsym.toNat ≤ 256 ∧ s.root.toNat = 2 * s.nsym.toNat - 2 ∧ ArenaWf s s.nsym.toNat

/-- The code table is the tree's (R35 item 3, with the form of entries of R32). -/
structure CodesOfTree (s : State) : Prop where
  domain : ∀ a : Symbol, (codeAt s a.toNat).valid = true ↔ ∃ k, k < s.nsym.toNat ∧ (nodeAt s k).sym = a
  paths  : ∀ k, k < s.nsym.toNat → IsLeafCode s k (codeString s (nodeAt s k).sym)
  stored : ∀ a : Symbol, (codeAt s a.toNat).valid = true → (codeAt s a.toNat).bits = storeBits (codeString s a)
  absent : ∀ a : Symbol, (codeAt s a.toNat).valid = false → codeAt s a.toNat = absentCode

/-- R25: the bits of ACC below the code bits it holds are zero, and NACC counts a session's bits modulo 8. -/
structure EncoderInv (s : State) : Prop where
  lowZero : s.acc.toNat % 2 ^ (8 - s.nacc.toNat) = 0
  count   : s.encActive = true → s.nacc.toNat = s.encbits.toNat % 8

/-- R26: in a decode session CUR is the root or an internal node of the tree. -/
structure DecoderInv (s : State) : Prop where
  cur : s.decActive = true → s.cur.toNat < nnode s ∧ (s.cur = s.root ∨ (nodeAt s s.cur.toNat).leaf = false)

/-- R27: the error registers are 0 outside FAULTED mode, and the code of a latched error is 1 to 7. -/
structure ErrorInv (s : State) : Prop where
  normal  : s.err = false → s.errcode = 0#4 ∧ s.errarg = 0#16 ∧ s.errcmd = 0#32
  faulted : s.err = true → 1 ≤ s.errcode.toNat ∧ s.errcode.toNat ≤ 7

/-- The lists that hold the memories are in their canonical form: the model's own, no part of R35 (DEDUCED, log 5). -/
structure MemoryInv (s : State) : Prop where
  freq : freqWf s.freq = true
  node : Memory.wf Config.nNodeMax s.node = true
  code : Memory.wf Config.nSymMax s.code = true

/-- The invariant of every reachable state: the items of R35, and the form of the model's lists (`memory`, log 5). -/
structure Inv (s : State) : Prop where
  flags   : FlagsInv s
  tree    : TreeInv s
  codes   : s.codesValid = true → CodesOfTree s
  encoder : EncoderInv s
  decoder : DecoderInv s
  errors  : ErrorInv s
  memory  : MemoryInv s

/-- Two states that agree on everything a command can observe: they may differ in the entries of NODE at or above NNODE, in
CODE while no code table is current, and so in every unspecified value (70_reset_and_hazards.md R233). -/
structure SameObservable (s t : State) : Prop where
  cmdcnt  : t.cmdcnt = s.cmdcnt
  freq    : KeepsFreq s t
  tree    : t.treeValid = s.treeValid ∧ t.nsym = s.nsym ∧ t.root = s.root ∧ ∀ i, i < nnode s → nodeAt t i = nodeAt s i
  codes   : t.codesValid = s.codesValid ∧ (s.codesValid = true → ∀ a : Symbol, codeAt t a.toNat = codeAt s a.toNat)
  encoder : KeepsEncoder s t
  decoder : KeepsDecoder s t
  errors  : KeepsErrors s t
  host    : t.host = s.host
  answers : t.responses = s.responses

end Sys2Proof.Machine
end

