-- ==== Sys2Proof/Certificates/Slice0/Obligations.lean ====
section
/-! DEFINITION. The statements about HUFFCORE that the provers settle. Each says which rule of spec/ it formalises; where it
rests on a choice of the model, it names the assumption log's entry. -/

open Sys2Proof Sys2Proof.Machine

/-! ### Command words (30_encoding.md) -/

/-- R80 to R83: decoding the word of any command gives the command back, with every operand at every value. -/
def Obligations.DecodingAnEncodedCommandGivesItBack : Prop :=
  ∀ i : Instr, decode (encode i) = .ok i

/-- R83: a word that decodes to a command is the word of that command, so that each command has exactly one word. -/
def Obligations.DecodedWordIsTheWordOfItsCommand : Prop :=
  ∀ (w : Word) (i : Instr), decode w = .ok i → encode i = w

/-- R82: "a word `w` is this command exactly when `w AND mask = match`", for every row of the table. -/
def Obligations.DecodingAgreesWithTheMaskTable : Prop :=
  ∀ (w : Word) (r : OpRow), r ∈ opcodeTable →
    (w &&& r.format.mask = r.pattern ↔ ∃ i, decode w = .ok i ∧ mnemonicOf i = r.mnemonic)

/-- R83, R84: a word is rejected exactly when it matches no row of the table, as an undefined opcode exactly when no row has its
opcode. -/
def Obligations.RejectedWordsAreThoseOutsideTheTable : Prop :=
  ∀ w : Word,
    ((∃ e, decode w = .error e) ↔ ∀ r ∈ opcodeTable, w &&& r.format.mask ≠ r.pattern) ∧
    ((∃ op, decode w = .error (.undefinedOpcode op)) ↔ ∀ r ∈ opcodeTable, fieldOp w ≠ fieldOp r.pattern)

/-- R82, R87: sample words, written out from the encoding tables, decode to the commands they stand for; four malformed words are
rejected by name. -/
def Obligations.SampleWordsDecode : Prop :=
  decode 0x0100000000000000#64 = .ok .reset ∧
  decode 0x0300000100000000#64 = .ok (.rdcsr 1#3) ∧
  decode 0x120000660000002D#64 = .ok (.wrfreq 0x66#8 45#32) ∧
  decode 0x210001FF00000000#64 = .ok (.rdnode 511#9) ∧
  decode 0x3203006100000000#64 = .ok (.rdcode 0x61#8 3#2) ∧
  decode 0x4100007A00000000#64 = .ok (.enc 0x7A#8) ∧
  decode 0x510600DC00000000#64 = .ok (.dec 0xDC#8 6#3) ∧
  decode 0x0000000000000000#64 = .error (.undefinedOpcode 0x00#8) ∧
  decode 0xFFFFFFFFFFFFFFFF#64 = .error (.undefinedOpcode 0xFF#8) ∧
  decode 0x4100016100000000#64 = .error (.mustBeZero 0x41#8) ∧
  decode 0x5108000000000000#64 = .error (.mustBeZero 0x51#8)

/-- R87: the assembler assembles exactly the lines whose operands are in range, and rejects the others rather than truncating;
a line other than `.word` assembles to a word that decodes to the command the line names. -/
def Obligations.AssemblerRejectsOperandsOutOfRange : Prop :=
  ∀ a : Asm,
    (a.wellFormed = false → assemble a = none) ∧
    (a.wellFormed = true → ∃ w, assemble a = some w ∧
      (∀ v, a = .word v → w.toNat = v) ∧
      ∀ i, a.toInstr = some i → decode w = .ok i)

/-- R87: the word each of the nineteen lines of the syntax table stands for; and the number that each CSR name stands for as the
operand of `rdcsr`. -/
def Obligations.AssembledWordsAreThoseOfTheSyntaxTable : Prop :=
  (assemble .reset = some 0x0100000000000000#64 ∧ assemble .clrerr = some 0x0200000000000000#64 ∧
    assemble .clrfreq = some 0x1000000000000000#64 ∧ assemble .build = some 0x2000000000000000#64 ∧
    assemble .assign = some 0x3000000000000000#64 ∧ assemble .encstart = some 0x4000000000000000#64 ∧
    assemble .encend = some 0x4200000000000000#64 ∧ assemble .decstart = some 0x5000000000000000#64 ∧
    assemble .decend = some 0x5200000000000000#64) ∧
  (["status", "treeinfo", "errinfo", "errcmd", "cmdcnt", "encbits", "encacc", "deccur"].map csrNumber =
    (List.range 8).map some) ∧
  ∀ w : Word,
    (∀ k, assemble (.rdcsr k) = some w → w.toNat = 0x03 * 2 ^ 56 + k * 2 ^ 32) ∧
    (∀ s, assemble (.cnt s) = some w → w.toNat = 0x11 * 2 ^ 56 + s * 2 ^ 32) ∧
    (∀ s v, assemble (.wrfreq s v) = some w → w.toNat = 0x12 * 2 ^ 56 + s * 2 ^ 32 + v) ∧
    (∀ s, assemble (.rdfreq s) = some w → w.toNat = 0x13 * 2 ^ 56 + s * 2 ^ 32) ∧
    (∀ i, assemble (.rdnode i) = some w → w.toNat = 0x21 * 2 ^ 56 + i * 2 ^ 32) ∧
    (∀ s, assemble (.rdclen s) = some w → w.toNat = 0x31 * 2 ^ 56 + s * 2 ^ 32) ∧
    (∀ s c, assemble (.rdcode s c) = some w → w.toNat = 0x32 * 2 ^ 56 + c * 2 ^ 48 + s * 2 ^ 32) ∧
    (∀ s, assemble (.enc s) = some w → w.toNat = 0x41 * 2 ^ 56 + s * 2 ^ 32) ∧
    (∀ b n, assemble (.dec b n) = some w → w.toNat = 0x51 * 2 ^ 56 + (n - 1) * 2 ^ 48 + b * 2 ^ 32) ∧
    (∀ v, assemble (.word v) = some w → w.toNat = v)

/-- R88: the DEC commands that `decbits` expands to consume exactly the bits of the bit string, in order. -/
def Obligations.DecbitsDeliversExactlyItsBits : Prop :=
  ∀ bits : List Bool, ∃ decs : List (Byte × BitVec 3),
    (expand (.decbits bits)).map Asm.toInstr = decs.map (fun d => some (.dec d.1 d.2)) ∧
    (∀ a ∈ expand (.decbits bits), a.wellFormed = true) ∧
    decs.flatMap (fun d => decBits d.1 d.2) = bits

/-! ### The step (00_scope.md R10, 45_control.md R198) -/

/-- R10, R198: when the word the host presents decodes to a command, the step is that command, at the state whose next host
action has been taken (log 1). -/
def Obligations.StepRunsTheDecodedCommand : Prop :=
  ∀ (s : State) (w : Word) (rest : List HostAction) (i : Instr),
    s.host = .command w :: rest → decode w = .ok i → step s = exec i (s.setHost rest)

/-- R83: a word that is no command is a command that raises IllegalCommand, in every state, with bits 63:48 of the word (the word
comes by the model's port, log 1). -/
def Obligations.IllegalWordRaisesIllegalCommand : Prop :=
  ∀ (s : State) (w : Word) (rest : List HostAction) (e : DecodeError),
    s.host = .command w :: rest → decode w = .error e →
    ∃ t, step s = .next t ∧ Failed (s.setHost rest) t .illegalCommand (w.extractLsb' 48 16)

/-- R231, R232: with no host action the block waits, its state unchanged; hardware reset gives the reset state and no response
(the host's actions are the model's own field, log 1). -/
def Obligations.StepWaitsOrResets : Prop :=
  ∀ s : State,
    (s.host = [] → step s = .next s) ∧
    (∀ rest, s.host = .hardwareReset :: rest →
      ∃ t, step s = .next t ∧ IsResetOf s t ∧ t.responses = s.responses ∧ t.host = rest)

/-- R85, R23: every command word, legal or not, in every state, is answered by exactly one response, whose data is 0 unless
it is OK; CMDCNT advances by one, or is 0 after RESET (the word comes by the model's port, log 1). -/
def Obligations.EveryWordIsAnsweredOnce : Prop :=
  ∀ (s : State) (w : Word), ∃ t r,
    step (s.withCommand w) = .next t ∧ t.responses = s.responses ++ [r] ∧ t.host = s.host ∧
    (r.status ≠ .ok → r.data = 0#64) ∧
    (decode w ≠ .ok .reset → t.cmdcnt.toNat = (s.cmdcnt.toNat + 1) % 2 ^ 32) ∧
    (decode w = .ok .reset → t.cmdcnt = 0#32)

/-! ### Errors and the FAULTED mode (60_exceptions.md) -/

/-- R207: in FAULTED mode every command outside the permitted set is refused and has no effect; a permitted command is never
refused so. -/
def Obligations.FaultedModeRefusesAllButThePermittedSet : Prop :=
  ∀ (i : Instr) (s : State),
    (s.err = true → permittedInFaulted i = false → ∃ t, exec i s = .next t ∧ Failed s t .faultedRefusal 0#16) ∧
    (permittedInFaulted i = true ∨ s.err = false →
      ∃ t r, exec i s = .next t ∧ t.responses = s.responses ++ [r] ∧ r.status ≠ .error .faultedRefusal)

/-- R200, R205, R206: the status codes are 0 for OK and 1 to 8 for the errors; a command word, legal or not, that raises an error
has no effect but the CMDCNT increment, the error response with data 0, and the latch, which records the response's own status
code (the word comes by the model's port, log 1). -/
def Obligations.ErrorsArePreciseAndLatchedOnce : Prop :=
  ((Status.code .ok).toNat = 0 ∧
    (Status.code (.error .emptyInput)).toNat = 1 ∧ (Status.code (.error .unknownSymbol)).toNat = 2 ∧
    (Status.code (.error .invalidCode)).toNat = 3 ∧ (Status.code (.error .illegalCommand)).toNat = 4 ∧
    (Status.code (.error .sequenceError)).toNat = 5 ∧ (Status.code (.error .rangeError)).toNat = 6 ∧
    (Status.code (.error .overflow)).toNat = 7 ∧ (Status.code (.error .faultedRefusal)).toNat = 8) ∧
  ∀ (s : State) (w : Word), ∃ t r, step (s.withCommand w) = .next t ∧ t.responses = s.responses ++ [r] ∧
    ∀ e, r.status = .error e →
      (∃ arg, Failed s t e arg) ∧ (s.err = false → t.errcode = r.status.code)

/-- R200, R204: a command whose flag is 0 raises SequenceError with its opcode, once it has passed the FAULTED check. -/
def Obligations.SequenceErrorNamesTheOpcode : Prop :=
  ∀ (i : Instr) (s : State), neededFlag s i = false → s.err = false ∨ permittedInFaulted i = true →
    ∃ t, exec i s = .next t ∧ Failed s t .sequenceError ((opcodeOf i).setWidth 16)

/-- R207, R208: while an error is latched, no command word but CLRERR and RESET changes anything but CMDCNT: nothing is computed
until the error has been acknowledged (the word comes by the model's port, log 1). -/
def Obligations.NothingChangesUntilTheErrorIsAcknowledged : Prop :=
  ∀ (s : State) (w : Word), s.err = true → decode w ≠ .ok .clrerr → decode w ≠ .ok .reset →
    ∃ t r, step (s.withCommand w) = .next t ∧ Answered s t r ∧ KeepsAllButErrors s t ∧ KeepsErrors s t

/-! ### Control (45_control.md) -/

/-- R190: RESET leaves the reset state, CMDCNT 0 included, in every mode, and answers 0; what was emitted stays. -/
def Obligations.ResetCommandGivesTheResetState : Prop :=
  ∀ s : State, ∃ t, exec .reset s = .next t ∧ IsResetOf s t ∧
    t.responses = s.responses ++ [⟨.ok, 0#64⟩] ∧ t.host = s.host

/-- R191: CLRERR clears the four error registers, in every mode, and changes nothing else. -/
def Obligations.ClrerrClearsTheErrorRegistersOnly : Prop :=
  ∀ s : State, ∃ t, exec .clrerr s = .next t ∧ Answered s t ⟨.ok, 0#64⟩ ∧ KeepsAllButErrors s t ∧
    t.err = false ∧ t.errcode = 0#4 ∧ t.errarg = 0#16 ∧ t.errcmd = 0#32

/-- R192, R28: RDCSR answers the status word of its number, in every mode, and changes nothing else; CSR 4 counts this command
already. -/
def Obligations.RdcsrAnswersTheStatusWords : Prop :=
  ∀ (s : State) (k : BitVec 3), ∃ t d, exec (.rdcsr k) s = .next t ∧ Answered s t ⟨.ok, d⟩ ∧
    KeepsAllButErrors s t ∧ KeepsErrors s t ∧
    (k = 0#3 → d.toNat = s.treeValid.toNat + 2 * s.codesValid.toNat + 4 * s.encActive.toNat + 8 * s.decActive.toNat
      + 16 * s.err.toNat) ∧
    (k = 1#3 → d.toNat = s.nsym.toNat + 2 ^ 16 * s.root.toNat) ∧
    (k = 2#3 → d.toNat = s.errcode.toNat + 2 ^ 16 * s.errarg.toNat) ∧
    (k = 3#3 → d.toNat = s.errcmd.toNat) ∧
    (k = 4#3 → d.toNat = (s.cmdcnt.toNat + 1) % 2 ^ 32) ∧
    (k = 5#3 → d = s.encbits) ∧
    (k = 6#3 → d.toNat = s.acc.toNat + 2 ^ 8 * s.nacc.toNat) ∧
    (k = 7#3 → d.toNat = s.cur.toNat)

/-! ### The frequency table (40_frequency.md) -/

/-- R100: CLRFREQ clears every entry of FREQ and changes nothing else. -/
def Obligations.ClrfreqClearsTheTableOnly : Prop :=
  ∀ s : State, s.err = false →
    ∃ t, exec .clrfreq s = .next t ∧ Answered s t ⟨.ok, 0#64⟩ ∧ (∀ a, freqAt t a = 0#32) ∧
      KeepsTree s t ∧ KeepsCodes s t ∧ KeepsEncoder s t ∧ KeepsDecoder s t ∧ KeepsErrors s t

/-- R101: WRFREQ stores its count whole, 0 included, and changes no other entry and nothing else. The premise is the canonical
form of the list that holds FREQ (DEDUCED, log 5), an invariant (`InvariantIsKeptByEveryStep`). -/
def Obligations.WrfreqWritesOneEntry : Prop :=
  ∀ (s : State) (sym : Symbol) (val : Count), s.err = false → freqWf s.freq = true →
    ∃ t, exec (.wrfreq sym val) s = .next t ∧ Answered s t ⟨.ok, 0#64⟩ ∧
      freqAt t sym.toNat = val ∧ (∀ a, a ≠ sym.toNat → freqAt t a = freqAt s a) ∧
      KeepsTree s t ∧ KeepsCodes s t ∧ KeepsEncoder s t ∧ KeepsDecoder s t ∧ KeepsErrors s t

/-- R102: CNT adds one to its symbol's count below the maximum, and changes no other entry and nothing else; at 2^32 − 1 it
raises OverflowError with the symbol and leaves the counter. -/
def Obligations.CntCountsOneOccurrence : Prop :=
  ∀ (s : State) (sym : Symbol), s.err = false →
    ((freqAt s sym.toNat).toNat < 2 ^ 32 - 1 →
      ∃ t, exec (.cnt sym) s = .next t ∧ Answered s t ⟨.ok, 0#64⟩ ∧
        (freqAt t sym.toNat).toNat = (freqAt s sym.toNat).toNat + 1 ∧
        (∀ a, a ≠ sym.toNat → freqAt t a = freqAt s a) ∧
        KeepsTree s t ∧ KeepsCodes s t ∧ KeepsEncoder s t ∧ KeepsDecoder s t ∧ KeepsErrors s t) ∧
    ((freqAt s sym.toNat).toNat = 2 ^ 32 - 1 →
      ∃ t, exec (.cnt sym) s = .next t ∧ Failed s t .overflow (sym.setWidth 16))

/-- R103: RDFREQ answers the count, zero-extended, in every mode, and changes nothing. -/
def Obligations.RdfreqAnswersTheCount : Prop :=
  ∀ (s : State) (sym : Symbol), ∃ t d, exec (.rdfreq sym) s = .next t ∧ Answered s t ⟨.ok, d⟩ ∧
    d.toNat = (freqAt s sym.toNat).toNat ∧ KeepsAllButErrors s t ∧ KeepsErrors s t

/-- R104: from a cleared table, if every CNT of a sequence succeeds, FREQ holds each symbol's number of occurrences and the sum of
FREQ is the sequence's length; a sequence of fewer than 2^32 symbols succeeds. -/
def Obligations.CountingLeavesTheOccurrences : Prop :=
  ∀ (s : State) (l : List Symbol), s.err = false → (∀ a, freqAt s a = 0#32) →
    ∃ t, runCommands (l.map .cnt) s = some t ∧
      (AllOk s t → (∀ a : Symbol, (freqAt t a.toNat).toNat = l.count a) ∧ freqSum t = l.length) ∧
      (l.length < 2 ^ 32 → AllOk s t)

/-- R30: no command but CNT, WRFREQ, CLRFREQ and RESET changes a FREQ entry. -/
def Obligations.OnlyFourCommandsChangeTheFrequencyTable : Prop :=
  ∀ (i : Instr) (s : State), i ≠ .clrfreq → i ≠ .reset → (∀ sym, i ≠ .cnt sym) → (∀ sym val, i ≠ .wrfreq sym val) →
    ∃ t, exec i s = .next t ∧ KeepsFreq s t

/-! ### The tree builder (41_tree_builder.md) -/

/-- R110, R111, R115: BUILD on a table with a present symbol answers the new TREEINFO word, sets NSYM to the number n of
present symbols and ROOT to 2n − 2, makes NODE[k] the leaf of the k-th present symbol, sets TREE_VALID, clears CODES_VALID and
both session flags, and changes nothing else. -/
def Obligations.BuildMakesTheLeavesAndTheRoot : Prop :=
  ∀ s : State, s.err = false → presentSymbols s ≠ [] →
    ∃ t d, exec .build s = .next t ∧ Answered s t ⟨.ok, d⟩ ∧
      d.toNat = (presentSymbols s).length + 2 ^ 16 * (2 * (presentSymbols s).length - 2) ∧
      t.nsym.toNat = (presentSymbols s).length ∧ t.root.toNat = 2 * (presentSymbols s).length - 2 ∧
      (∀ k (h : k < (presentSymbols s).length),
        (nodeAt t k).leaf = true ∧ (nodeAt t k).sym.toNat = (presentSymbols s)[k] ∧
        (nodeAt t k).freq.toNat = (freqAt s (presentSymbols s)[k]).toNat ∧
        (nodeAt t k).left = 0#9 ∧ (nodeAt t k).right = 0#9) ∧
      t.treeValid = true ∧ t.codesValid = false ∧ t.encActive = false ∧ t.decActive = false ∧
      (∀ i, 2 * (presentSymbols s).length - 1 ≤ i → nodeAt t i = nodeAt s i) ∧
      KeepsFreq s t ∧ (∀ a, codeAt t a = codeAt s a) ∧ KeepsErrors s t ∧
      t.cur = s.cur ∧ t.acc = s.acc ∧ t.nacc = s.nacc ∧ t.encbits = s.encbits ∧ t.outb = s.outb ∧ t.outs = s.outs

/-- R113, R114: each internal node's left child is the least member of the queue at the time, in the order (freq, index), and
its right child the least of what remains; the node's frequency is the sum of the two. -/
def Obligations.BuildMergesTheTwoLeastOfTheQueue : Prop :=
  ∀ s : State, s.err = false → presentSymbols s ≠ [] →
    ∃ t, exec .build s = .next t ∧ ∀ k, t.nsym.toNat ≤ k → k < 2 * t.nsym.toNat - 1 →
      (nodeAt t k).leaf = false ∧ (nodeAt t k).sym = 0#8 ∧
      InQueueAt t t.nsym.toNat k (nodeAt t k).left.toNat ∧ InQueueAt t t.nsym.toNat k (nodeAt t k).right.toNat ∧
      NodePrecedes t (nodeAt t k).left.toNat (nodeAt t k).right.toNat ∧
      (∀ j, InQueueAt t t.nsym.toNat k j → j ≠ (nodeAt t k).left.toNat → j ≠ (nodeAt t k).right.toNat →
        NodePrecedes t (nodeAt t k).right.toNat j) ∧
      (nodeAt t k).freq.toNat =
        (nodeAt t (nodeAt t k).left.toNat).freq.toNat + (nodeAt t (nodeAt t k).right.toNat).freq.toNat

/-- R117: a successful BUILD leaves a well-formed arena, whose leaves are exactly the present symbols. -/
def Obligations.BuiltArenaIsWellFormed : Prop :=
  ∀ s : State, s.err = false → (∃ a : Symbol, freqAt s a.toNat ≠ 0#32) →
    ∃ t, exec .build s = .next t ∧ t.treeValid = true ∧ 1 ≤ t.nsym.toNat ∧ t.nsym.toNat ≤ 256 ∧
      t.root.toNat = 2 * t.nsym.toNat - 2 ∧ ArenaWf t t.nsym.toNat ∧
      ∀ a : Symbol, freqAt s a.toNat ≠ 0#32 ↔ ∃ k, k < t.nsym.toNat ∧ (nodeAt t k).sym = a

/-- R116: the root's frequency is the sum of all FREQ entries, and successive merge sums never decrease. -/
def Obligations.MergeSumsGrowToTheTotal : Prop :=
  ∀ s : State, s.err = false → presentSymbols s ≠ [] →
    ∃ t, exec .build s = .next t ∧ (nodeAt t t.root.toNat).freq.toNat = freqSum s ∧
      ∀ k, t.nsym.toNat ≤ k → k + 1 < 2 * t.nsym.toNat - 1 → (nodeAt t k).freq.toNat ≤ (nodeAt t (k + 1)).freq.toNat

/-- R120: BUILD on an empty table raises EmptyInputError and changes nothing but the error registers. -/
def Obligations.BuildOnAnEmptyTableFails : Prop :=
  ∀ s : State, s.err = false → (∀ a, a < 256 → freqAt s a = 0#32) →
    ∃ t, exec .build s = .next t ∧ Failed s t .emptyInput 0#16

/-- R122: the tree is a function of the 256 FREQ values alone. -/
def Obligations.BuildIsAFunctionOfTheFrequencies : Prop :=
  ∀ s s' : State, s.err = false → s'.err = false → (∀ a, a < 256 → freqAt s a = freqAt s' a) → presentSymbols s ≠ [] →
    ∃ t t', exec .build s = .next t ∧ exec .build s' = .next t' ∧
      t.nsym = t'.nsym ∧ t.root = t'.root ∧ ∀ i, i < nnode t → nodeAt t i = nodeAt t' i

/-- R21, R31: no command but BUILD and RESET changes TREE_VALID, NSYM, ROOT or NODE. -/
def Obligations.OnlyBuildAndResetChangeTheTree : Prop :=
  ∀ (i : Instr) (s : State), i ≠ .build → i ≠ .reset → ∃ t, exec i s = .next t ∧ KeepsTree s t

/-- R123, R66: RDNODE of a valid index answers the node's word and changes nothing; at or above NNODE it raises RangeError with
the index; both in every mode. -/
def Obligations.RdnodeAnswersTheNodeOrRangeError : Prop :=
  ∀ (s : State) (node : NodeIdx), s.treeValid = true →
    (node.toNat < nnode s →
      ∃ t d, exec (.rdnode node) s = .next t ∧ Answered s t ⟨.ok, d⟩ ∧ KeepsAllButErrors s t ∧ KeepsErrors s t ∧
        ((nodeAt s node.toNat).leaf = true →
          d.toNat = (nodeAt s node.toNat).freq.toNat + 2 ^ 40 * (nodeAt s node.toNat).sym.toNat
            + 2 ^ 49 * (nodeAt s node.toNat).right.toNat + 2 ^ 58) ∧
        ((nodeAt s node.toNat).leaf = false →
          d.toNat = (nodeAt s node.toNat).freq.toNat + 2 ^ 40 * (nodeAt s node.toNat).left.toNat
            + 2 ^ 49 * (nodeAt s node.toNat).right.toNat)) ∧
    (nnode s ≤ node.toNat →
      ∃ t, exec (.rdnode node) s = .next t ∧ Failed s t .rangeError (node.setWidth 16))

/-! ### The code table (42_code_assigner.md) -/

/-- R130 to R133: ASSIGN on a valid tree sets CODES_VALID and leaves the tree's code table: each leaf's path, the code "0" for
a single leaf, no code for an absent symbol; it changes nothing else. The premise TreeInv is an invariant
(`InvariantIsKeptByEveryStep`). -/
def Obligations.AssignLeavesTheCodesOfTheTree : Prop :=
  ∀ s : State, s.err = false → s.treeValid = true → TreeInv s →
    ∃ t, exec .assign s = .next t ∧ Answered s t ⟨.ok, 0#64⟩ ∧ t.codesValid = true ∧ CodesOfTree t ∧
      KeepsFreq s t ∧ KeepsTree s t ∧ KeepsEncoder s t ∧ KeepsDecoder s t ∧ KeepsErrors s t

/-- R130, R244: ASSIGN repeated on an unchanged tree rewrites the same table. -/
def Obligations.RepeatedAssignRewritesTheSameTable : Prop :=
  ∀ s : State, Inv s → s.err = false → s.codesValid = true →
    ∃ t, exec .assign s = .next t ∧ t.codesValid = true ∧ ∀ a : Symbol, codeAt t a.toNat = codeAt s a.toNat

/-- R134: no code of a current table is a prefix of another symbol's code. -/
def Obligations.CodesArePrefixFree : Prop :=
  ∀ (s : State) (a b : Symbol), Inv s → s.codesValid = true → a ≠ b →
    (codeAt s a.toNat).valid = true → (codeAt s b.toNat).valid = true → ¬ codeString s a <+: codeString s b

/-- R135, R136: every code of a current table is nonempty; with two or more leaves its length is at most n − 1, with one leaf it
is 1; some symbol has a code. -/
def Obligations.CodeLengthsAreBounded : Prop :=
  ∀ s : State, Inv s → s.codesValid = true →
    (∃ a : Symbol, (codeAt s a.toNat).valid = true) ∧
    ∀ a : Symbol, (codeAt s a.toNat).valid = true →
      1 ≤ (codeAt s a.toNat).len.toNat ∧
      (2 ≤ s.nsym.toNat → (codeAt s a.toNat).len.toNat ≤ s.nsym.toNat - 1) ∧
      (s.nsym.toNat = 1 → (codeAt s a.toNat).len.toNat = 1)

/-- R137: with two or more leaves, every bit sequence has exactly one code as a prefix, or ends inside a code; one of n − 1 bits or
more has a code as a prefix. With one leaf a sequence that begins with 1 matches no code. -/
def Obligations.EveryBitSequenceMatchesOneCodeOrEndsInsideOne : Prop :=
  ∀ (s : State) (bits : List Bool), Inv s → s.codesValid = true →
    (2 ≤ s.nsym.toNat →
      ((∃! a : Symbol, (codeAt s a.toNat).valid = true ∧ codeString s a <+: bits) ∨
        ((∀ a : Symbol, (codeAt s a.toNat).valid = true → ¬ codeString s a <+: bits) ∧
          ∃ a : Symbol, (codeAt s a.toNat).valid = true ∧ bits <+: codeString s a)) ∧
      (s.nsym.toNat - 1 ≤ bits.length → ∃ a : Symbol, (codeAt s a.toNat).valid = true ∧ codeString s a <+: bits)) ∧
    (s.nsym.toNat = 1 → ∀ a : Symbol, (codeAt s a.toNat).valid = true → ¬ codeString s a <+: true :: bits)

/-- R32: no command but ASSIGN and RESET changes a CODE entry, and none but ASSIGN, BUILD and RESET changes CODES_VALID. -/
def Obligations.OnlyAssignAndResetChangeTheCodeTable : Prop :=
  ∀ (i : Instr) (s : State), i ≠ .assign → i ≠ .reset →
    ∃ t, exec i s = .next t ∧ (∀ a, codeAt t a = codeAt s a) ∧ (i ≠ .build → t.codesValid = s.codesValid)

/-- R140, R66: RDCLEN answers length and validity, in every mode, and changes nothing. -/
def Obligations.RdclenAnswersLengthAndValidity : Prop :=
  ∀ (s : State) (sym : Symbol), s.codesValid = true →
    ∃ t d, exec (.rdclen sym) s = .next t ∧ Answered s t ⟨.ok, d⟩ ∧
      d.toNat = (codeAt s sym.toNat).len.toNat + 2 ^ 8 * (codeAt s sym.toNat).valid.toNat ∧
      KeepsAllButErrors s t ∧ KeepsErrors s t

/-- R141, R66: bit j of RDCODE's answer is code position 64·w + j, and bit 63 of word 3 is 0; in every mode, and nothing changes. -/
def Obligations.RdcodeAnswersSixtyFourCodePositions : Prop :=
  ∀ (s : State) (sym : Symbol) (w : BitVec 2), s.codesValid = true →
    ∃ t d, exec (.rdcode sym w) s = .next t ∧ Answered s t ⟨.ok, d⟩ ∧
      (∀ j, j < 64 → d.getLsbD j =
        if 64 * w.toNat + j ≤ 254 then (codeAt s sym.toNat).bits.getLsbD (64 * w.toNat + j) else false) ∧
      KeepsAllButErrors s t ∧ KeepsErrors s t

/-- R121, R156: after BUILD and ASSIGN on two or more present symbols, the total of count times code length is the sum of the
internal nodes' frequencies. -/
def Obligations.WeightedLengthIsTheSumOfTheMerges : Prop :=
  ∀ s : State, s.err = false → 2 ≤ (presentSymbols s).length →
    ∃ t, runCommands [.build, .assign] s = some t ∧ AllOk s t ∧
      ((presentSymbols s).map fun a => (freqAt s a).toNat * (codeAt t a).len.toNat).sum =
        ((List.range (t.nsym.toNat - 1)).map fun m => (nodeAt t (t.nsym.toNat + m)).freq.toNat).sum

/-- R121: the code is optimal: no prefix-free code of the present symbols has a smaller total of count times length. -/
def Obligations.CodesAreOptimal : Prop :=
  ∀ (s : State) (f : Nat → List Bool), s.err = false → 2 ≤ (presentSymbols s).length →
    (∀ a ∈ presentSymbols s, ∀ b ∈ presentSymbols s, a ≠ b → ¬ f a <+: f b) →
    ∃ t, runCommands [.build, .assign] s = some t ∧ AllOk s t ∧
      ((presentSymbols s).map fun a => (freqAt s a).toNat * (codeAt t a).len.toNat).sum ≤
        ((presentSymbols s).map fun a => (freqAt s a).toNat * (f a).length).sum

/-! ### The encoder (43_encoder.md) -/

/-- R150: ENCSTART with a current code table opens a session with an empty writer, whether or not one was open, and changes
nothing else: bits held are discarded and OUTB stays. -/
def Obligations.EncstartOpensAnEmptySession : Prop :=
  ∀ s : State, s.err = false → s.codesValid = true →
    ∃ t, exec .encstart s = .next t ∧ Answered s t ⟨.ok, 0#64⟩ ∧ t.encActive = true ∧
      t.acc = 0#8 ∧ t.nacc = 0#3 ∧ t.encbits = 0#64 ∧ t.outb = s.outb ∧
      KeepsFreq s t ∧ KeepsTree s t ∧ KeepsCodes s t ∧ KeepsDecoder s t ∧ KeepsErrors s t

/-- R151, R153: ENC writes its symbol's code after the bits held, most significant bit first, emits the bytes that fill, and
answers the code's length; it changes nothing else. The premise on ACC is an invariant (R25). -/
def Obligations.EncAppendsTheCode : Prop :=
  ∀ (s : State) (sym : Symbol), s.err = false → s.encActive = true → (codeAt s sym.toNat).valid = true →
    s.encbits.toNat + (codeAt s sym.toNat).len.toNat ≤ 2 ^ 64 - 1 → EncoderInv s →
    ∃ t bytes d, exec (.enc sym) s = .next t ∧ Answered s t ⟨.ok, d⟩ ∧ d.toNat = (codeAt s sym.toNat).len.toNat ∧
      t.outb = s.outb ++ bytes ∧ bytes.length = (s.nacc.toNat + (codeAt s sym.toNat).len.toNat) / 8 ∧
      bytes.flatMap byteBits ++ pendingBits t = pendingBits s ++ codeString s sym ∧
      t.encbits.toNat = s.encbits.toNat + (codeAt s sym.toNat).len.toNat ∧
      t.nacc.toNat = (s.nacc.toNat + (codeAt s sym.toNat).len.toNat) % 8 ∧ EncoderInv t ∧
      t.encActive = true ∧ KeepsFreq s t ∧ KeepsTree s t ∧ KeepsCodes s t ∧ KeepsDecoder s t ∧ KeepsErrors s t

/-- R153, R204: in a session, a symbol without a code raises UnknownSymbolError with the symbol; a code that would pass
ENCBITS's maximum raises OverflowError with 0x0100. -/
def Obligations.EncErrorsInTheirOrder : Prop :=
  ∀ (s : State) (sym : Symbol), s.err = false → s.encActive = true →
    ((codeAt s sym.toNat).valid = false →
      ∃ t, exec (.enc sym) s = .next t ∧ Failed s t .unknownSymbol (sym.setWidth 16)) ∧
    ((codeAt s sym.toNat).valid = true → 2 ^ 64 ≤ s.encbits.toNat + (codeAt s sym.toNat).len.toNat →
      ∃ t, exec (.enc sym) s = .next t ∧ Failed s t .overflow 0x0100#16)

/-- R154: ENCEND emits ACC if it holds any bit, empties the writer, closes the session and answers ENCBITS, which it keeps; it
changes nothing else. -/
def Obligations.EncendFlushesAndAnswersTheCount : Prop :=
  ∀ s : State, s.err = false → s.encActive = true →
    ∃ t, exec .encend s = .next t ∧ Answered s t ⟨.ok, s.encbits⟩ ∧ t.encActive = false ∧
      t.acc = 0#8 ∧ t.nacc = 0#3 ∧ t.encbits = s.encbits ∧
      (s.nacc = 0#3 → t.outb = s.outb) ∧ (s.nacc ≠ 0#3 → t.outb = s.outb ++ [s.acc]) ∧
      KeepsFreq s t ∧ KeepsTree s t ∧ KeepsCodes s t ∧ KeepsDecoder s t ∧ KeepsErrors s t

/-- R155: an encode session of symbols that have codes succeeds throughout, answers the total T of the code lengths, and appends
to OUTB the ceil(T / 8) bytes whose bits are the concatenated codes, padded with zeros. -/
def Obligations.EncodeSessionPacksTheConcatenatedCodes : Prop :=
  ∀ (s : State) (l : List Symbol), Inv s → s.err = false → s.codesValid = true →
    (∀ a ∈ l, (codeAt s a.toNat).valid = true) → (encodedBits s l).length < 2 ^ 64 →
    ∃ t bytes, runCommands (encodeSession l) s = some t ∧ AllOk s t ∧
      t.responses.getLast? = some ⟨.ok, BitVec.ofNat 64 (encodedBits s l).length⟩ ∧
      t.outb = s.outb ++ bytes ∧ bytes.length = ((encodedBits s l).length + 7) / 8 ∧
      bytes.flatMap byteBits =
        encodedBits s l ++ List.replicate (8 * bytes.length - (encodedBits s l).length) false

/-! ### The decoder (44_decoder.md) -/

/-- R170: DECSTART with a valid tree puts the walker on the root and opens a session, whether or not one was open, and changes
nothing else. -/
def Obligations.DecstartPutsTheWalkerOnTheRoot : Prop :=
  ∀ s : State, s.err = false → s.treeValid = true →
    ∃ t, exec .decstart s = .next t ∧ Answered s t ⟨.ok, 0#64⟩ ∧ t.decActive = true ∧ t.cur = s.root ∧ t.outs = s.outs ∧
      KeepsFreq s t ∧ KeepsTree s t ∧ KeepsCodes s t ∧ KeepsEncoder s t ∧ KeepsErrors s t

/-- R171, R172: with two or more leaves DEC cannot fail: it walks its nb + 1 bits, bit 7 of the byte first, appends the symbols
of the leaves reached and answers their number, at most 8; it changes nothing else. -/
def Obligations.DecWalksTheTree : Prop :=
  ∀ (s : State) (byte : Byte) (nb : BitVec 3), s.err = false → s.decActive = true →
    (nodeAt s s.root.toNat).leaf = false →
    ∃ t syms d, exec (.dec byte nb) s = .next t ∧ Answered s t ⟨.ok, d⟩ ∧ d.toNat = syms.length ∧ syms.length ≤ nb.toNat + 1 ∧
      DecodesTo s s.cur ((List.range (nb.toNat + 1)).map fun i => byte.getLsbD (7 - i)) syms t.cur ∧
      t.outs = s.outs ++ syms ∧ t.decActive = true ∧
      KeepsFreq s t ∧ KeepsTree s t ∧ KeepsCodes s t ∧ KeepsEncoder s t ∧ KeepsErrors s t

/-- R171, R172: with a single leaf each 0 bit emits the symbol and CUR stays; the first 1 bit raises InvalidCodeError with its
position, and the command then has no effect. -/
def Obligations.DecOfASingleLeaf : Prop :=
  ∀ (s : State) (byte : Byte) (nb : BitVec 3), s.err = false → s.decActive = true →
    (nodeAt s s.root.toNat).leaf = true →
    ((∀ i, i ≤ nb.toNat → byte.getLsbD (7 - i) = false) →
      ∃ t d, exec (.dec byte nb) s = .next t ∧ Answered s t ⟨.ok, d⟩ ∧ d.toNat = nb.toNat + 1 ∧
        t.outs = s.outs ++ List.replicate (nb.toNat + 1) (nodeAt s s.root.toNat).sym ∧ t.cur = s.cur ∧ t.decActive = true ∧
        KeepsFreq s t ∧ KeepsTree s t ∧ KeepsCodes s t ∧ KeepsEncoder s t ∧ KeepsErrors s t) ∧
    (∀ i, i ≤ nb.toNat → byte.getLsbD (7 - i) = true → (∀ j, j < i → byte.getLsbD (7 - j) = false) →
      ∃ t, exec (.dec byte nb) s = .next t ∧ Failed s t .invalidCode (BitVec.ofNat 16 i))

/-- R173: DECEND on the root closes the session and changes nothing else; off the root it raises InvalidCodeError with
0x8000 OR CUR, and the session stays. -/
def Obligations.DecendNeedsTheWalkerOnTheRoot : Prop :=
  ∀ s : State, s.err = false → s.decActive = true →
    (s.cur = s.root →
      ∃ t, exec .decend s = .next t ∧ Answered s t ⟨.ok, 0#64⟩ ∧ t.decActive = false ∧ t.cur = s.cur ∧ t.outs = s.outs ∧
        KeepsFreq s t ∧ KeepsTree s t ∧ KeepsCodes s t ∧ KeepsEncoder s t ∧ KeepsErrors s t) ∧
    (s.cur ≠ s.root →
      ∃ t arg, exec .decend s = .next t ∧ arg.toNat = 0x8000 + s.cur.toNat ∧ Failed s t .invalidCode arg)

/-- R176: walking the bits of a symbol's code from the root, in a tree of two or more leaves, emits that symbol, exactly at the
last bit, and returns to the root: the tree walk is the lookup in the code table. -/
def Obligations.WalkingACodeEmitsItsSymbol : Prop :=
  ∀ (s : State) (a : Symbol), Inv s → s.codesValid = true → 2 ≤ s.nsym.toNat → (codeAt s a.toNat).valid = true →
    DecodesTo s s.root (codeString s a) [a] s.root ∧
    ∀ pre, pre <+: codeString s a → pre ≠ codeString s a → ∃ c, DecodesTo s s.root pre [] c

/-- R175: the round trip. From any state of the invariant with a current code table, an encode session of symbols that have codes,
followed by the decode session of the bytes and the bit count it gave, is OK throughout and appends exactly those symbols; so is
any other split of the same bits into DEC commands. -/
def Obligations.DecodingAnEncodedSequenceGivesItBack : Prop :=
  ∀ (s : State) (l : List Symbol), Inv s → s.err = false → s.codesValid = true →
    (∀ a ∈ l, (codeAt s a.toNat).valid = true) → (encodedBits s l).length < 2 ^ 64 →
    ∃ t bytes, runCommands (encodeSession l) s = some t ∧ t.outb = s.outb ++ bytes ∧
      (∃ u, runCommands (decodeSession bytes t.encbits.toNat) t = some u ∧ AllOk s u ∧ u.outs = s.outs ++ l) ∧
      ∀ decs : List (Byte × BitVec 3),
        decs.flatMap (fun d => decBits d.1 d.2) = (bytes.flatMap byteBits).take t.encbits.toNat →
        ∃ u, runCommands (.decstart :: decs.map (fun d => .dec d.1 d.2) ++ [.decend]) t = some u ∧ AllOk s u ∧
          u.outs = s.outs ++ l

/-- R175, the whole-pipeline form: from any state, RESET, counting a nonempty byte string, BUILD, ASSIGN, the encode session and
the decode session of its payload are OK throughout and reproduce the string. -/
def Obligations.WholePipelineReproducesItsInput : Prop :=
  ∀ (s : State) (l : List Symbol), l ≠ [] → l.length < 2 ^ 32 →
    ∃ t bytes u, runCommands (.reset :: l.map .cnt ++ [.build, .assign] ++ encodeSession l) s = some t ∧
      t.outb = s.outb ++ bytes ∧ runCommands (decodeSession bytes t.encbits.toNat) t = some u ∧
      AllOk s u ∧ u.outs = s.outs ++ l

/-! ### The invariants (10_state.md R35) -/

/-- The invariant of R35 holds at reset; its last part, the canonical form of the lists that hold the memories, is the model's own
and no part of R35 (DEDUCED, log 5). -/
def Obligations.InvariantHoldsAtReset : Prop := Inv State.reset

/-- R35: every step keeps the invariant: the flags' order, the tree's well-formedness, the code table's agreement with the tree,
the facts about ACC and NACC, about CUR and about the error registers. So it keeps the canonical form of the lists that hold the
memories, which is the model's own and no part of R35 (DEDUCED, log 5). -/
def Obligations.InvariantIsKeptByEveryStep : Prop :=
  ∀ s t : State, Inv s → step s = .next t → Inv t

/-- R233: the unspecified entries of NODE and CODE cannot be observed: two states of the invariant that differ only in them step
to two such states, with the same responses and outputs. -/
def Obligations.UnspecifiedEntriesAreUnobservable : Prop :=
  ∀ s t : State, Inv s → Inv t → SameObservable s t →
    ∃ s' t', step s = .next s' ∧ step t = .next t' ∧ SameObservable s' t'

/-! ### The FAULT output (60_exceptions.md R211) -/

/-- R211: the FAULT output equals ERR at all times; after a command word it is 1 exactly when the word was answered with an error
or it was 1 before and the word is neither CLRERR nor RESET; hardware reset clears it (words and hardware reset come by the
model's port, log 1). -/
def Obligations.FaultOutputRisesOnErrorsAndFallsOnAcknowledgement : Prop :=
  (∀ s : State, s.faultOutput = s.err) ∧
  (∀ (s : State) (w : Word), ∃ t r, step (s.withCommand w) = .next t ∧ t.responses = s.responses ++ [r] ∧
    (t.faultOutput = true ↔ (∃ e, r.status = .error e) ∨
      (s.faultOutput = true ∧ decode w ≠ .ok .clrerr ∧ decode w ≠ .ok .reset))) ∧
  (∀ (s : State) (rest : List HostAction), s.host = .hardwareReset :: rest →
    ∃ t, step s = .next t ∧ t.faultOutput = false)
end

