-- ==== Sys2Proof/Laws/Operands.lean ====
section
/-! SUPPORT. What the operand forms of Operands.lean read: the words of 20_memory.md R66 and 10_state.md R28 as numbers, and the
bit strings of codes and of DEC's byte. -/

namespace Sys2Proof.Machine

variable (s : State)

/-! ### Words as numbers -/

theorem toNat_append_eq {m n : Nat} (x : BitVec m) (y : BitVec n) : (x ++ y).toNat = x.toNat * 2 ^ n + y.toNat := by
  rw [BitVec.toNat_append, ← Nat.shiftLeft_add_eq_or_of_lt y.isLt, Nat.shiftLeft_eq]

theorem toNat_ofBool_eq (b : Bool) : (BitVec.ofBool b).toNat = b.toNat := by cases b <;> rfl

theorem readFreq_toNat (a : Symbol) : (readFreq s a).toNat = (freqAt s a.toNat).toNat := by
  have := (freqAt s a.toNat).isLt
  rw [readFreq, BitVec.toNat_setWidth, Nat.mod_eq_of_lt (by omega)]

theorem treeInfo_toNat (nsym : BitVec 9) (root : NodeIdx) : (treeInfo nsym root).toNat = nsym.toNat + 2 ^ 16 * root.toNat := by
  simp only [treeInfo, toNat_append_eq, BitVec.toNat_ofNat]
  omega

theorem nodeWord_toNat (d : Node) : (nodeWord d).toNat =
    d.freq.toNat + 2 ^ 40 * (if d.leaf then d.sym.toNat else d.left.toNat) + 2 ^ 49 * d.right.toNat + 2 ^ 58 * d.leaf.toNat := by
  have hs : (symOrLeft d).toNat = if d.leaf then d.sym.toNat else d.left.toNat := by
    have := d.sym.isLt
    unfold symOrLeft
    split
    · rw [BitVec.toNat_setWidth, Nat.mod_eq_of_lt (by omega)]
    · rfl
  simp only [nodeWord, toNat_append_eq, BitVec.toNat_ofNat, toNat_ofBool_eq, hs]
  omega

theorem readCodeLen_toNat (a : Symbol) : (readCodeLen s a).toNat =
    (codeAt s a.toNat).len.toNat + 2 ^ 8 * (codeAt s a.toNat).valid.toNat := by
  simp only [readCodeLen, toNat_append_eq, BitVec.toNat_ofNat, toNat_ofBool_eq]
  omega

theorem readCodeBits_getLsbD (a : Symbol) (w : BitVec 2) (j : Nat) : (readCodeBits s a w).getLsbD j =
    (decide (j < 64) && (codeAt s a.toNat).bits.getLsbD (64 * w.toNat + j)) := by
  rw [readCodeBits, BitVec.getLsbD_extractLsb']

theorem readCsr_status_toNat : (readCsr s 0#3).toNat =
    s.treeValid.toNat + 2 * s.codesValid.toNat + 4 * s.encActive.toNat + 8 * s.decActive.toNat + 16 * s.err.toNat := by
  show (0#59 ++ BitVec.ofBool s.err ++ BitVec.ofBool s.decActive ++ BitVec.ofBool s.encActive
      ++ BitVec.ofBool s.codesValid ++ BitVec.ofBool s.treeValid).toNat = _
  simp only [toNat_append_eq, BitVec.toNat_ofNat, toNat_ofBool_eq]
  omega

theorem readCsr_errinfo_toNat : (readCsr s 2#3).toNat = s.errcode.toNat + 2 ^ 16 * s.errarg.toNat := by
  show (0#32 ++ s.errarg ++ 0#12 ++ s.errcode).toNat = _
  simp only [toNat_append_eq, BitVec.toNat_ofNat]
  omega

theorem readCsr_encacc_toNat : (readCsr s 6#3).toNat = s.acc.toNat + 2 ^ 8 * s.nacc.toNat := by
  show (0#53 ++ s.nacc ++ s.acc).toNat = _
  simp only [toNat_append_eq, BitVec.toNat_ofNat]
  omega

/-! ### Bit strings -/

@[simp] theorem codeBits_length (c : CodeEntry) : (codeBits c).length = c.len.toNat := by simp [codeBits]

@[simp] theorem decBits_length (byte : Byte) (nb : BitVec 3) : (decBits byte nb).length = nb.toNat + 1 := by simp [decBits]

/-- Position i of a stored code is its character i (00_scope.md R8). -/
theorem storeBits_getLsbD (c : List Bool) (h : c.length ≤ 255) (i : Nat) : (storeBits c).getLsbD i = c.getD i false := by
  induction c generalizing i with
  | nil => simp [storeBits]
  | cons b rest ih =>
    simp only [List.length_cons] at h
    rw [storeBits, BitVec.getLsbD_or, BitVec.getLsbD_shiftLeft, BitVec.getLsbD_setWidth]
    cases i with
    | zero => simp
    | succ i =>
      have hb : (BitVec.ofBool b).getLsbD (i + 1) = false := BitVec.getLsbD_of_ge _ _ (by omega)
      rw [hb, ih (by omega)]
      by_cases hi : i + 1 < 255
      · simp [hi]
      · simp [hi, List.getElem?_eq_none (l := rest) (i := i) (by omega)]

/-- The stored entry of a code string gives the string back. -/
theorem codeBits_of_storeBits (c : List Bool) (h : c.length ≤ 255) : codeBits ⟨true, BitVec.ofNat 8 c.length, storeBits c⟩ = c := by
  apply List.ext_getElem
  · simp [codeBits]; omega
  · intro i h1 h2
    simp only [codeBits, List.getElem_map, List.getElem_range]
    rw [storeBits_getLsbD c h]
    simp [List.getD_eq_getElem?_getD, h2]

end Sys2Proof.Machine
end

