-- ==== Sys2Proof/Laws/Memory.lean ====
section
/-! SUPPORT. Laws of the memories: read after write, canonical form kept by every operation, equal reads mean equal data. -/

namespace Sys2Proof.Machine

variable {α : Type}

/-- `Memory.wf` said of the list: every index is in range, and the indices rise. -/
theorem Memory.wf_iff (size : Nat) (m : Memory α) :
    Memory.wf size m = true ↔ (∀ e ∈ m, e.1 < size) ∧ m.Pairwise (fun e f => e.1 < f.1) := by
  induction m with
  | nil => simp [Memory.wf]
  | cons e rest ih =>
    obtain ⟨a, v⟩ := e
    cases rest with
    | nil => simp [Memory.wf]
    | cons f rest' =>
      obtain ⟨b, w⟩ := f
      rw [Memory.wf, Bool.and_eq_true, Bool.and_eq_true, ih, List.pairwise_cons (a := (a, v))]
      simp only [decide_eq_true_eq]
      constructor
      · rintro ⟨⟨ha, hab⟩, hs, hp⟩
        refine ⟨?_, ?_, hp⟩
        · intro e he
          rcases List.mem_cons.1 he with rfl | he
          · exact ha
          · exact hs e he
        · intro e he
          rcases List.mem_cons.1 he with rfl | he
          · exact hab
          · exact lt_trans hab ((List.pairwise_cons.1 hp).1 e he)
      · rintro ⟨hs, h1, hp⟩
        exact ⟨⟨hs _ (List.mem_cons_self), h1 _ (List.mem_cons_self)⟩,
          fun e he => hs e (List.mem_cons_of_mem _ he), hp⟩

@[simp] theorem Memory.read_write_same (m : Memory α) (a : Nat) (v : α) : (m.write a v).read a = some v := by
  induction m with
  | nil => simp [Memory.write, Memory.read]
  | cons e rest ih =>
    obtain ⟨b, x⟩ := e
    simp only [Memory.write]
    split
    · simp [Memory.read]
    · split
      · simp [Memory.read]
      · rename_i h1 h2
        simp [Memory.read, h2, ih]

theorem Memory.read_write_of_ne (m : Memory α) {a b : Nat} (v : α) (h : b ≠ a) :
    (m.write a v).read b = m.read b := by
  induction m with
  | nil => simp [Memory.write, Memory.read, h]
  | cons e rest ih =>
    obtain ⟨c, x⟩ := e
    simp only [Memory.write]
    split
    · simp [Memory.read, h]
    · split
      · rename_i h1 h2
        subst h2
        simp [Memory.read, h]
      · simp [Memory.read, ih]

theorem Memory.read_write (m : Memory α) (a b : Nat) (v : α) :
    (m.write a v).read b = if b = a then some v else m.read b := by
  split
  · rename_i h; rw [h, Memory.read_write_same]
  · rename_i h; exact Memory.read_write_of_ne m v h

theorem Memory.read_erase_of_ne (m : Memory α) {a b : Nat} (h : b ≠ a) : (m.erase a).read b = m.read b := by
  induction m with
  | nil => rfl
  | cons e rest ih =>
    obtain ⟨c, x⟩ := e
    simp only [Memory.erase]
    split
    · rename_i h2; subst h2; simp [Memory.read, h]
    · simp [Memory.read, ih]

/-- An index below every listed one is not listed. -/
theorem Memory.read_eq_none_of_lt {m : Memory α} {a : Nat} (h : ∀ e ∈ m, a < e.1) : m.read a = none := by
  induction m with
  | nil => rfl
  | cons e rest ih =>
    obtain ⟨c, x⟩ := e
    have := h (c, x) List.mem_cons_self
    simp only [Memory.read]
    rw [if_neg (by simp at this; omega)]
    exact ih fun e he => h e (List.mem_cons_of_mem _ he)

theorem Memory.read_erase_same {size : Nat} {m : Memory α} (h : Memory.wf size m = true) (a : Nat) :
    (m.erase a).read a = none := by
  rw [Memory.wf_iff] at h
  obtain ⟨-, hp⟩ := h
  induction m with
  | nil => rfl
  | cons e rest ih =>
    obtain ⟨c, x⟩ := e
    rw [List.pairwise_cons] at hp
    simp only [Memory.erase]
    split
    · rename_i h2; subst h2; exact Memory.read_eq_none_of_lt hp.1
    · rename_i h2; simp [Memory.read, h2, ih hp.2]

/-- Every entry a write lists is the written one or was listed. -/
theorem Memory.mem_write {m : Memory α} {a : Nat} {v : α} {e : Nat × α} (h : e ∈ m.write a v) : e = (a, v) ∨ e ∈ m := by
  induction m with
  | nil => exact .inl (by simpa [Memory.write] using h)
  | cons f rest ih =>
    obtain ⟨c, x⟩ := f
    simp only [Memory.write] at h
    split at h
    · rcases List.mem_cons.1 h with h | h
      · exact .inl h
      · exact .inr h
    · split at h
      · rcases List.mem_cons.1 h with h | h
        · exact .inl h
        · exact .inr (List.mem_cons_of_mem _ h)
      · rcases List.mem_cons.1 h with h | h
        · exact .inr (h ▸ List.mem_cons_self)
        · rcases ih h with h | h
          · exact .inl h
          · exact .inr (List.mem_cons_of_mem _ h)

theorem Memory.mem_of_mem_erase {m : Memory α} {a : Nat} {e : Nat × α} (h : e ∈ m.erase a) : e ∈ m := by
  induction m with
  | nil => exact h
  | cons f rest ih =>
    obtain ⟨c, x⟩ := f
    simp only [Memory.erase] at h
    split at h
    · exact List.mem_cons_of_mem _ h
    · rcases List.mem_cons.1 h with h | h
      · exact h ▸ List.mem_cons_self
      · exact List.mem_cons_of_mem _ (ih h)

/-- A write in range keeps the canonical form. -/
theorem Memory.wf_write {size : Nat} {m : Memory α} (h : Memory.wf size m = true) {a : Nat} (ha : a < size) (v : α) :
    Memory.wf size (m.write a v) = true := by
  rw [Memory.wf_iff] at h ⊢
  refine ⟨fun e he => ?_, ?_⟩
  · rcases Memory.mem_write he with rfl | he
    · exact ha
    · exact h.1 e he
  · obtain ⟨-, hp⟩ := h
    induction m with
    | nil => simp [Memory.write]
    | cons f rest ih =>
      obtain ⟨c, x⟩ := f
      have hp' := List.pairwise_cons.1 hp
      simp only [Memory.write]
      split
      · rename_i hac
        refine List.pairwise_cons.2 ⟨fun e he => ?_, hp⟩
        rcases List.mem_cons.1 he with rfl | he
        · exact hac
        · exact lt_trans hac (hp'.1 e he)
      · split
        · rename_i h1 h2; subst h2; exact List.pairwise_cons.2 ⟨hp'.1, hp'.2⟩
        · rename_i h1 h2
          refine List.pairwise_cons.2 ⟨fun e he => ?_, ih hp'.2⟩
          rcases Memory.mem_write he with rfl | he
          · show c < a; omega
          · exact hp'.1 e he

/-- Erasing keeps the canonical form. -/
theorem Memory.wf_erase {size : Nat} {m : Memory α} (h : Memory.wf size m = true) (a : Nat) :
    Memory.wf size (m.erase a) = true := by
  rw [Memory.wf_iff] at h ⊢
  refine ⟨fun e he => h.1 e (Memory.mem_of_mem_erase he), ?_⟩
  obtain ⟨-, hp⟩ := h
  induction m with
  | nil => simp [Memory.erase]
  | cons f rest ih =>
    obtain ⟨c, x⟩ := f
    have hp' := List.pairwise_cons.1 hp
    simp only [Memory.erase]
    split
    · exact hp'.2
    · exact List.pairwise_cons.2 ⟨fun e he => hp'.1 e (Memory.mem_of_mem_erase he), ih hp'.2⟩

/-- Writing consecutive entries in range keeps the canonical form. -/
theorem Memory.wf_writeFrom {size : Nat} (l : List α) {m : Memory α} (h : Memory.wf size m = true) {a : Nat}
    (ha : a + l.length ≤ size) : Memory.wf size (m.writeFrom a l) = true := by
  induction l generalizing m a with
  | nil => exact h
  | cons v rest ih =>
    simp only [List.length_cons] at ha
    exact ih (Memory.wf_write h (by omega) v) (by omega)

/-- What a read finds after consecutive writes. -/
theorem Memory.read_writeFrom (l : List α) (m : Memory α) (a b : Nat) :
    (m.writeFrom a l).read b = if h : a ≤ b ∧ b - a < l.length then some (l[b - a]'h.2) else m.read b := by
  induction l generalizing m a with
  | nil => simp [Memory.writeFrom]
  | cons v rest ih =>
    rw [Memory.writeFrom, ih, Memory.read_write]
    by_cases h1 : a + 1 ≤ b ∧ b - (a + 1) < rest.length
    · rw [dif_pos h1, dif_pos (by simp only [List.length_cons]; omega)]
      congr 1
      have : b - a = (b - (a + 1)) + 1 := by omega
      simp only [this, List.getElem_cons_succ]
    · rw [dif_neg h1]
      by_cases h2 : b = a
      · subst h2; simp
      · rw [if_neg h2, dif_neg (by simp only [List.length_cons]; omega)]

/-- Equal reads mean equal data. -/
theorem Memory.ext_of_wf {size : Nat} {m n : Memory α} (hm : Memory.wf size m = true) (hn : Memory.wf size n = true)
    (h : ∀ a, m.read a = n.read a) : m = n := by
  rw [Memory.wf_iff] at hm hn
  obtain ⟨-, hm⟩ := hm
  obtain ⟨-, hn⟩ := hn
  induction m generalizing n with
  | nil =>
    cases n with
    | nil => rfl
    | cons f _ => have := h f.1; simp [Memory.read] at this
  | cons e rest ih =>
    obtain ⟨a, x⟩ := e
    cases n with
    | nil => have := h a; simp [Memory.read] at this
    | cons f rest' =>
      obtain ⟨b, y⟩ := f
      have hm' := List.pairwise_cons.1 hm
      have hn' := List.pairwise_cons.1 hn
      have key : a = b := by
        rcases Nat.lt_trichotomy a b with hab | hab | hab
        · have h0 := h a
          rw [Memory.read_eq_none_of_lt (m := (b, y) :: rest')] at h0
          · simp [Memory.read] at h0
          · intro e he
            rcases List.mem_cons.1 he with rfl | he
            · exact hab
            · exact lt_trans hab (hn'.1 e he)
        · exact hab
        · have h0 := h b
          rw [Memory.read_eq_none_of_lt (m := (a, x) :: rest)] at h0
          · simp [Memory.read] at h0
          · intro e he
            rcases List.mem_cons.1 he with rfl | he
            · exact hab
            · exact lt_trans hab (hm'.1 e he)
      subst key
      have hx : x = y := by simpa [Memory.read] using h a
      subst hx
      suffices hr : ∀ c, Memory.read rest c = Memory.read rest' c by rw [ih hr hm'.2 hn'.2]
      intro c
      by_cases hc : c = a
      · subst hc
        rw [Memory.read_eq_none_of_lt hm'.1, Memory.read_eq_none_of_lt hn'.1]
      · have := h c
        simpa [Memory.read, hc] using this

/-- A listed entry is in range. -/
theorem Memory.lt_of_read_some {size : Nat} {m : Memory α} (h : Memory.wf size m = true) {a : Nat} {v : α}
    (hr : m.read a = some v) : a < size := by
  rw [Memory.wf_iff] at h
  have : (a, v) ∈ m := by
    obtain ⟨-, -⟩ := h
    induction m with
    | nil => simp [Memory.read] at hr
    | cons e rest ih =>
      obtain ⟨b, x⟩ := e
      simp only [Memory.read] at hr
      split at hr
      · rename_i hab; subst hab; simp at hr; simp [hr]
      · exact List.mem_cons_of_mem _ (ih hr)
  exact h.1 _ this

/-! ### FREQ -/

theorem read_freqSet_of_ne (m : Memory Count) {a b : Nat} (v : Count) (h : b ≠ a) :
    (freqSet m a v).read b = m.read b := by
  unfold freqSet
  split
  · exact Memory.read_erase_of_ne m h
  · exact Memory.read_write_of_ne m v h

/-- A write of FREQ keeps its canonical form: no entry is 0. -/
theorem freqWf_freqSet {m : Memory Count} (h : freqWf m = true) {a : Nat} (ha : a < 256) (v : Count) :
    freqWf (freqSet m a v) = true := by
  simp only [freqWf, Bool.and_eq_true, List.all_eq_true] at h ⊢
  unfold freqSet
  split
  · exact ⟨Memory.wf_erase h.1 a, fun e he => h.2 e (Memory.mem_of_mem_erase he)⟩
  · rename_i hv
    refine ⟨Memory.wf_write h.1 ha v, fun e he => ?_⟩
    rcases Memory.mem_write he with rfl | he
    · simpa using hv
    · exact h.2 e he

/-- Reading FREQ where it was written, in canonical form. -/
theorem freqAt_writeFreq_same {s : State} (h : freqWf s.freq = true) (a : Nat) (v : Count) :
    freqAt (s.writeFreq a v) a = v := by
  simp only [freqWf, Bool.and_eq_true] at h
  simp only [freqAt, State.writeFreq, freqSet]
  split
  · rename_i hv; rw [Memory.read_erase_same h.1, hv]; rfl
  · simp

/-- A nonzero write needs no canonical form. -/
theorem freqAt_writeFreq_nonzero (s : State) (a : Nat) {v : Count} (hv : v ≠ 0#32) :
    freqAt (s.writeFreq a v) a = v := by
  simp [freqAt, State.writeFreq, freqSet, hv]

theorem freqAt_writeFreq_of_ne (s : State) {a b : Nat} (v : Count) (h : b ≠ a) :
    freqAt (s.writeFreq a v) b = freqAt s b := by
  simp only [freqAt, State.writeFreq, read_freqSet_of_ne _ _ h]

/-- In canonical form a symbol out of range reads 0. -/
theorem freqAt_eq_zero_of_le {s : State} (h : freqWf s.freq = true) {a : Nat} (ha : 256 ≤ a) : freqAt s a = 0#32 := by
  simp only [freqWf, Bool.and_eq_true] at h
  unfold freqAt
  cases hr : Memory.read s.freq a with
  | none => rfl
  | some v => exact absurd (Memory.lt_of_read_some h.1 hr) (by simp [Config.nSymMax]; omega)

end Sys2Proof.Machine
end

