-- ==== Sys2Proof/Laws/State.lean ====
section
/-! SUPPORT. One lemma per field per update of State, true by rfl, so that no later proof unfolds a record update; and the reads of
the three memories through each update. The updates are those of Ops.lean, Flags.lean and the family files. -/

namespace Sys2Proof.Machine

/-! ### State.accept -/

@[simp] theorem State.accept_cmdcnt (s : State) : (s.accept).cmdcnt = s.cmdcnt + 1#32 := rfl
@[simp] theorem State.accept_treeValid (s : State) : (s.accept).treeValid = s.treeValid := rfl
@[simp] theorem State.accept_codesValid (s : State) : (s.accept).codesValid = s.codesValid := rfl
@[simp] theorem State.accept_encActive (s : State) : (s.accept).encActive = s.encActive := rfl
@[simp] theorem State.accept_decActive (s : State) : (s.accept).decActive = s.decActive := rfl
@[simp] theorem State.accept_err (s : State) : (s.accept).err = s.err := rfl
@[simp] theorem State.accept_nsym (s : State) : (s.accept).nsym = s.nsym := rfl
@[simp] theorem State.accept_root (s : State) : (s.accept).root = s.root := rfl
@[simp] theorem State.accept_cur (s : State) : (s.accept).cur = s.cur := rfl
@[simp] theorem State.accept_acc (s : State) : (s.accept).acc = s.acc := rfl
@[simp] theorem State.accept_nacc (s : State) : (s.accept).nacc = s.nacc := rfl
@[simp] theorem State.accept_encbits (s : State) : (s.accept).encbits = s.encbits := rfl
@[simp] theorem State.accept_errcode (s : State) : (s.accept).errcode = s.errcode := rfl
@[simp] theorem State.accept_errarg (s : State) : (s.accept).errarg = s.errarg := rfl
@[simp] theorem State.accept_errcmd (s : State) : (s.accept).errcmd = s.errcmd := rfl
@[simp] theorem State.accept_freq (s : State) : (s.accept).freq = s.freq := rfl
@[simp] theorem State.accept_node (s : State) : (s.accept).node = s.node := rfl
@[simp] theorem State.accept_code (s : State) : (s.accept).code = s.code := rfl
@[simp] theorem State.accept_host (s : State) : (s.accept).host = s.host := rfl
@[simp] theorem State.accept_responses (s : State) : (s.accept).responses = s.responses := rfl
@[simp] theorem State.accept_outb (s : State) : (s.accept).outb = s.outb := rfl
@[simp] theorem State.accept_outs (s : State) : (s.accept).outs = s.outs := rfl
@[simp] theorem State.accept_epoch (s : State) : (s.accept).epoch = s.epoch := rfl
@[simp] theorem freqAt_accept (s : State) (i : Nat) : freqAt (s.accept) i = freqAt s i := rfl
@[simp] theorem nodeAt_accept (s : State) (i : Nat) : nodeAt (s.accept) i = nodeAt s i := rfl
@[simp] theorem codeAt_accept (s : State) (i : Nat) : codeAt (s.accept) i = codeAt s i := rfl
@[simp] theorem nnode_accept (s : State) : nnode (s.accept) = nnode s := rfl

/-! ### State.respond -/

@[simp] theorem State.respond_cmdcnt (s : State) (r : Response) : (s.respond r).cmdcnt = s.cmdcnt := rfl
@[simp] theorem State.respond_treeValid (s : State) (r : Response) : (s.respond r).treeValid = s.treeValid := rfl
@[simp] theorem State.respond_codesValid (s : State) (r : Response) : (s.respond r).codesValid = s.codesValid := rfl
@[simp] theorem State.respond_encActive (s : State) (r : Response) : (s.respond r).encActive = s.encActive := rfl
@[simp] theorem State.respond_decActive (s : State) (r : Response) : (s.respond r).decActive = s.decActive := rfl
@[simp] theorem State.respond_err (s : State) (r : Response) : (s.respond r).err = s.err := rfl
@[simp] theorem State.respond_nsym (s : State) (r : Response) : (s.respond r).nsym = s.nsym := rfl
@[simp] theorem State.respond_root (s : State) (r : Response) : (s.respond r).root = s.root := rfl
@[simp] theorem State.respond_cur (s : State) (r : Response) : (s.respond r).cur = s.cur := rfl
@[simp] theorem State.respond_acc (s : State) (r : Response) : (s.respond r).acc = s.acc := rfl
@[simp] theorem State.respond_nacc (s : State) (r : Response) : (s.respond r).nacc = s.nacc := rfl
@[simp] theorem State.respond_encbits (s : State) (r : Response) : (s.respond r).encbits = s.encbits := rfl
@[simp] theorem State.respond_errcode (s : State) (r : Response) : (s.respond r).errcode = s.errcode := rfl
@[simp] theorem State.respond_errarg (s : State) (r : Response) : (s.respond r).errarg = s.errarg := rfl
@[simp] theorem State.respond_errcmd (s : State) (r : Response) : (s.respond r).errcmd = s.errcmd := rfl
@[simp] theorem State.respond_freq (s : State) (r : Response) : (s.respond r).freq = s.freq := rfl
@[simp] theorem State.respond_node (s : State) (r : Response) : (s.respond r).node = s.node := rfl
@[simp] theorem State.respond_code (s : State) (r : Response) : (s.respond r).code = s.code := rfl
@[simp] theorem State.respond_host (s : State) (r : Response) : (s.respond r).host = s.host := rfl
@[simp] theorem State.respond_responses (s : State) (r : Response) : (s.respond r).responses = s.responses ++ [r] := rfl
@[simp] theorem State.respond_outb (s : State) (r : Response) : (s.respond r).outb = s.outb := rfl
@[simp] theorem State.respond_outs (s : State) (r : Response) : (s.respond r).outs = s.outs := rfl
@[simp] theorem State.respond_epoch (s : State) (r : Response) : (s.respond r).epoch = s.epoch := rfl
@[simp] theorem freqAt_respond (s : State) (r : Response) (i : Nat) : freqAt (s.respond r) i = freqAt s i := rfl
@[simp] theorem nodeAt_respond (s : State) (r : Response) (i : Nat) : nodeAt (s.respond r) i = nodeAt s i := rfl
@[simp] theorem codeAt_respond (s : State) (r : Response) (i : Nat) : codeAt (s.respond r) i = codeAt s i := rfl
@[simp] theorem nnode_respond (s : State) (r : Response) : nnode (s.respond r) = nnode s := rfl

/-! ### State.emitByte -/

@[simp] theorem State.emitByte_cmdcnt (s : State) (b : Byte) : (s.emitByte b).cmdcnt = s.cmdcnt := rfl
@[simp] theorem State.emitByte_treeValid (s : State) (b : Byte) : (s.emitByte b).treeValid = s.treeValid := rfl
@[simp] theorem State.emitByte_codesValid (s : State) (b : Byte) : (s.emitByte b).codesValid = s.codesValid := rfl
@[simp] theorem State.emitByte_encActive (s : State) (b : Byte) : (s.emitByte b).encActive = s.encActive := rfl
@[simp] theorem State.emitByte_decActive (s : State) (b : Byte) : (s.emitByte b).decActive = s.decActive := rfl
@[simp] theorem State.emitByte_err (s : State) (b : Byte) : (s.emitByte b).err = s.err := rfl
@[simp] theorem State.emitByte_nsym (s : State) (b : Byte) : (s.emitByte b).nsym = s.nsym := rfl
@[simp] theorem State.emitByte_root (s : State) (b : Byte) : (s.emitByte b).root = s.root := rfl
@[simp] theorem State.emitByte_cur (s : State) (b : Byte) : (s.emitByte b).cur = s.cur := rfl
@[simp] theorem State.emitByte_acc (s : State) (b : Byte) : (s.emitByte b).acc = s.acc := rfl
@[simp] theorem State.emitByte_nacc (s : State) (b : Byte) : (s.emitByte b).nacc = s.nacc := rfl
@[simp] theorem State.emitByte_encbits (s : State) (b : Byte) : (s.emitByte b).encbits = s.encbits := rfl
@[simp] theorem State.emitByte_errcode (s : State) (b : Byte) : (s.emitByte b).errcode = s.errcode := rfl
@[simp] theorem State.emitByte_errarg (s : State) (b : Byte) : (s.emitByte b).errarg = s.errarg := rfl
@[simp] theorem State.emitByte_errcmd (s : State) (b : Byte) : (s.emitByte b).errcmd = s.errcmd := rfl
@[simp] theorem State.emitByte_freq (s : State) (b : Byte) : (s.emitByte b).freq = s.freq := rfl
@[simp] theorem State.emitByte_node (s : State) (b : Byte) : (s.emitByte b).node = s.node := rfl
@[simp] theorem State.emitByte_code (s : State) (b : Byte) : (s.emitByte b).code = s.code := rfl
@[simp] theorem State.emitByte_host (s : State) (b : Byte) : (s.emitByte b).host = s.host := rfl
@[simp] theorem State.emitByte_responses (s : State) (b : Byte) : (s.emitByte b).responses = s.responses := rfl
@[simp] theorem State.emitByte_outb (s : State) (b : Byte) : (s.emitByte b).outb = s.outb ++ [b] := rfl
@[simp] theorem State.emitByte_outs (s : State) (b : Byte) : (s.emitByte b).outs = s.outs := rfl
@[simp] theorem State.emitByte_epoch (s : State) (b : Byte) : (s.emitByte b).epoch = s.epoch := rfl
@[simp] theorem freqAt_emitByte (s : State) (b : Byte) (i : Nat) : freqAt (s.emitByte b) i = freqAt s i := rfl
@[simp] theorem nodeAt_emitByte (s : State) (b : Byte) (i : Nat) : nodeAt (s.emitByte b) i = nodeAt s i := rfl
@[simp] theorem codeAt_emitByte (s : State) (b : Byte) (i : Nat) : codeAt (s.emitByte b) i = codeAt s i := rfl
@[simp] theorem nnode_emitByte (s : State) (b : Byte) : nnode (s.emitByte b) = nnode s := rfl

/-! ### State.emitSyms -/

@[simp] theorem State.emitSyms_cmdcnt (s : State) (l : List Symbol) : (s.emitSyms l).cmdcnt = s.cmdcnt := rfl
@[simp] theorem State.emitSyms_treeValid (s : State) (l : List Symbol) : (s.emitSyms l).treeValid = s.treeValid := rfl
@[simp] theorem State.emitSyms_codesValid (s : State) (l : List Symbol) : (s.emitSyms l).codesValid = s.codesValid := rfl
@[simp] theorem State.emitSyms_encActive (s : State) (l : List Symbol) : (s.emitSyms l).encActive = s.encActive := rfl
@[simp] theorem State.emitSyms_decActive (s : State) (l : List Symbol) : (s.emitSyms l).decActive = s.decActive := rfl
@[simp] theorem State.emitSyms_err (s : State) (l : List Symbol) : (s.emitSyms l).err = s.err := rfl
@[simp] theorem State.emitSyms_nsym (s : State) (l : List Symbol) : (s.emitSyms l).nsym = s.nsym := rfl
@[simp] theorem State.emitSyms_root (s : State) (l : List Symbol) : (s.emitSyms l).root = s.root := rfl
@[simp] theorem State.emitSyms_cur (s : State) (l : List Symbol) : (s.emitSyms l).cur = s.cur := rfl
@[simp] theorem State.emitSyms_acc (s : State) (l : List Symbol) : (s.emitSyms l).acc = s.acc := rfl
@[simp] theorem State.emitSyms_nacc (s : State) (l : List Symbol) : (s.emitSyms l).nacc = s.nacc := rfl
@[simp] theorem State.emitSyms_encbits (s : State) (l : List Symbol) : (s.emitSyms l).encbits = s.encbits := rfl
@[simp] theorem State.emitSyms_errcode (s : State) (l : List Symbol) : (s.emitSyms l).errcode = s.errcode := rfl
@[simp] theorem State.emitSyms_errarg (s : State) (l : List Symbol) : (s.emitSyms l).errarg = s.errarg := rfl
@[simp] theorem State.emitSyms_errcmd (s : State) (l : List Symbol) : (s.emitSyms l).errcmd = s.errcmd := rfl
@[simp] theorem State.emitSyms_freq (s : State) (l : List Symbol) : (s.emitSyms l).freq = s.freq := rfl
@[simp] theorem State.emitSyms_node (s : State) (l : List Symbol) : (s.emitSyms l).node = s.node := rfl
@[simp] theorem State.emitSyms_code (s : State) (l : List Symbol) : (s.emitSyms l).code = s.code := rfl
@[simp] theorem State.emitSyms_host (s : State) (l : List Symbol) : (s.emitSyms l).host = s.host := rfl
@[simp] theorem State.emitSyms_responses (s : State) (l : List Symbol) : (s.emitSyms l).responses = s.responses := rfl
@[simp] theorem State.emitSyms_outb (s : State) (l : List Symbol) : (s.emitSyms l).outb = s.outb := rfl
@[simp] theorem State.emitSyms_outs (s : State) (l : List Symbol) : (s.emitSyms l).outs = s.outs ++ l := rfl
@[simp] theorem State.emitSyms_epoch (s : State) (l : List Symbol) : (s.emitSyms l).epoch = s.epoch := rfl
@[simp] theorem freqAt_emitSyms (s : State) (l : List Symbol) (i : Nat) : freqAt (s.emitSyms l) i = freqAt s i := rfl
@[simp] theorem nodeAt_emitSyms (s : State) (l : List Symbol) (i : Nat) : nodeAt (s.emitSyms l) i = nodeAt s i := rfl
@[simp] theorem codeAt_emitSyms (s : State) (l : List Symbol) (i : Nat) : codeAt (s.emitSyms l) i = codeAt s i := rfl
@[simp] theorem nnode_emitSyms (s : State) (l : List Symbol) : nnode (s.emitSyms l) = nnode s := rfl

/-! ### State.writeFreq -/

@[simp] theorem State.writeFreq_cmdcnt (s : State) (a : Nat) (v : Count) : (s.writeFreq a v).cmdcnt = s.cmdcnt := rfl
@[simp] theorem State.writeFreq_treeValid (s : State) (a : Nat) (v : Count) : (s.writeFreq a v).treeValid = s.treeValid := rfl
@[simp] theorem State.writeFreq_codesValid (s : State) (a : Nat) (v : Count) : (s.writeFreq a v).codesValid = s.codesValid := rfl
@[simp] theorem State.writeFreq_encActive (s : State) (a : Nat) (v : Count) : (s.writeFreq a v).encActive = s.encActive := rfl
@[simp] theorem State.writeFreq_decActive (s : State) (a : Nat) (v : Count) : (s.writeFreq a v).decActive = s.decActive := rfl
@[simp] theorem State.writeFreq_err (s : State) (a : Nat) (v : Count) : (s.writeFreq a v).err = s.err := rfl
@[simp] theorem State.writeFreq_nsym (s : State) (a : Nat) (v : Count) : (s.writeFreq a v).nsym = s.nsym := rfl
@[simp] theorem State.writeFreq_root (s : State) (a : Nat) (v : Count) : (s.writeFreq a v).root = s.root := rfl
@[simp] theorem State.writeFreq_cur (s : State) (a : Nat) (v : Count) : (s.writeFreq a v).cur = s.cur := rfl
@[simp] theorem State.writeFreq_acc (s : State) (a : Nat) (v : Count) : (s.writeFreq a v).acc = s.acc := rfl
@[simp] theorem State.writeFreq_nacc (s : State) (a : Nat) (v : Count) : (s.writeFreq a v).nacc = s.nacc := rfl
@[simp] theorem State.writeFreq_encbits (s : State) (a : Nat) (v : Count) : (s.writeFreq a v).encbits = s.encbits := rfl
@[simp] theorem State.writeFreq_errcode (s : State) (a : Nat) (v : Count) : (s.writeFreq a v).errcode = s.errcode := rfl
@[simp] theorem State.writeFreq_errarg (s : State) (a : Nat) (v : Count) : (s.writeFreq a v).errarg = s.errarg := rfl
@[simp] theorem State.writeFreq_errcmd (s : State) (a : Nat) (v : Count) : (s.writeFreq a v).errcmd = s.errcmd := rfl
@[simp] theorem State.writeFreq_freq (s : State) (a : Nat) (v : Count) : (s.writeFreq a v).freq = freqSet s.freq a v := rfl
@[simp] theorem State.writeFreq_node (s : State) (a : Nat) (v : Count) : (s.writeFreq a v).node = s.node := rfl
@[simp] theorem State.writeFreq_code (s : State) (a : Nat) (v : Count) : (s.writeFreq a v).code = s.code := rfl
@[simp] theorem State.writeFreq_host (s : State) (a : Nat) (v : Count) : (s.writeFreq a v).host = s.host := rfl
@[simp] theorem State.writeFreq_responses (s : State) (a : Nat) (v : Count) : (s.writeFreq a v).responses = s.responses := rfl
@[simp] theorem State.writeFreq_outb (s : State) (a : Nat) (v : Count) : (s.writeFreq a v).outb = s.outb := rfl
@[simp] theorem State.writeFreq_outs (s : State) (a : Nat) (v : Count) : (s.writeFreq a v).outs = s.outs := rfl
@[simp] theorem State.writeFreq_epoch (s : State) (a : Nat) (v : Count) : (s.writeFreq a v).epoch = s.epoch := rfl
@[simp] theorem nodeAt_writeFreq (s : State) (a : Nat) (v : Count) (i : Nat) : nodeAt (s.writeFreq a v) i = nodeAt s i := rfl
@[simp] theorem codeAt_writeFreq (s : State) (a : Nat) (v : Count) (i : Nat) : codeAt (s.writeFreq a v) i = codeAt s i := rfl
@[simp] theorem nnode_writeFreq (s : State) (a : Nat) (v : Count) : nnode (s.writeFreq a v) = nnode s := rfl

/-! ### State.clearFreq -/

@[simp] theorem State.clearFreq_cmdcnt (s : State) : (s.clearFreq).cmdcnt = s.cmdcnt := rfl
@[simp] theorem State.clearFreq_treeValid (s : State) : (s.clearFreq).treeValid = s.treeValid := rfl
@[simp] theorem State.clearFreq_codesValid (s : State) : (s.clearFreq).codesValid = s.codesValid := rfl
@[simp] theorem State.clearFreq_encActive (s : State) : (s.clearFreq).encActive = s.encActive := rfl
@[simp] theorem State.clearFreq_decActive (s : State) : (s.clearFreq).decActive = s.decActive := rfl
@[simp] theorem State.clearFreq_err (s : State) : (s.clearFreq).err = s.err := rfl
@[simp] theorem State.clearFreq_nsym (s : State) : (s.clearFreq).nsym = s.nsym := rfl
@[simp] theorem State.clearFreq_root (s : State) : (s.clearFreq).root = s.root := rfl
@[simp] theorem State.clearFreq_cur (s : State) : (s.clearFreq).cur = s.cur := rfl
@[simp] theorem State.clearFreq_acc (s : State) : (s.clearFreq).acc = s.acc := rfl
@[simp] theorem State.clearFreq_nacc (s : State) : (s.clearFreq).nacc = s.nacc := rfl
@[simp] theorem State.clearFreq_encbits (s : State) : (s.clearFreq).encbits = s.encbits := rfl
@[simp] theorem State.clearFreq_errcode (s : State) : (s.clearFreq).errcode = s.errcode := rfl
@[simp] theorem State.clearFreq_errarg (s : State) : (s.clearFreq).errarg = s.errarg := rfl
@[simp] theorem State.clearFreq_errcmd (s : State) : (s.clearFreq).errcmd = s.errcmd := rfl
@[simp] theorem State.clearFreq_freq (s : State) : (s.clearFreq).freq = [] := rfl
@[simp] theorem State.clearFreq_node (s : State) : (s.clearFreq).node = s.node := rfl
@[simp] theorem State.clearFreq_code (s : State) : (s.clearFreq).code = s.code := rfl
@[simp] theorem State.clearFreq_host (s : State) : (s.clearFreq).host = s.host := rfl
@[simp] theorem State.clearFreq_responses (s : State) : (s.clearFreq).responses = s.responses := rfl
@[simp] theorem State.clearFreq_outb (s : State) : (s.clearFreq).outb = s.outb := rfl
@[simp] theorem State.clearFreq_outs (s : State) : (s.clearFreq).outs = s.outs := rfl
@[simp] theorem State.clearFreq_epoch (s : State) : (s.clearFreq).epoch = s.epoch := rfl
@[simp] theorem nodeAt_clearFreq (s : State) (i : Nat) : nodeAt (s.clearFreq) i = nodeAt s i := rfl
@[simp] theorem codeAt_clearFreq (s : State) (i : Nat) : codeAt (s.clearFreq) i = codeAt s i := rfl
@[simp] theorem nnode_clearFreq (s : State) : nnode (s.clearFreq) = nnode s := rfl

/-! ### State.acknowledge -/

@[simp] theorem State.acknowledge_cmdcnt (s : State) : (s.acknowledge).cmdcnt = s.cmdcnt := rfl
@[simp] theorem State.acknowledge_treeValid (s : State) : (s.acknowledge).treeValid = s.treeValid := rfl
@[simp] theorem State.acknowledge_codesValid (s : State) : (s.acknowledge).codesValid = s.codesValid := rfl
@[simp] theorem State.acknowledge_encActive (s : State) : (s.acknowledge).encActive = s.encActive := rfl
@[simp] theorem State.acknowledge_decActive (s : State) : (s.acknowledge).decActive = s.decActive := rfl
@[simp] theorem State.acknowledge_err (s : State) : (s.acknowledge).err = false := rfl
@[simp] theorem State.acknowledge_nsym (s : State) : (s.acknowledge).nsym = s.nsym := rfl
@[simp] theorem State.acknowledge_root (s : State) : (s.acknowledge).root = s.root := rfl
@[simp] theorem State.acknowledge_cur (s : State) : (s.acknowledge).cur = s.cur := rfl
@[simp] theorem State.acknowledge_acc (s : State) : (s.acknowledge).acc = s.acc := rfl
@[simp] theorem State.acknowledge_nacc (s : State) : (s.acknowledge).nacc = s.nacc := rfl
@[simp] theorem State.acknowledge_encbits (s : State) : (s.acknowledge).encbits = s.encbits := rfl
@[simp] theorem State.acknowledge_errcode (s : State) : (s.acknowledge).errcode = 0#4 := rfl
@[simp] theorem State.acknowledge_errarg (s : State) : (s.acknowledge).errarg = 0#16 := rfl
@[simp] theorem State.acknowledge_errcmd (s : State) : (s.acknowledge).errcmd = 0#32 := rfl
@[simp] theorem State.acknowledge_freq (s : State) : (s.acknowledge).freq = s.freq := rfl
@[simp] theorem State.acknowledge_node (s : State) : (s.acknowledge).node = s.node := rfl
@[simp] theorem State.acknowledge_code (s : State) : (s.acknowledge).code = s.code := rfl
@[simp] theorem State.acknowledge_host (s : State) : (s.acknowledge).host = s.host := rfl
@[simp] theorem State.acknowledge_responses (s : State) : (s.acknowledge).responses = s.responses := rfl
@[simp] theorem State.acknowledge_outb (s : State) : (s.acknowledge).outb = s.outb := rfl
@[simp] theorem State.acknowledge_outs (s : State) : (s.acknowledge).outs = s.outs := rfl
@[simp] theorem State.acknowledge_epoch (s : State) : (s.acknowledge).epoch = s.epoch := rfl
@[simp] theorem freqAt_acknowledge (s : State) (i : Nat) : freqAt (s.acknowledge) i = freqAt s i := rfl
@[simp] theorem nodeAt_acknowledge (s : State) (i : Nat) : nodeAt (s.acknowledge) i = nodeAt s i := rfl
@[simp] theorem codeAt_acknowledge (s : State) (i : Nat) : codeAt (s.acknowledge) i = codeAt s i := rfl
@[simp] theorem nnode_acknowledge (s : State) : nnode (s.acknowledge) = nnode s := rfl

/-! ### State.doReset -/

@[simp] theorem State.doReset_cmdcnt (s : State) : (s.doReset).cmdcnt = State.reset.cmdcnt := rfl
@[simp] theorem State.doReset_treeValid (s : State) : (s.doReset).treeValid = State.reset.treeValid := rfl
@[simp] theorem State.doReset_codesValid (s : State) : (s.doReset).codesValid = State.reset.codesValid := rfl
@[simp] theorem State.doReset_encActive (s : State) : (s.doReset).encActive = State.reset.encActive := rfl
@[simp] theorem State.doReset_decActive (s : State) : (s.doReset).decActive = State.reset.decActive := rfl
@[simp] theorem State.doReset_err (s : State) : (s.doReset).err = State.reset.err := rfl
@[simp] theorem State.doReset_nsym (s : State) : (s.doReset).nsym = State.reset.nsym := rfl
@[simp] theorem State.doReset_root (s : State) : (s.doReset).root = State.reset.root := rfl
@[simp] theorem State.doReset_cur (s : State) : (s.doReset).cur = State.reset.cur := rfl
@[simp] theorem State.doReset_acc (s : State) : (s.doReset).acc = State.reset.acc := rfl
@[simp] theorem State.doReset_nacc (s : State) : (s.doReset).nacc = State.reset.nacc := rfl
@[simp] theorem State.doReset_encbits (s : State) : (s.doReset).encbits = State.reset.encbits := rfl
@[simp] theorem State.doReset_errcode (s : State) : (s.doReset).errcode = State.reset.errcode := rfl
@[simp] theorem State.doReset_errarg (s : State) : (s.doReset).errarg = State.reset.errarg := rfl
@[simp] theorem State.doReset_errcmd (s : State) : (s.doReset).errcmd = State.reset.errcmd := rfl
@[simp] theorem State.doReset_freq (s : State) : (s.doReset).freq = State.reset.freq := rfl
@[simp] theorem State.doReset_node (s : State) : (s.doReset).node = State.reset.node := rfl
@[simp] theorem State.doReset_code (s : State) : (s.doReset).code = State.reset.code := rfl
@[simp] theorem State.doReset_host (s : State) : (s.doReset).host = s.host := rfl
@[simp] theorem State.doReset_responses (s : State) : (s.doReset).responses = s.responses := rfl
@[simp] theorem State.doReset_outb (s : State) : (s.doReset).outb = s.outb := rfl
@[simp] theorem State.doReset_outs (s : State) : (s.doReset).outs = s.outs := rfl
@[simp] theorem State.doReset_epoch (s : State) : (s.doReset).epoch = s.epoch + 1 := rfl

/-! ### State.flagsAfterBuild -/

@[simp] theorem State.flagsAfterBuild_cmdcnt (s : State) : (s.flagsAfterBuild).cmdcnt = s.cmdcnt := rfl
@[simp] theorem State.flagsAfterBuild_treeValid (s : State) : (s.flagsAfterBuild).treeValid = true := rfl
@[simp] theorem State.flagsAfterBuild_codesValid (s : State) : (s.flagsAfterBuild).codesValid = false := rfl
@[simp] theorem State.flagsAfterBuild_encActive (s : State) : (s.flagsAfterBuild).encActive = false := rfl
@[simp] theorem State.flagsAfterBuild_decActive (s : State) : (s.flagsAfterBuild).decActive = false := rfl
@[simp] theorem State.flagsAfterBuild_err (s : State) : (s.flagsAfterBuild).err = s.err := rfl
@[simp] theorem State.flagsAfterBuild_nsym (s : State) : (s.flagsAfterBuild).nsym = s.nsym := rfl
@[simp] theorem State.flagsAfterBuild_root (s : State) : (s.flagsAfterBuild).root = s.root := rfl
@[simp] theorem State.flagsAfterBuild_cur (s : State) : (s.flagsAfterBuild).cur = s.cur := rfl
@[simp] theorem State.flagsAfterBuild_acc (s : State) : (s.flagsAfterBuild).acc = s.acc := rfl
@[simp] theorem State.flagsAfterBuild_nacc (s : State) : (s.flagsAfterBuild).nacc = s.nacc := rfl
@[simp] theorem State.flagsAfterBuild_encbits (s : State) : (s.flagsAfterBuild).encbits = s.encbits := rfl
@[simp] theorem State.flagsAfterBuild_errcode (s : State) : (s.flagsAfterBuild).errcode = s.errcode := rfl
@[simp] theorem State.flagsAfterBuild_errarg (s : State) : (s.flagsAfterBuild).errarg = s.errarg := rfl
@[simp] theorem State.flagsAfterBuild_errcmd (s : State) : (s.flagsAfterBuild).errcmd = s.errcmd := rfl
@[simp] theorem State.flagsAfterBuild_freq (s : State) : (s.flagsAfterBuild).freq = s.freq := rfl
@[simp] theorem State.flagsAfterBuild_node (s : State) : (s.flagsAfterBuild).node = s.node := rfl
@[simp] theorem State.flagsAfterBuild_code (s : State) : (s.flagsAfterBuild).code = s.code := rfl
@[simp] theorem State.flagsAfterBuild_host (s : State) : (s.flagsAfterBuild).host = s.host := rfl
@[simp] theorem State.flagsAfterBuild_responses (s : State) : (s.flagsAfterBuild).responses = s.responses := rfl
@[simp] theorem State.flagsAfterBuild_outb (s : State) : (s.flagsAfterBuild).outb = s.outb := rfl
@[simp] theorem State.flagsAfterBuild_outs (s : State) : (s.flagsAfterBuild).outs = s.outs := rfl
@[simp] theorem State.flagsAfterBuild_epoch (s : State) : (s.flagsAfterBuild).epoch = s.epoch := rfl
@[simp] theorem freqAt_flagsAfterBuild (s : State) (i : Nat) : freqAt (s.flagsAfterBuild) i = freqAt s i := rfl
@[simp] theorem nodeAt_flagsAfterBuild (s : State) (i : Nat) : nodeAt (s.flagsAfterBuild) i = nodeAt s i := rfl
@[simp] theorem codeAt_flagsAfterBuild (s : State) (i : Nat) : codeAt (s.flagsAfterBuild) i = codeAt s i := rfl

/-! ### State.setCodesValid -/

@[simp] theorem State.setCodesValid_cmdcnt (s : State) : (s.setCodesValid).cmdcnt = s.cmdcnt := rfl
@[simp] theorem State.setCodesValid_treeValid (s : State) : (s.setCodesValid).treeValid = s.treeValid := rfl
@[simp] theorem State.setCodesValid_codesValid (s : State) : (s.setCodesValid).codesValid = true := rfl
@[simp] theorem State.setCodesValid_encActive (s : State) : (s.setCodesValid).encActive = s.encActive := rfl
@[simp] theorem State.setCodesValid_decActive (s : State) : (s.setCodesValid).decActive = s.decActive := rfl
@[simp] theorem State.setCodesValid_err (s : State) : (s.setCodesValid).err = s.err := rfl
@[simp] theorem State.setCodesValid_nsym (s : State) : (s.setCodesValid).nsym = s.nsym := rfl
@[simp] theorem State.setCodesValid_root (s : State) : (s.setCodesValid).root = s.root := rfl
@[simp] theorem State.setCodesValid_cur (s : State) : (s.setCodesValid).cur = s.cur := rfl
@[simp] theorem State.setCodesValid_acc (s : State) : (s.setCodesValid).acc = s.acc := rfl
@[simp] theorem State.setCodesValid_nacc (s : State) : (s.setCodesValid).nacc = s.nacc := rfl
@[simp] theorem State.setCodesValid_encbits (s : State) : (s.setCodesValid).encbits = s.encbits := rfl
@[simp] theorem State.setCodesValid_errcode (s : State) : (s.setCodesValid).errcode = s.errcode := rfl
@[simp] theorem State.setCodesValid_errarg (s : State) : (s.setCodesValid).errarg = s.errarg := rfl
@[simp] theorem State.setCodesValid_errcmd (s : State) : (s.setCodesValid).errcmd = s.errcmd := rfl
@[simp] theorem State.setCodesValid_freq (s : State) : (s.setCodesValid).freq = s.freq := rfl
@[simp] theorem State.setCodesValid_node (s : State) : (s.setCodesValid).node = s.node := rfl
@[simp] theorem State.setCodesValid_code (s : State) : (s.setCodesValid).code = s.code := rfl
@[simp] theorem State.setCodesValid_host (s : State) : (s.setCodesValid).host = s.host := rfl
@[simp] theorem State.setCodesValid_responses (s : State) : (s.setCodesValid).responses = s.responses := rfl
@[simp] theorem State.setCodesValid_outb (s : State) : (s.setCodesValid).outb = s.outb := rfl
@[simp] theorem State.setCodesValid_outs (s : State) : (s.setCodesValid).outs = s.outs := rfl
@[simp] theorem State.setCodesValid_epoch (s : State) : (s.setCodesValid).epoch = s.epoch := rfl
@[simp] theorem freqAt_setCodesValid (s : State) (i : Nat) : freqAt (s.setCodesValid) i = freqAt s i := rfl
@[simp] theorem nodeAt_setCodesValid (s : State) (i : Nat) : nodeAt (s.setCodesValid) i = nodeAt s i := rfl
@[simp] theorem codeAt_setCodesValid (s : State) (i : Nat) : codeAt (s.setCodesValid) i = codeAt s i := rfl
@[simp] theorem nnode_setCodesValid (s : State) : nnode (s.setCodesValid) = nnode s := rfl

/-! ### State.setEncActive -/

@[simp] theorem State.setEncActive_cmdcnt (s : State) : (s.setEncActive).cmdcnt = s.cmdcnt := rfl
@[simp] theorem State.setEncActive_treeValid (s : State) : (s.setEncActive).treeValid = s.treeValid := rfl
@[simp] theorem State.setEncActive_codesValid (s : State) : (s.setEncActive).codesValid = s.codesValid := rfl
@[simp] theorem State.setEncActive_encActive (s : State) : (s.setEncActive).encActive = true := rfl
@[simp] theorem State.setEncActive_decActive (s : State) : (s.setEncActive).decActive = s.decActive := rfl
@[simp] theorem State.setEncActive_err (s : State) : (s.setEncActive).err = s.err := rfl
@[simp] theorem State.setEncActive_nsym (s : State) : (s.setEncActive).nsym = s.nsym := rfl
@[simp] theorem State.setEncActive_root (s : State) : (s.setEncActive).root = s.root := rfl
@[simp] theorem State.setEncActive_cur (s : State) : (s.setEncActive).cur = s.cur := rfl
@[simp] theorem State.setEncActive_acc (s : State) : (s.setEncActive).acc = s.acc := rfl
@[simp] theorem State.setEncActive_nacc (s : State) : (s.setEncActive).nacc = s.nacc := rfl
@[simp] theorem State.setEncActive_encbits (s : State) : (s.setEncActive).encbits = s.encbits := rfl
@[simp] theorem State.setEncActive_errcode (s : State) : (s.setEncActive).errcode = s.errcode := rfl
@[simp] theorem State.setEncActive_errarg (s : State) : (s.setEncActive).errarg = s.errarg := rfl
@[simp] theorem State.setEncActive_errcmd (s : State) : (s.setEncActive).errcmd = s.errcmd := rfl
@[simp] theorem State.setEncActive_freq (s : State) : (s.setEncActive).freq = s.freq := rfl
@[simp] theorem State.setEncActive_node (s : State) : (s.setEncActive).node = s.node := rfl
@[simp] theorem State.setEncActive_code (s : State) : (s.setEncActive).code = s.code := rfl
@[simp] theorem State.setEncActive_host (s : State) : (s.setEncActive).host = s.host := rfl
@[simp] theorem State.setEncActive_responses (s : State) : (s.setEncActive).responses = s.responses := rfl
@[simp] theorem State.setEncActive_outb (s : State) : (s.setEncActive).outb = s.outb := rfl
@[simp] theorem State.setEncActive_outs (s : State) : (s.setEncActive).outs = s.outs := rfl
@[simp] theorem State.setEncActive_epoch (s : State) : (s.setEncActive).epoch = s.epoch := rfl
@[simp] theorem freqAt_setEncActive (s : State) (i : Nat) : freqAt (s.setEncActive) i = freqAt s i := rfl
@[simp] theorem nodeAt_setEncActive (s : State) (i : Nat) : nodeAt (s.setEncActive) i = nodeAt s i := rfl
@[simp] theorem codeAt_setEncActive (s : State) (i : Nat) : codeAt (s.setEncActive) i = codeAt s i := rfl
@[simp] theorem nnode_setEncActive (s : State) : nnode (s.setEncActive) = nnode s := rfl

/-! ### State.clearEncActive -/

@[simp] theorem State.clearEncActive_cmdcnt (s : State) : (s.clearEncActive).cmdcnt = s.cmdcnt := rfl
@[simp] theorem State.clearEncActive_treeValid (s : State) : (s.clearEncActive).treeValid = s.treeValid := rfl
@[simp] theorem State.clearEncActive_codesValid (s : State) : (s.clearEncActive).codesValid = s.codesValid := rfl
@[simp] theorem State.clearEncActive_encActive (s : State) : (s.clearEncActive).encActive = false := rfl
@[simp] theorem State.clearEncActive_decActive (s : State) : (s.clearEncActive).decActive = s.decActive := rfl
@[simp] theorem State.clearEncActive_err (s : State) : (s.clearEncActive).err = s.err := rfl
@[simp] theorem State.clearEncActive_nsym (s : State) : (s.clearEncActive).nsym = s.nsym := rfl
@[simp] theorem State.clearEncActive_root (s : State) : (s.clearEncActive).root = s.root := rfl
@[simp] theorem State.clearEncActive_cur (s : State) : (s.clearEncActive).cur = s.cur := rfl
@[simp] theorem State.clearEncActive_acc (s : State) : (s.clearEncActive).acc = s.acc := rfl
@[simp] theorem State.clearEncActive_nacc (s : State) : (s.clearEncActive).nacc = s.nacc := rfl
@[simp] theorem State.clearEncActive_encbits (s : State) : (s.clearEncActive).encbits = s.encbits := rfl
@[simp] theorem State.clearEncActive_errcode (s : State) : (s.clearEncActive).errcode = s.errcode := rfl
@[simp] theorem State.clearEncActive_errarg (s : State) : (s.clearEncActive).errarg = s.errarg := rfl
@[simp] theorem State.clearEncActive_errcmd (s : State) : (s.clearEncActive).errcmd = s.errcmd := rfl
@[simp] theorem State.clearEncActive_freq (s : State) : (s.clearEncActive).freq = s.freq := rfl
@[simp] theorem State.clearEncActive_node (s : State) : (s.clearEncActive).node = s.node := rfl
@[simp] theorem State.clearEncActive_code (s : State) : (s.clearEncActive).code = s.code := rfl
@[simp] theorem State.clearEncActive_host (s : State) : (s.clearEncActive).host = s.host := rfl
@[simp] theorem State.clearEncActive_responses (s : State) : (s.clearEncActive).responses = s.responses := rfl
@[simp] theorem State.clearEncActive_outb (s : State) : (s.clearEncActive).outb = s.outb := rfl
@[simp] theorem State.clearEncActive_outs (s : State) : (s.clearEncActive).outs = s.outs := rfl
@[simp] theorem State.clearEncActive_epoch (s : State) : (s.clearEncActive).epoch = s.epoch := rfl
@[simp] theorem freqAt_clearEncActive (s : State) (i : Nat) : freqAt (s.clearEncActive) i = freqAt s i := rfl
@[simp] theorem nodeAt_clearEncActive (s : State) (i : Nat) : nodeAt (s.clearEncActive) i = nodeAt s i := rfl
@[simp] theorem codeAt_clearEncActive (s : State) (i : Nat) : codeAt (s.clearEncActive) i = codeAt s i := rfl
@[simp] theorem nnode_clearEncActive (s : State) : nnode (s.clearEncActive) = nnode s := rfl

/-! ### State.setDecActive -/

@[simp] theorem State.setDecActive_cmdcnt (s : State) : (s.setDecActive).cmdcnt = s.cmdcnt := rfl
@[simp] theorem State.setDecActive_treeValid (s : State) : (s.setDecActive).treeValid = s.treeValid := rfl
@[simp] theorem State.setDecActive_codesValid (s : State) : (s.setDecActive).codesValid = s.codesValid := rfl
@[simp] theorem State.setDecActive_encActive (s : State) : (s.setDecActive).encActive = s.encActive := rfl
@[simp] theorem State.setDecActive_decActive (s : State) : (s.setDecActive).decActive = true := rfl
@[simp] theorem State.setDecActive_err (s : State) : (s.setDecActive).err = s.err := rfl
@[simp] theorem State.setDecActive_nsym (s : State) : (s.setDecActive).nsym = s.nsym := rfl
@[simp] theorem State.setDecActive_root (s : State) : (s.setDecActive).root = s.root := rfl
@[simp] theorem State.setDecActive_cur (s : State) : (s.setDecActive).cur = s.cur := rfl
@[simp] theorem State.setDecActive_acc (s : State) : (s.setDecActive).acc = s.acc := rfl
@[simp] theorem State.setDecActive_nacc (s : State) : (s.setDecActive).nacc = s.nacc := rfl
@[simp] theorem State.setDecActive_encbits (s : State) : (s.setDecActive).encbits = s.encbits := rfl
@[simp] theorem State.setDecActive_errcode (s : State) : (s.setDecActive).errcode = s.errcode := rfl
@[simp] theorem State.setDecActive_errarg (s : State) : (s.setDecActive).errarg = s.errarg := rfl
@[simp] theorem State.setDecActive_errcmd (s : State) : (s.setDecActive).errcmd = s.errcmd := rfl
@[simp] theorem State.setDecActive_freq (s : State) : (s.setDecActive).freq = s.freq := rfl
@[simp] theorem State.setDecActive_node (s : State) : (s.setDecActive).node = s.node := rfl
@[simp] theorem State.setDecActive_code (s : State) : (s.setDecActive).code = s.code := rfl
@[simp] theorem State.setDecActive_host (s : State) : (s.setDecActive).host = s.host := rfl
@[simp] theorem State.setDecActive_responses (s : State) : (s.setDecActive).responses = s.responses := rfl
@[simp] theorem State.setDecActive_outb (s : State) : (s.setDecActive).outb = s.outb := rfl
@[simp] theorem State.setDecActive_outs (s : State) : (s.setDecActive).outs = s.outs := rfl
@[simp] theorem State.setDecActive_epoch (s : State) : (s.setDecActive).epoch = s.epoch := rfl
@[simp] theorem freqAt_setDecActive (s : State) (i : Nat) : freqAt (s.setDecActive) i = freqAt s i := rfl
@[simp] theorem nodeAt_setDecActive (s : State) (i : Nat) : nodeAt (s.setDecActive) i = nodeAt s i := rfl
@[simp] theorem codeAt_setDecActive (s : State) (i : Nat) : codeAt (s.setDecActive) i = codeAt s i := rfl
@[simp] theorem nnode_setDecActive (s : State) : nnode (s.setDecActive) = nnode s := rfl

/-! ### State.clearDecActive -/

@[simp] theorem State.clearDecActive_cmdcnt (s : State) : (s.clearDecActive).cmdcnt = s.cmdcnt := rfl
@[simp] theorem State.clearDecActive_treeValid (s : State) : (s.clearDecActive).treeValid = s.treeValid := rfl
@[simp] theorem State.clearDecActive_codesValid (s : State) : (s.clearDecActive).codesValid = s.codesValid := rfl
@[simp] theorem State.clearDecActive_encActive (s : State) : (s.clearDecActive).encActive = s.encActive := rfl
@[simp] theorem State.clearDecActive_decActive (s : State) : (s.clearDecActive).decActive = false := rfl
@[simp] theorem State.clearDecActive_err (s : State) : (s.clearDecActive).err = s.err := rfl
@[simp] theorem State.clearDecActive_nsym (s : State) : (s.clearDecActive).nsym = s.nsym := rfl
@[simp] theorem State.clearDecActive_root (s : State) : (s.clearDecActive).root = s.root := rfl
@[simp] theorem State.clearDecActive_cur (s : State) : (s.clearDecActive).cur = s.cur := rfl
@[simp] theorem State.clearDecActive_acc (s : State) : (s.clearDecActive).acc = s.acc := rfl
@[simp] theorem State.clearDecActive_nacc (s : State) : (s.clearDecActive).nacc = s.nacc := rfl
@[simp] theorem State.clearDecActive_encbits (s : State) : (s.clearDecActive).encbits = s.encbits := rfl
@[simp] theorem State.clearDecActive_errcode (s : State) : (s.clearDecActive).errcode = s.errcode := rfl
@[simp] theorem State.clearDecActive_errarg (s : State) : (s.clearDecActive).errarg = s.errarg := rfl
@[simp] theorem State.clearDecActive_errcmd (s : State) : (s.clearDecActive).errcmd = s.errcmd := rfl
@[simp] theorem State.clearDecActive_freq (s : State) : (s.clearDecActive).freq = s.freq := rfl
@[simp] theorem State.clearDecActive_node (s : State) : (s.clearDecActive).node = s.node := rfl
@[simp] theorem State.clearDecActive_code (s : State) : (s.clearDecActive).code = s.code := rfl
@[simp] theorem State.clearDecActive_host (s : State) : (s.clearDecActive).host = s.host := rfl
@[simp] theorem State.clearDecActive_responses (s : State) : (s.clearDecActive).responses = s.responses := rfl
@[simp] theorem State.clearDecActive_outb (s : State) : (s.clearDecActive).outb = s.outb := rfl
@[simp] theorem State.clearDecActive_outs (s : State) : (s.clearDecActive).outs = s.outs := rfl
@[simp] theorem State.clearDecActive_epoch (s : State) : (s.clearDecActive).epoch = s.epoch := rfl
@[simp] theorem freqAt_clearDecActive (s : State) (i : Nat) : freqAt (s.clearDecActive) i = freqAt s i := rfl
@[simp] theorem nodeAt_clearDecActive (s : State) (i : Nat) : nodeAt (s.clearDecActive) i = nodeAt s i := rfl
@[simp] theorem codeAt_clearDecActive (s : State) (i : Nat) : codeAt (s.clearDecActive) i = codeAt s i := rfl
@[simp] theorem nnode_clearDecActive (s : State) : nnode (s.clearDecActive) = nnode s := rfl

/-! ### State.storeTree -/

@[simp] theorem State.storeTree_cmdcnt (s : State) (n : Nat) (t : BuiltTree) : (s.storeTree n t).cmdcnt = s.cmdcnt := rfl
@[simp] theorem State.storeTree_treeValid (s : State) (n : Nat) (t : BuiltTree) : (s.storeTree n t).treeValid = s.treeValid := rfl
@[simp] theorem State.storeTree_codesValid (s : State) (n : Nat) (t : BuiltTree) : (s.storeTree n t).codesValid = s.codesValid := rfl
@[simp] theorem State.storeTree_encActive (s : State) (n : Nat) (t : BuiltTree) : (s.storeTree n t).encActive = s.encActive := rfl
@[simp] theorem State.storeTree_decActive (s : State) (n : Nat) (t : BuiltTree) : (s.storeTree n t).decActive = s.decActive := rfl
@[simp] theorem State.storeTree_err (s : State) (n : Nat) (t : BuiltTree) : (s.storeTree n t).err = s.err := rfl
@[simp] theorem State.storeTree_nsym (s : State) (n : Nat) (t : BuiltTree) : (s.storeTree n t).nsym = BitVec.ofNat 9 n := rfl
@[simp] theorem State.storeTree_root (s : State) (n : Nat) (t : BuiltTree) : (s.storeTree n t).root = BitVec.ofNat 9 t.root := rfl
@[simp] theorem State.storeTree_cur (s : State) (n : Nat) (t : BuiltTree) : (s.storeTree n t).cur = s.cur := rfl
@[simp] theorem State.storeTree_acc (s : State) (n : Nat) (t : BuiltTree) : (s.storeTree n t).acc = s.acc := rfl
@[simp] theorem State.storeTree_nacc (s : State) (n : Nat) (t : BuiltTree) : (s.storeTree n t).nacc = s.nacc := rfl
@[simp] theorem State.storeTree_encbits (s : State) (n : Nat) (t : BuiltTree) : (s.storeTree n t).encbits = s.encbits := rfl
@[simp] theorem State.storeTree_errcode (s : State) (n : Nat) (t : BuiltTree) : (s.storeTree n t).errcode = s.errcode := rfl
@[simp] theorem State.storeTree_errarg (s : State) (n : Nat) (t : BuiltTree) : (s.storeTree n t).errarg = s.errarg := rfl
@[simp] theorem State.storeTree_errcmd (s : State) (n : Nat) (t : BuiltTree) : (s.storeTree n t).errcmd = s.errcmd := rfl
@[simp] theorem State.storeTree_freq (s : State) (n : Nat) (t : BuiltTree) : (s.storeTree n t).freq = s.freq := rfl
@[simp] theorem State.storeTree_node (s : State) (n : Nat) (t : BuiltTree) : (s.storeTree n t).node = s.node.writeFrom 0 t.nodes := rfl
@[simp] theorem State.storeTree_code (s : State) (n : Nat) (t : BuiltTree) : (s.storeTree n t).code = s.code := rfl
@[simp] theorem State.storeTree_host (s : State) (n : Nat) (t : BuiltTree) : (s.storeTree n t).host = s.host := rfl
@[simp] theorem State.storeTree_responses (s : State) (n : Nat) (t : BuiltTree) : (s.storeTree n t).responses = s.responses := rfl
@[simp] theorem State.storeTree_outb (s : State) (n : Nat) (t : BuiltTree) : (s.storeTree n t).outb = s.outb := rfl
@[simp] theorem State.storeTree_outs (s : State) (n : Nat) (t : BuiltTree) : (s.storeTree n t).outs = s.outs := rfl
@[simp] theorem State.storeTree_epoch (s : State) (n : Nat) (t : BuiltTree) : (s.storeTree n t).epoch = s.epoch := rfl
@[simp] theorem freqAt_storeTree (s : State) (n : Nat) (t : BuiltTree) (i : Nat) : freqAt (s.storeTree n t) i = freqAt s i := rfl
@[simp] theorem codeAt_storeTree (s : State) (n : Nat) (t : BuiltTree) (i : Nat) : codeAt (s.storeTree n t) i = codeAt s i := rfl

/-! ### State.storeCodes -/

@[simp] theorem State.storeCodes_cmdcnt (s : State) (m : Memory CodeEntry) : (s.storeCodes m).cmdcnt = s.cmdcnt := rfl
@[simp] theorem State.storeCodes_treeValid (s : State) (m : Memory CodeEntry) : (s.storeCodes m).treeValid = s.treeValid := rfl
@[simp] theorem State.storeCodes_codesValid (s : State) (m : Memory CodeEntry) : (s.storeCodes m).codesValid = s.codesValid := rfl
@[simp] theorem State.storeCodes_encActive (s : State) (m : Memory CodeEntry) : (s.storeCodes m).encActive = s.encActive := rfl
@[simp] theorem State.storeCodes_decActive (s : State) (m : Memory CodeEntry) : (s.storeCodes m).decActive = s.decActive := rfl
@[simp] theorem State.storeCodes_err (s : State) (m : Memory CodeEntry) : (s.storeCodes m).err = s.err := rfl
@[simp] theorem State.storeCodes_nsym (s : State) (m : Memory CodeEntry) : (s.storeCodes m).nsym = s.nsym := rfl
@[simp] theorem State.storeCodes_root (s : State) (m : Memory CodeEntry) : (s.storeCodes m).root = s.root := rfl
@[simp] theorem State.storeCodes_cur (s : State) (m : Memory CodeEntry) : (s.storeCodes m).cur = s.cur := rfl
@[simp] theorem State.storeCodes_acc (s : State) (m : Memory CodeEntry) : (s.storeCodes m).acc = s.acc := rfl
@[simp] theorem State.storeCodes_nacc (s : State) (m : Memory CodeEntry) : (s.storeCodes m).nacc = s.nacc := rfl
@[simp] theorem State.storeCodes_encbits (s : State) (m : Memory CodeEntry) : (s.storeCodes m).encbits = s.encbits := rfl
@[simp] theorem State.storeCodes_errcode (s : State) (m : Memory CodeEntry) : (s.storeCodes m).errcode = s.errcode := rfl
@[simp] theorem State.storeCodes_errarg (s : State) (m : Memory CodeEntry) : (s.storeCodes m).errarg = s.errarg := rfl
@[simp] theorem State.storeCodes_errcmd (s : State) (m : Memory CodeEntry) : (s.storeCodes m).errcmd = s.errcmd := rfl
@[simp] theorem State.storeCodes_freq (s : State) (m : Memory CodeEntry) : (s.storeCodes m).freq = s.freq := rfl
@[simp] theorem State.storeCodes_node (s : State) (m : Memory CodeEntry) : (s.storeCodes m).node = s.node := rfl
@[simp] theorem State.storeCodes_code (s : State) (m : Memory CodeEntry) : (s.storeCodes m).code = m := rfl
@[simp] theorem State.storeCodes_host (s : State) (m : Memory CodeEntry) : (s.storeCodes m).host = s.host := rfl
@[simp] theorem State.storeCodes_responses (s : State) (m : Memory CodeEntry) : (s.storeCodes m).responses = s.responses := rfl
@[simp] theorem State.storeCodes_outb (s : State) (m : Memory CodeEntry) : (s.storeCodes m).outb = s.outb := rfl
@[simp] theorem State.storeCodes_outs (s : State) (m : Memory CodeEntry) : (s.storeCodes m).outs = s.outs := rfl
@[simp] theorem State.storeCodes_epoch (s : State) (m : Memory CodeEntry) : (s.storeCodes m).epoch = s.epoch := rfl
@[simp] theorem freqAt_storeCodes (s : State) (m : Memory CodeEntry) (i : Nat) : freqAt (s.storeCodes m) i = freqAt s i := rfl
@[simp] theorem nodeAt_storeCodes (s : State) (m : Memory CodeEntry) (i : Nat) : nodeAt (s.storeCodes m) i = nodeAt s i := rfl
@[simp] theorem nnode_storeCodes (s : State) (m : Memory CodeEntry) : nnode (s.storeCodes m) = nnode s := rfl

/-! ### State.clearWriter -/

@[simp] theorem State.clearWriter_cmdcnt (s : State) : (s.clearWriter).cmdcnt = s.cmdcnt := rfl
@[simp] theorem State.clearWriter_treeValid (s : State) : (s.clearWriter).treeValid = s.treeValid := rfl
@[simp] theorem State.clearWriter_codesValid (s : State) : (s.clearWriter).codesValid = s.codesValid := rfl
@[simp] theorem State.clearWriter_encActive (s : State) : (s.clearWriter).encActive = s.encActive := rfl
@[simp] theorem State.clearWriter_decActive (s : State) : (s.clearWriter).decActive = s.decActive := rfl
@[simp] theorem State.clearWriter_err (s : State) : (s.clearWriter).err = s.err := rfl
@[simp] theorem State.clearWriter_nsym (s : State) : (s.clearWriter).nsym = s.nsym := rfl
@[simp] theorem State.clearWriter_root (s : State) : (s.clearWriter).root = s.root := rfl
@[simp] theorem State.clearWriter_cur (s : State) : (s.clearWriter).cur = s.cur := rfl
@[simp] theorem State.clearWriter_acc (s : State) : (s.clearWriter).acc = 0#8 := rfl
@[simp] theorem State.clearWriter_nacc (s : State) : (s.clearWriter).nacc = 0#3 := rfl
@[simp] theorem State.clearWriter_encbits (s : State) : (s.clearWriter).encbits = 0#64 := rfl
@[simp] theorem State.clearWriter_errcode (s : State) : (s.clearWriter).errcode = s.errcode := rfl
@[simp] theorem State.clearWriter_errarg (s : State) : (s.clearWriter).errarg = s.errarg := rfl
@[simp] theorem State.clearWriter_errcmd (s : State) : (s.clearWriter).errcmd = s.errcmd := rfl
@[simp] theorem State.clearWriter_freq (s : State) : (s.clearWriter).freq = s.freq := rfl
@[simp] theorem State.clearWriter_node (s : State) : (s.clearWriter).node = s.node := rfl
@[simp] theorem State.clearWriter_code (s : State) : (s.clearWriter).code = s.code := rfl
@[simp] theorem State.clearWriter_host (s : State) : (s.clearWriter).host = s.host := rfl
@[simp] theorem State.clearWriter_responses (s : State) : (s.clearWriter).responses = s.responses := rfl
@[simp] theorem State.clearWriter_outb (s : State) : (s.clearWriter).outb = s.outb := rfl
@[simp] theorem State.clearWriter_outs (s : State) : (s.clearWriter).outs = s.outs := rfl
@[simp] theorem State.clearWriter_epoch (s : State) : (s.clearWriter).epoch = s.epoch := rfl
@[simp] theorem freqAt_clearWriter (s : State) (i : Nat) : freqAt (s.clearWriter) i = freqAt s i := rfl
@[simp] theorem nodeAt_clearWriter (s : State) (i : Nat) : nodeAt (s.clearWriter) i = nodeAt s i := rfl
@[simp] theorem codeAt_clearWriter (s : State) (i : Nat) : codeAt (s.clearWriter) i = codeAt s i := rfl
@[simp] theorem nnode_clearWriter (s : State) : nnode (s.clearWriter) = nnode s := rfl

/-! ### State.emptyAcc -/

@[simp] theorem State.emptyAcc_cmdcnt (s : State) : (s.emptyAcc).cmdcnt = s.cmdcnt := rfl
@[simp] theorem State.emptyAcc_treeValid (s : State) : (s.emptyAcc).treeValid = s.treeValid := rfl
@[simp] theorem State.emptyAcc_codesValid (s : State) : (s.emptyAcc).codesValid = s.codesValid := rfl
@[simp] theorem State.emptyAcc_encActive (s : State) : (s.emptyAcc).encActive = s.encActive := rfl
@[simp] theorem State.emptyAcc_decActive (s : State) : (s.emptyAcc).decActive = s.decActive := rfl
@[simp] theorem State.emptyAcc_err (s : State) : (s.emptyAcc).err = s.err := rfl
@[simp] theorem State.emptyAcc_nsym (s : State) : (s.emptyAcc).nsym = s.nsym := rfl
@[simp] theorem State.emptyAcc_root (s : State) : (s.emptyAcc).root = s.root := rfl
@[simp] theorem State.emptyAcc_cur (s : State) : (s.emptyAcc).cur = s.cur := rfl
@[simp] theorem State.emptyAcc_acc (s : State) : (s.emptyAcc).acc = 0#8 := rfl
@[simp] theorem State.emptyAcc_nacc (s : State) : (s.emptyAcc).nacc = 0#3 := rfl
@[simp] theorem State.emptyAcc_encbits (s : State) : (s.emptyAcc).encbits = s.encbits := rfl
@[simp] theorem State.emptyAcc_errcode (s : State) : (s.emptyAcc).errcode = s.errcode := rfl
@[simp] theorem State.emptyAcc_errarg (s : State) : (s.emptyAcc).errarg = s.errarg := rfl
@[simp] theorem State.emptyAcc_errcmd (s : State) : (s.emptyAcc).errcmd = s.errcmd := rfl
@[simp] theorem State.emptyAcc_freq (s : State) : (s.emptyAcc).freq = s.freq := rfl
@[simp] theorem State.emptyAcc_node (s : State) : (s.emptyAcc).node = s.node := rfl
@[simp] theorem State.emptyAcc_code (s : State) : (s.emptyAcc).code = s.code := rfl
@[simp] theorem State.emptyAcc_host (s : State) : (s.emptyAcc).host = s.host := rfl
@[simp] theorem State.emptyAcc_responses (s : State) : (s.emptyAcc).responses = s.responses := rfl
@[simp] theorem State.emptyAcc_outb (s : State) : (s.emptyAcc).outb = s.outb := rfl
@[simp] theorem State.emptyAcc_outs (s : State) : (s.emptyAcc).outs = s.outs := rfl
@[simp] theorem State.emptyAcc_epoch (s : State) : (s.emptyAcc).epoch = s.epoch := rfl
@[simp] theorem freqAt_emptyAcc (s : State) (i : Nat) : freqAt (s.emptyAcc) i = freqAt s i := rfl
@[simp] theorem nodeAt_emptyAcc (s : State) (i : Nat) : nodeAt (s.emptyAcc) i = nodeAt s i := rfl
@[simp] theorem codeAt_emptyAcc (s : State) (i : Nat) : codeAt (s.emptyAcc) i = codeAt s i := rfl
@[simp] theorem nnode_emptyAcc (s : State) : nnode (s.emptyAcc) = nnode s := rfl

/-! ### State.setCur -/

@[simp] theorem State.setCur_cmdcnt (s : State) (c : NodeIdx) : (s.setCur c).cmdcnt = s.cmdcnt := rfl
@[simp] theorem State.setCur_treeValid (s : State) (c : NodeIdx) : (s.setCur c).treeValid = s.treeValid := rfl
@[simp] theorem State.setCur_codesValid (s : State) (c : NodeIdx) : (s.setCur c).codesValid = s.codesValid := rfl
@[simp] theorem State.setCur_encActive (s : State) (c : NodeIdx) : (s.setCur c).encActive = s.encActive := rfl
@[simp] theorem State.setCur_decActive (s : State) (c : NodeIdx) : (s.setCur c).decActive = s.decActive := rfl
@[simp] theorem State.setCur_err (s : State) (c : NodeIdx) : (s.setCur c).err = s.err := rfl
@[simp] theorem State.setCur_nsym (s : State) (c : NodeIdx) : (s.setCur c).nsym = s.nsym := rfl
@[simp] theorem State.setCur_root (s : State) (c : NodeIdx) : (s.setCur c).root = s.root := rfl
@[simp] theorem State.setCur_cur (s : State) (c : NodeIdx) : (s.setCur c).cur = c := rfl
@[simp] theorem State.setCur_acc (s : State) (c : NodeIdx) : (s.setCur c).acc = s.acc := rfl
@[simp] theorem State.setCur_nacc (s : State) (c : NodeIdx) : (s.setCur c).nacc = s.nacc := rfl
@[simp] theorem State.setCur_encbits (s : State) (c : NodeIdx) : (s.setCur c).encbits = s.encbits := rfl
@[simp] theorem State.setCur_errcode (s : State) (c : NodeIdx) : (s.setCur c).errcode = s.errcode := rfl
@[simp] theorem State.setCur_errarg (s : State) (c : NodeIdx) : (s.setCur c).errarg = s.errarg := rfl
@[simp] theorem State.setCur_errcmd (s : State) (c : NodeIdx) : (s.setCur c).errcmd = s.errcmd := rfl
@[simp] theorem State.setCur_freq (s : State) (c : NodeIdx) : (s.setCur c).freq = s.freq := rfl
@[simp] theorem State.setCur_node (s : State) (c : NodeIdx) : (s.setCur c).node = s.node := rfl
@[simp] theorem State.setCur_code (s : State) (c : NodeIdx) : (s.setCur c).code = s.code := rfl
@[simp] theorem State.setCur_host (s : State) (c : NodeIdx) : (s.setCur c).host = s.host := rfl
@[simp] theorem State.setCur_responses (s : State) (c : NodeIdx) : (s.setCur c).responses = s.responses := rfl
@[simp] theorem State.setCur_outb (s : State) (c : NodeIdx) : (s.setCur c).outb = s.outb := rfl
@[simp] theorem State.setCur_outs (s : State) (c : NodeIdx) : (s.setCur c).outs = s.outs := rfl
@[simp] theorem State.setCur_epoch (s : State) (c : NodeIdx) : (s.setCur c).epoch = s.epoch := rfl
@[simp] theorem freqAt_setCur (s : State) (c : NodeIdx) (i : Nat) : freqAt (s.setCur c) i = freqAt s i := rfl
@[simp] theorem nodeAt_setCur (s : State) (c : NodeIdx) (i : Nat) : nodeAt (s.setCur c) i = nodeAt s i := rfl
@[simp] theorem codeAt_setCur (s : State) (c : NodeIdx) (i : Nat) : codeAt (s.setCur c) i = codeAt s i := rfl
@[simp] theorem nnode_setCur (s : State) (c : NodeIdx) : nnode (s.setCur c) = nnode s := rfl

/-! ### State.setHost -/

@[simp] theorem State.setHost_cmdcnt (s : State) (rest : List HostAction) : (s.setHost rest).cmdcnt = s.cmdcnt := rfl
@[simp] theorem State.setHost_treeValid (s : State) (rest : List HostAction) : (s.setHost rest).treeValid = s.treeValid := rfl
@[simp] theorem State.setHost_codesValid (s : State) (rest : List HostAction) : (s.setHost rest).codesValid = s.codesValid := rfl
@[simp] theorem State.setHost_encActive (s : State) (rest : List HostAction) : (s.setHost rest).encActive = s.encActive := rfl
@[simp] theorem State.setHost_decActive (s : State) (rest : List HostAction) : (s.setHost rest).decActive = s.decActive := rfl
@[simp] theorem State.setHost_err (s : State) (rest : List HostAction) : (s.setHost rest).err = s.err := rfl
@[simp] theorem State.setHost_nsym (s : State) (rest : List HostAction) : (s.setHost rest).nsym = s.nsym := rfl
@[simp] theorem State.setHost_root (s : State) (rest : List HostAction) : (s.setHost rest).root = s.root := rfl
@[simp] theorem State.setHost_cur (s : State) (rest : List HostAction) : (s.setHost rest).cur = s.cur := rfl
@[simp] theorem State.setHost_acc (s : State) (rest : List HostAction) : (s.setHost rest).acc = s.acc := rfl
@[simp] theorem State.setHost_nacc (s : State) (rest : List HostAction) : (s.setHost rest).nacc = s.nacc := rfl
@[simp] theorem State.setHost_encbits (s : State) (rest : List HostAction) : (s.setHost rest).encbits = s.encbits := rfl
@[simp] theorem State.setHost_errcode (s : State) (rest : List HostAction) : (s.setHost rest).errcode = s.errcode := rfl
@[simp] theorem State.setHost_errarg (s : State) (rest : List HostAction) : (s.setHost rest).errarg = s.errarg := rfl
@[simp] theorem State.setHost_errcmd (s : State) (rest : List HostAction) : (s.setHost rest).errcmd = s.errcmd := rfl
@[simp] theorem State.setHost_freq (s : State) (rest : List HostAction) : (s.setHost rest).freq = s.freq := rfl
@[simp] theorem State.setHost_node (s : State) (rest : List HostAction) : (s.setHost rest).node = s.node := rfl
@[simp] theorem State.setHost_code (s : State) (rest : List HostAction) : (s.setHost rest).code = s.code := rfl
@[simp] theorem State.setHost_host (s : State) (rest : List HostAction) : (s.setHost rest).host = rest := rfl
@[simp] theorem State.setHost_responses (s : State) (rest : List HostAction) : (s.setHost rest).responses = s.responses := rfl
@[simp] theorem State.setHost_outb (s : State) (rest : List HostAction) : (s.setHost rest).outb = s.outb := rfl
@[simp] theorem State.setHost_outs (s : State) (rest : List HostAction) : (s.setHost rest).outs = s.outs := rfl
@[simp] theorem State.setHost_epoch (s : State) (rest : List HostAction) : (s.setHost rest).epoch = s.epoch := rfl
@[simp] theorem freqAt_setHost (s : State) (rest : List HostAction) (i : Nat) : freqAt (s.setHost rest) i = freqAt s i := rfl
@[simp] theorem nodeAt_setHost (s : State) (rest : List HostAction) (i : Nat) : nodeAt (s.setHost rest) i = nodeAt s i := rfl
@[simp] theorem codeAt_setHost (s : State) (rest : List HostAction) (i : Nat) : codeAt (s.setHost rest) i = codeAt s i := rfl
@[simp] theorem nnode_setHost (s : State) (rest : List HostAction) : nnode (s.setHost rest) = nnode s := rfl

/-! ### Updates with a case: the latch, the bit writer, the flush -/

@[simp] theorem State.latch_cmdcnt (s : State) (e : Error) (arg : BitVec 16) (n : BitVec 32) : (s.latch e arg n).cmdcnt = s.cmdcnt := by unfold State.latch; split <;> rfl
@[simp] theorem State.latch_treeValid (s : State) (e : Error) (arg : BitVec 16) (n : BitVec 32) : (s.latch e arg n).treeValid = s.treeValid := by unfold State.latch; split <;> rfl
@[simp] theorem State.latch_codesValid (s : State) (e : Error) (arg : BitVec 16) (n : BitVec 32) : (s.latch e arg n).codesValid = s.codesValid := by unfold State.latch; split <;> rfl
@[simp] theorem State.latch_encActive (s : State) (e : Error) (arg : BitVec 16) (n : BitVec 32) : (s.latch e arg n).encActive = s.encActive := by unfold State.latch; split <;> rfl
@[simp] theorem State.latch_decActive (s : State) (e : Error) (arg : BitVec 16) (n : BitVec 32) : (s.latch e arg n).decActive = s.decActive := by unfold State.latch; split <;> rfl
@[simp] theorem State.latch_nsym (s : State) (e : Error) (arg : BitVec 16) (n : BitVec 32) : (s.latch e arg n).nsym = s.nsym := by unfold State.latch; split <;> rfl
@[simp] theorem State.latch_root (s : State) (e : Error) (arg : BitVec 16) (n : BitVec 32) : (s.latch e arg n).root = s.root := by unfold State.latch; split <;> rfl
@[simp] theorem State.latch_cur (s : State) (e : Error) (arg : BitVec 16) (n : BitVec 32) : (s.latch e arg n).cur = s.cur := by unfold State.latch; split <;> rfl
@[simp] theorem State.latch_acc (s : State) (e : Error) (arg : BitVec 16) (n : BitVec 32) : (s.latch e arg n).acc = s.acc := by unfold State.latch; split <;> rfl
@[simp] theorem State.latch_nacc (s : State) (e : Error) (arg : BitVec 16) (n : BitVec 32) : (s.latch e arg n).nacc = s.nacc := by unfold State.latch; split <;> rfl
@[simp] theorem State.latch_encbits (s : State) (e : Error) (arg : BitVec 16) (n : BitVec 32) : (s.latch e arg n).encbits = s.encbits := by unfold State.latch; split <;> rfl
@[simp] theorem State.latch_freq (s : State) (e : Error) (arg : BitVec 16) (n : BitVec 32) : (s.latch e arg n).freq = s.freq := by unfold State.latch; split <;> rfl
@[simp] theorem State.latch_node (s : State) (e : Error) (arg : BitVec 16) (n : BitVec 32) : (s.latch e arg n).node = s.node := by unfold State.latch; split <;> rfl
@[simp] theorem State.latch_code (s : State) (e : Error) (arg : BitVec 16) (n : BitVec 32) : (s.latch e arg n).code = s.code := by unfold State.latch; split <;> rfl
@[simp] theorem State.latch_host (s : State) (e : Error) (arg : BitVec 16) (n : BitVec 32) : (s.latch e arg n).host = s.host := by unfold State.latch; split <;> rfl
@[simp] theorem State.latch_responses (s : State) (e : Error) (arg : BitVec 16) (n : BitVec 32) : (s.latch e arg n).responses = s.responses := by unfold State.latch; split <;> rfl
@[simp] theorem State.latch_outb (s : State) (e : Error) (arg : BitVec 16) (n : BitVec 32) : (s.latch e arg n).outb = s.outb := by unfold State.latch; split <;> rfl
@[simp] theorem State.latch_outs (s : State) (e : Error) (arg : BitVec 16) (n : BitVec 32) : (s.latch e arg n).outs = s.outs := by unfold State.latch; split <;> rfl
@[simp] theorem State.latch_epoch (s : State) (e : Error) (arg : BitVec 16) (n : BitVec 32) : (s.latch e arg n).epoch = s.epoch := by unfold State.latch; split <;> rfl
@[simp] theorem freqAt_latch (s : State) (e : Error) (arg : BitVec 16) (n : BitVec 32) (i : Nat) : freqAt (s.latch e arg n) i = freqAt s i := by unfold State.latch; split <;> rfl
@[simp] theorem nodeAt_latch (s : State) (e : Error) (arg : BitVec 16) (n : BitVec 32) (i : Nat) : nodeAt (s.latch e arg n) i = nodeAt s i := by unfold State.latch; split <;> rfl
@[simp] theorem codeAt_latch (s : State) (e : Error) (arg : BitVec 16) (n : BitVec 32) (i : Nat) : codeAt (s.latch e arg n) i = codeAt s i := by unfold State.latch; split <;> rfl

@[simp] theorem State.putBit_cmdcnt (s : State) (b : Bool) : (s.putBit b).cmdcnt = s.cmdcnt := by unfold State.putBit; split <;> rfl
@[simp] theorem State.putBit_treeValid (s : State) (b : Bool) : (s.putBit b).treeValid = s.treeValid := by unfold State.putBit; split <;> rfl
@[simp] theorem State.putBit_codesValid (s : State) (b : Bool) : (s.putBit b).codesValid = s.codesValid := by unfold State.putBit; split <;> rfl
@[simp] theorem State.putBit_encActive (s : State) (b : Bool) : (s.putBit b).encActive = s.encActive := by unfold State.putBit; split <;> rfl
@[simp] theorem State.putBit_decActive (s : State) (b : Bool) : (s.putBit b).decActive = s.decActive := by unfold State.putBit; split <;> rfl
@[simp] theorem State.putBit_err (s : State) (b : Bool) : (s.putBit b).err = s.err := by unfold State.putBit; split <;> rfl
@[simp] theorem State.putBit_nsym (s : State) (b : Bool) : (s.putBit b).nsym = s.nsym := by unfold State.putBit; split <;> rfl
@[simp] theorem State.putBit_root (s : State) (b : Bool) : (s.putBit b).root = s.root := by unfold State.putBit; split <;> rfl
@[simp] theorem State.putBit_cur (s : State) (b : Bool) : (s.putBit b).cur = s.cur := by unfold State.putBit; split <;> rfl
@[simp] theorem State.putBit_errcode (s : State) (b : Bool) : (s.putBit b).errcode = s.errcode := by unfold State.putBit; split <;> rfl
@[simp] theorem State.putBit_errarg (s : State) (b : Bool) : (s.putBit b).errarg = s.errarg := by unfold State.putBit; split <;> rfl
@[simp] theorem State.putBit_errcmd (s : State) (b : Bool) : (s.putBit b).errcmd = s.errcmd := by unfold State.putBit; split <;> rfl
@[simp] theorem State.putBit_freq (s : State) (b : Bool) : (s.putBit b).freq = s.freq := by unfold State.putBit; split <;> rfl
@[simp] theorem State.putBit_node (s : State) (b : Bool) : (s.putBit b).node = s.node := by unfold State.putBit; split <;> rfl
@[simp] theorem State.putBit_code (s : State) (b : Bool) : (s.putBit b).code = s.code := by unfold State.putBit; split <;> rfl
@[simp] theorem State.putBit_host (s : State) (b : Bool) : (s.putBit b).host = s.host := by unfold State.putBit; split <;> rfl
@[simp] theorem State.putBit_responses (s : State) (b : Bool) : (s.putBit b).responses = s.responses := by unfold State.putBit; split <;> rfl
@[simp] theorem State.putBit_outs (s : State) (b : Bool) : (s.putBit b).outs = s.outs := by unfold State.putBit; split <;> rfl
@[simp] theorem State.putBit_epoch (s : State) (b : Bool) : (s.putBit b).epoch = s.epoch := by unfold State.putBit; split <;> rfl
@[simp] theorem freqAt_putBit (s : State) (b : Bool) (i : Nat) : freqAt (s.putBit b) i = freqAt s i := by unfold State.putBit; split <;> rfl
@[simp] theorem nodeAt_putBit (s : State) (b : Bool) (i : Nat) : nodeAt (s.putBit b) i = nodeAt s i := by unfold State.putBit; split <;> rfl
@[simp] theorem codeAt_putBit (s : State) (b : Bool) (i : Nat) : codeAt (s.putBit b) i = codeAt s i := by unfold State.putBit; split <;> rfl

@[simp] theorem State.putBits_cmdcnt (s : State) (l : List Bool) : (s.putBits l).cmdcnt = s.cmdcnt := by
  induction l generalizing s with
  | nil => rfl
  | cons b rest ih => exact (ih (s.putBit b)).trans (State.putBit_cmdcnt s b)
@[simp] theorem State.putBits_treeValid (s : State) (l : List Bool) : (s.putBits l).treeValid = s.treeValid := by
  induction l generalizing s with
  | nil => rfl
  | cons b rest ih => exact (ih (s.putBit b)).trans (State.putBit_treeValid s b)
@[simp] theorem State.putBits_codesValid (s : State) (l : List Bool) : (s.putBits l).codesValid = s.codesValid := by
  induction l generalizing s with
  | nil => rfl
  | cons b rest ih => exact (ih (s.putBit b)).trans (State.putBit_codesValid s b)
@[simp] theorem State.putBits_encActive (s : State) (l : List Bool) : (s.putBits l).encActive = s.encActive := by
  induction l generalizing s with
  | nil => rfl
  | cons b rest ih => exact (ih (s.putBit b)).trans (State.putBit_encActive s b)
@[simp] theorem State.putBits_decActive (s : State) (l : List Bool) : (s.putBits l).decActive = s.decActive := by
  induction l generalizing s with
  | nil => rfl
  | cons b rest ih => exact (ih (s.putBit b)).trans (State.putBit_decActive s b)
@[simp] theorem State.putBits_err (s : State) (l : List Bool) : (s.putBits l).err = s.err := by
  induction l generalizing s with
  | nil => rfl
  | cons b rest ih => exact (ih (s.putBit b)).trans (State.putBit_err s b)
@[simp] theorem State.putBits_nsym (s : State) (l : List Bool) : (s.putBits l).nsym = s.nsym := by
  induction l generalizing s with
  | nil => rfl
  | cons b rest ih => exact (ih (s.putBit b)).trans (State.putBit_nsym s b)
@[simp] theorem State.putBits_root (s : State) (l : List Bool) : (s.putBits l).root = s.root := by
  induction l generalizing s with
  | nil => rfl
  | cons b rest ih => exact (ih (s.putBit b)).trans (State.putBit_root s b)
@[simp] theorem State.putBits_cur (s : State) (l : List Bool) : (s.putBits l).cur = s.cur := by
  induction l generalizing s with
  | nil => rfl
  | cons b rest ih => exact (ih (s.putBit b)).trans (State.putBit_cur s b)
@[simp] theorem State.putBits_errcode (s : State) (l : List Bool) : (s.putBits l).errcode = s.errcode := by
  induction l generalizing s with
  | nil => rfl
  | cons b rest ih => exact (ih (s.putBit b)).trans (State.putBit_errcode s b)
@[simp] theorem State.putBits_errarg (s : State) (l : List Bool) : (s.putBits l).errarg = s.errarg := by
  induction l generalizing s with
  | nil => rfl
  | cons b rest ih => exact (ih (s.putBit b)).trans (State.putBit_errarg s b)
@[simp] theorem State.putBits_errcmd (s : State) (l : List Bool) : (s.putBits l).errcmd = s.errcmd := by
  induction l generalizing s with
  | nil => rfl
  | cons b rest ih => exact (ih (s.putBit b)).trans (State.putBit_errcmd s b)
@[simp] theorem State.putBits_freq (s : State) (l : List Bool) : (s.putBits l).freq = s.freq := by
  induction l generalizing s with
  | nil => rfl
  | cons b rest ih => exact (ih (s.putBit b)).trans (State.putBit_freq s b)
@[simp] theorem State.putBits_node (s : State) (l : List Bool) : (s.putBits l).node = s.node := by
  induction l generalizing s with
  | nil => rfl
  | cons b rest ih => exact (ih (s.putBit b)).trans (State.putBit_node s b)
@[simp] theorem State.putBits_code (s : State) (l : List Bool) : (s.putBits l).code = s.code := by
  induction l generalizing s with
  | nil => rfl
  | cons b rest ih => exact (ih (s.putBit b)).trans (State.putBit_code s b)
@[simp] theorem State.putBits_host (s : State) (l : List Bool) : (s.putBits l).host = s.host := by
  induction l generalizing s with
  | nil => rfl
  | cons b rest ih => exact (ih (s.putBit b)).trans (State.putBit_host s b)
@[simp] theorem State.putBits_responses (s : State) (l : List Bool) : (s.putBits l).responses = s.responses := by
  induction l generalizing s with
  | nil => rfl
  | cons b rest ih => exact (ih (s.putBit b)).trans (State.putBit_responses s b)
@[simp] theorem State.putBits_outs (s : State) (l : List Bool) : (s.putBits l).outs = s.outs := by
  induction l generalizing s with
  | nil => rfl
  | cons b rest ih => exact (ih (s.putBit b)).trans (State.putBit_outs s b)
@[simp] theorem State.putBits_epoch (s : State) (l : List Bool) : (s.putBits l).epoch = s.epoch := by
  induction l generalizing s with
  | nil => rfl
  | cons b rest ih => exact (ih (s.putBit b)).trans (State.putBit_epoch s b)
@[simp] theorem freqAt_putBits (s : State) (l : List Bool) (i : Nat) : freqAt (s.putBits l) i = freqAt s i := by
  induction l generalizing s with
  | nil => rfl
  | cons b rest ih => exact (ih (s.putBit b)).trans (freqAt_putBit s b i)
@[simp] theorem nodeAt_putBits (s : State) (l : List Bool) (i : Nat) : nodeAt (s.putBits l) i = nodeAt s i := by
  induction l generalizing s with
  | nil => rfl
  | cons b rest ih => exact (ih (s.putBit b)).trans (nodeAt_putBit s b i)
@[simp] theorem codeAt_putBits (s : State) (l : List Bool) (i : Nat) : codeAt (s.putBits l) i = codeAt s i := by
  induction l generalizing s with
  | nil => rfl
  | cons b rest ih => exact (ih (s.putBit b)).trans (codeAt_putBit s b i)

@[simp] theorem State.flush_cmdcnt (s : State) : (s.flush).cmdcnt = s.cmdcnt := by unfold State.flush; split <;> rfl
@[simp] theorem State.flush_treeValid (s : State) : (s.flush).treeValid = s.treeValid := by unfold State.flush; split <;> rfl
@[simp] theorem State.flush_codesValid (s : State) : (s.flush).codesValid = s.codesValid := by unfold State.flush; split <;> rfl
@[simp] theorem State.flush_encActive (s : State) : (s.flush).encActive = s.encActive := by unfold State.flush; split <;> rfl
@[simp] theorem State.flush_decActive (s : State) : (s.flush).decActive = s.decActive := by unfold State.flush; split <;> rfl
@[simp] theorem State.flush_err (s : State) : (s.flush).err = s.err := by unfold State.flush; split <;> rfl
@[simp] theorem State.flush_nsym (s : State) : (s.flush).nsym = s.nsym := by unfold State.flush; split <;> rfl
@[simp] theorem State.flush_root (s : State) : (s.flush).root = s.root := by unfold State.flush; split <;> rfl
@[simp] theorem State.flush_cur (s : State) : (s.flush).cur = s.cur := by unfold State.flush; split <;> rfl
@[simp] theorem State.flush_acc (s : State) : (s.flush).acc = s.acc := by unfold State.flush; split <;> rfl
@[simp] theorem State.flush_nacc (s : State) : (s.flush).nacc = s.nacc := by unfold State.flush; split <;> rfl
@[simp] theorem State.flush_encbits (s : State) : (s.flush).encbits = s.encbits := by unfold State.flush; split <;> rfl
@[simp] theorem State.flush_errcode (s : State) : (s.flush).errcode = s.errcode := by unfold State.flush; split <;> rfl
@[simp] theorem State.flush_errarg (s : State) : (s.flush).errarg = s.errarg := by unfold State.flush; split <;> rfl
@[simp] theorem State.flush_errcmd (s : State) : (s.flush).errcmd = s.errcmd := by unfold State.flush; split <;> rfl
@[simp] theorem State.flush_freq (s : State) : (s.flush).freq = s.freq := by unfold State.flush; split <;> rfl
@[simp] theorem State.flush_node (s : State) : (s.flush).node = s.node := by unfold State.flush; split <;> rfl
@[simp] theorem State.flush_code (s : State) : (s.flush).code = s.code := by unfold State.flush; split <;> rfl
@[simp] theorem State.flush_host (s : State) : (s.flush).host = s.host := by unfold State.flush; split <;> rfl
@[simp] theorem State.flush_responses (s : State) : (s.flush).responses = s.responses := by unfold State.flush; split <;> rfl
@[simp] theorem State.flush_outs (s : State) : (s.flush).outs = s.outs := by unfold State.flush; split <;> rfl
@[simp] theorem State.flush_epoch (s : State) : (s.flush).epoch = s.epoch := by unfold State.flush; split <;> rfl
@[simp] theorem freqAt_flush (s : State) (i : Nat) : freqAt s.flush i = freqAt s i := by unfold State.flush; split <;> rfl
@[simp] theorem nodeAt_flush (s : State) (i : Nat) : nodeAt s.flush i = nodeAt s i := by unfold State.flush; split <;> rfl
@[simp] theorem codeAt_flush (s : State) (i : Nat) : codeAt s.flush i = codeAt s i := by unfold State.flush; split <;> rfl

theorem State.flush_outb (s : State) : s.flush.outb = s.outb ++ if s.nacc = 0#3 then [] else [s.acc] := by
  unfold State.flush
  split <;> simp

@[simp] theorem freqAt_clearFreq (s : State) (i : Nat) : freqAt s.clearFreq i = 0#32 := rfl

@[simp] theorem freqAt_doReset (s : State) (i : Nat) : freqAt s.doReset i = 0#32 := rfl

/-- A NODE entry after a tree is stored: the tree's nodes, and above them what stood there. -/
theorem nodeAt_storeTree (s : State) (n : Nat) (t : BuiltTree) (i : Nat) :
    nodeAt (s.storeTree n t) i = if h : i < t.nodes.length then t.nodes[i] else nodeAt s i := by
  simp only [nodeAt, State.storeTree_node, State.storeTree_epoch, Memory.read_writeFrom]
  by_cases h : i < t.nodes.length <;> simp [h]

end Sys2Proof.Machine
end

