-- ==== Sys2Proof/Laws/Codes.lean ====
section
/-! SUPPORT. Laws of the code-table walk (42_code_assigner.md R130): what it writes where, and that it keeps the table's form. -/

namespace Sys2Proof.Machine

/-- The stored entry of a code of at most MAXLEN bits gives the code back. -/
@[simp] theorem codeBits_storeCode (c : List Bool) (h : c.length ≤ 255) : codeBits (storeCode c) = c :=
  codeBits_of_storeBits c h

theorem storeCode_valid (c : List Bool) : (storeCode c).valid = true := rfl

/-- The empty table lists every symbol, absent. -/
theorem read_emptyTable {a : Nat} (h : a < 256) : Memory.read emptyTable a = some absentCode := by
  have key : ∀ l : List Nat, a ∈ l → Memory.read (l.map fun a => (a, absentCode)) a = some absentCode := by
    intro l
    induction l with
    | nil => simp
    | cons b rest ih =>
      intro hm
      simp only [List.map_cons, Memory.read]
      split
      · rfl
      · exact ih ((List.mem_cons.1 hm).resolve_left ‹_›)
  exact key _ (List.mem_range.2 h)

theorem wf_emptyTable : Memory.wf Config.nSymMax emptyTable = true := by
  rw [Memory.wf_iff]
  refine ⟨fun e he => ?_, ?_⟩
  · obtain ⟨b, hb, rfl⟩ := List.mem_map.1 he
    exact List.mem_range.1 hb
  · exact List.pairwise_map.2 (List.pairwise_lt_range.imp (fun h => h))

variable (s : State) (fuel : Nat) (i : NodeIdx) (c : List Bool) (table : Memory CodeEntry)

theorem walk_leaf (h : (nodeAt s i.toNat).leaf = true) :
    walk s (fuel + 1) i c table = table.write (nodeAt s i.toNat).sym.toNat (storeCode c) := by
  simp [walk, h]

theorem walk_inner (h : (nodeAt s i.toNat).leaf = false) :
    walk s (fuel + 1) i c table =
      walk s fuel (nodeAt s i.toNat).right (c ++ [true])
        (walk s fuel (nodeAt s i.toNat).left (c ++ [false]) table) := by
  simp [walk, h]

/-- The walk keeps the table canonical. -/
theorem wf_walk {table : Memory CodeEntry} (h : Memory.wf Config.nSymMax table = true) :
    Memory.wf Config.nSymMax (walk s fuel i c table) = true := by
  induction fuel generalizing i c table with
  | zero => exact h
  | succ fuel ih =>
    cases hl : (nodeAt s i.toNat).leaf with
    | true =>
      rw [walk_leaf s fuel i c table hl]
      exact Memory.wf_write h (nodeAt s i.toNat).sym.isLt _
    | false =>
      rw [walk_inner s fuel i c table hl]
      exact ih _ _ (ih _ _ h)

/-- An entry after the walk is what it was, or the stored form of a string that goes on from the walk's. -/
theorem read_walk (a : Nat) : (walk s fuel i c table).read a = table.read a ∨
    ∃ rest, (walk s fuel i c table).read a = some (storeCode (c ++ rest)) := by
  induction fuel generalizing i c table with
  | zero => exact .inl rfl
  | succ fuel ih =>
    cases hl : (nodeAt s i.toNat).leaf with
    | true =>
      rw [walk_leaf s fuel i c table hl, Memory.read_write]
      split
      · exact .inr ⟨[], by simp⟩
      · exact .inl rfl
    | false =>
      rw [walk_inner s fuel i c table hl]
      rcases ih (nodeAt s i.toNat).right (c ++ [true]) (walk s fuel (nodeAt s i.toNat).left (c ++ [false]) table) with h | ⟨r, h⟩
      · rcases ih (nodeAt s i.toNat).left (c ++ [false]) table with h' | ⟨r, h'⟩
        · exact .inl (h.trans h')
        · exact .inr ⟨false :: r, by simp [h, h']⟩
      · exact .inr ⟨true :: r, by simp [h]⟩

/-- ASSIGN's table is canonical. -/
theorem wf_codeTable : Memory.wf Config.nSymMax (codeTable s) = true := by
  simp only [codeTable]
  split
  · exact Memory.wf_write wf_emptyTable (nodeAt s s.root.toNat).sym.isLt _
  · exact wf_walk s _ _ _ wf_emptyTable

end Sys2Proof.Machine
end

