-- ==== Sys2Proof/Laws/Decode.lean ====
section
/-! SUPPORT. Laws of command words: the four fields of 30_encoding.md R80 of a concatenation, a word as the concatenation of its
fields, and what each format's check says. -/

namespace Sys2Proof

variable (a b : BitVec 8) (c : BitVec 16) (d : BitVec 32)

/-- The number a concatenation of four fields stands for. -/
theorem toNat_fields : (a ++ b ++ c ++ d).toNat = a.toNat * 2 ^ 56 + b.toNat * 2 ^ 48 + c.toNat * 2 ^ 32 + d.toNat := by
  have hb := b.isLt; have hc := c.isLt; have hd := d.isLt
  rw [BitVec.toNat_append, ← Nat.shiftLeft_add_eq_or_of_lt hd,
    BitVec.toNat_append, ← Nat.shiftLeft_add_eq_or_of_lt hc, BitVec.toNat_append, ← Nat.shiftLeft_add_eq_or_of_lt hb]
  simp only [Nat.shiftLeft_eq]
  omega

@[simp] theorem fieldOp_append : fieldOp (a ++ b ++ c ++ d) = a := by
  apply BitVec.eq_of_toNat_eq
  have ha := a.isLt; have hb := b.isLt; have hc := c.isLt; have hd := d.isLt
  rw [fieldOp, BitVec.extractLsb'_toNat, toNat_fields, Nat.shiftRight_eq_div_pow]
  omega

@[simp] theorem fieldAux_append : fieldAux (a ++ b ++ c ++ d) = b := by
  apply BitVec.eq_of_toNat_eq
  have ha := a.isLt; have hb := b.isLt; have hc := c.isLt; have hd := d.isLt
  rw [fieldAux, BitVec.extractLsb'_toNat, toNat_fields, Nat.shiftRight_eq_div_pow]
  omega

@[simp] theorem fieldIdx_append : fieldIdx (a ++ b ++ c ++ d) = c := by
  apply BitVec.eq_of_toNat_eq
  have ha := a.isLt; have hb := b.isLt; have hc := c.isLt; have hd := d.isLt
  rw [fieldIdx, BitVec.extractLsb'_toNat, toNat_fields, Nat.shiftRight_eq_div_pow]
  omega

@[simp] theorem fieldImm_append : fieldImm (a ++ b ++ c ++ d) = d := by
  apply BitVec.eq_of_toNat_eq
  have ha := a.isLt; have hb := b.isLt; have hc := c.isLt; have hd := d.isLt
  rw [fieldImm, BitVec.extractLsb'_toNat, toNat_fields, Nat.shiftRight_eq_div_pow]
  omega

/-- A word is its four fields. -/
theorem word_eq_fields (w : Word) : fieldOp w ++ fieldAux w ++ fieldIdx w ++ fieldImm w = w := by
  apply BitVec.eq_of_toNat_eq
  have hw := w.isLt
  rw [toNat_fields]
  simp only [fieldOp, fieldAux, fieldIdx, fieldImm, BitVec.extractLsb'_toNat, Nat.shiftRight_eq_div_pow]
  omega

@[simp] theorem fieldOp_encode (i : Instr) : fieldOp (encode i) = opcodeOf i := fieldOp_append _ _ _ _

@[simp] theorem fieldAux_encode (i : Instr) : fieldAux (encode i) = auxOf i := fieldAux_append _ _ _ _

@[simp] theorem fieldIdx_encode (i : Instr) : fieldIdx (encode i) = idxOf i := fieldIdx_append _ _ _ _

@[simp] theorem fieldImm_encode (i : Instr) : fieldImm (encode i) = immOf i := fieldImm_append _ _ _ _

/-- A format's check answers its command exactly when the must-be-zero bits are zero. -/
theorem checkZero_eq_ok {w : Word} {ok : Bool} {i j : Instr} : checkZero w ok i = .ok j ↔ ok = true ∧ i = j := by
  cases ok <;> simp [checkZero]

/-- A format's check never reports an undefined opcode. -/
theorem checkZero_ne_undefined {w : Word} {ok : Bool} {i : Instr} (op : BitVec 8) :
    checkZero w ok i ≠ .error (.undefinedOpcode op) := by
  cases ok <;> simp [checkZero]

end Sys2Proof
end

