-- ==== Sys2Proof/Laws/Decoder.lean ====
section
/-! SUPPORT. Laws of the decoder's walk (44_decoder.md R171, R172). -/

namespace Sys2Proof.Machine

variable {s : State}

/-- With two or more leaves a bit cannot fail (R171). -/
theorem decStep_inner (h : (nodeAt s s.root.toNat).leaf = false) (cur : NodeIdx) (b : Bool) :
    decStep s cur b = if (nodeAt s (childOf (nodeAt s cur.toNat) b).toNat).leaf
      then some ⟨s.root, some (nodeAt s (childOf (nodeAt s cur.toNat) b).toNat).sym⟩
      else some ⟨childOf (nodeAt s cur.toNat) b, none⟩ := by
  simp [decStep, h]

/-- With a single leaf, a 0 emits it and a 1 fails (R171). -/
theorem decStep_single (h : (nodeAt s s.root.toNat).leaf = true) (cur : NodeIdx) (b : Bool) :
    decStep s cur b = if b then none else some ⟨cur, some (nodeAt s s.root.toNat).sym⟩ := by
  simp [decStep, h]

/-- One bit of the loop. -/
theorem decRun_cons (i : Nat) (cur : NodeIdx) (b : Bool) (rest : List Bool) {m : DecMove} (h : decStep s cur b = some m) :
    decRun s i cur (b :: rest) =
      match decRun s (i + 1) m.cur rest with
      | .failed j => .failed j
      | .done c syms => .done c (m.emit.toList ++ syms) := by
  simp only [decRun, h] <;> rfl

/-- The bit number matters only to a failure. -/
theorem decRun_done_of_done {i : Nat} {cur c : NodeIdx} {bits : List Bool} {syms : List Symbol}
    (h : decRun s i cur bits = .done c syms) (j : Nat) : decRun s j cur bits = .done c syms := by
  induction bits generalizing i j cur c syms with
  | nil => simpa [decRun] using h
  | cons b rest ih =>
    cases hs : decStep s cur b with
    | none => simp [decRun, hs] at h
    | some m =>
      rw [decRun_cons i cur b rest hs] at h
      rw [decRun_cons j cur b rest hs]
      cases hr : decRun s (i + 1) m.cur rest with
      | failed k => simp [hr] at h
      | done c' syms' =>
        rw [hr] at h
        rw [ih hr (j + 1)]
        exact h

/-- Bits in two parts: the second goes on from where the first stops. -/
theorem decRun_append {i : Nat} {cur c d : NodeIdx} {bits rest : List Bool} {syms more : List Symbol}
    (h : decRun s i cur bits = .done c syms) (h' : decRun s 0 c rest = .done d more) :
    decRun s i cur (bits ++ rest) = .done d (syms ++ more) := by
  induction bits generalizing i cur c syms with
  | nil =>
    simp only [decRun, DecRun.done.injEq] at h
    obtain ⟨rfl, rfl⟩ := h
    simpa using decRun_done_of_done h' i
  | cons b tail ih =>
    cases hs : decStep s cur b with
    | none => simp [decRun, hs] at h
    | some m =>
      rw [decRun_cons i cur b tail hs] at h
      rw [List.cons_append, decRun_cons i cur b (tail ++ rest) hs]
      cases hr : decRun s (i + 1) m.cur tail with
      | failed k => simp [hr] at h
      | done c' syms' =>
        rw [hr] at h
        simp only [DecRun.done.injEq] at h
        obtain ⟨rfl, rfl⟩ := h
        rw [ih hr h']
        simp

/-- With two or more leaves the bits of a DEC never fail. -/
theorem decRun_inner (h : (nodeAt s s.root.toNat).leaf = false) (i : Nat) (cur : NodeIdx) (bits : List Bool) :
    ∃ c syms, decRun s i cur bits = .done c syms ∧ syms.length ≤ bits.length := by
  induction bits generalizing i cur with
  | nil => exact ⟨cur, [], rfl, by simp⟩
  | cons b rest ih =>
    have hs := decStep_inner h cur b
    split at hs
    · obtain ⟨c, syms, hr, hl⟩ := ih (i + 1) s.root
      exact ⟨c, _ :: syms, by rw [decRun_cons i cur b rest hs, hr]; rfl, by simpa using hl⟩
    · obtain ⟨c, syms, hr, hl⟩ := ih (i + 1) (childOf (nodeAt s cur.toNat) b)
      exact ⟨c, syms, by rw [decRun_cons i cur b rest hs, hr]; rfl, by simp; omega⟩

end Sys2Proof.Machine
end

