-- ==== Sys2Proof/Laws/Encoder.lean ====
section
/-! SUPPORT. Laws of the bit writer (43_encoder.md R151): what putBit does to the bits held and the bytes emitted, and so putBits. -/

namespace Sys2Proof.Machine

/-- One bit put into the byte held, for every byte, count and bit (R151). -/
theorem accWith_bits : ∀ (acc : Byte) (nacc : BitVec 3) (b : Bool), acc.toNat % 2 ^ (8 - nacc.toNat) = 0 →
    (nacc ≠ 7#3 → (accWith acc nacc b).toNat % 2 ^ (8 - (nacc + 1#3).toNat) = 0 ∧
      (List.range (nacc + 1#3).toNat).map (fun i => (accWith acc nacc b).getLsbD (7 - i)) =
        (List.range nacc.toNat).map (fun i => acc.getLsbD (7 - i)) ++ [b]) ∧
    (nacc = 7#3 → byteBits (accWith acc nacc b) = (List.range nacc.toNat).map (fun i => acc.getLsbD (7 - i)) ++ [b]) := by
  decide +kernel

theorem pendingBits_length (s : State) : (pendingBits s).length = s.nacc.toNat := by simp [pendingBits]

/-- One bit written: the bytes emitted and the bits held are those of before, and the bit (R151). -/
theorem putBit_bits (s : State) (b : Bool) (h : s.acc.toNat % 2 ^ (8 - s.nacc.toNat) = 0) :
    ∃ bytes, (s.putBit b).outb = s.outb ++ bytes ∧
      bytes.flatMap byteBits ++ pendingBits (s.putBit b) = pendingBits s ++ [b] ∧
      (s.putBit b).acc.toNat % 2 ^ (8 - (s.putBit b).nacc.toNat) = 0 := by
  have key := accWith_bits s.acc s.nacc b h
  by_cases h7 : s.nacc = 7#3
  · refine ⟨[accWith s.acc s.nacc b], by simp [State.putBit, h7], ?_, by simp [State.putBit, h7]⟩
    have hp : pendingBits (s.putBit b) = [] := by simp [pendingBits, State.putBit, h7]
    rw [hp]
    simpa [pendingBits] using key.2 h7
  · refine ⟨[], by simp [State.putBit, h7], ?_, ?_⟩
    · simpa [pendingBits, State.putBit, h7] using (key.1 h7).2
    · simpa [State.putBit, h7] using (key.1 h7).1

/-- Bits written: the bytes emitted and the bits held are those of before, and the bits, in order (R153). -/
theorem putBits_bits (bits : List Bool) (s : State) (h : s.acc.toNat % 2 ^ (8 - s.nacc.toNat) = 0) :
    ∃ bytes, (s.putBits bits).outb = s.outb ++ bytes ∧
      bytes.flatMap byteBits ++ pendingBits (s.putBits bits) = pendingBits s ++ bits ∧
      (s.putBits bits).acc.toNat % 2 ^ (8 - (s.putBits bits).nacc.toNat) = 0 := by
  induction bits generalizing s with
  | nil => exact ⟨[], by simp [State.putBits], by simp [State.putBits], h⟩
  | cons b rest ih =>
    obtain ⟨x, hx, hb, hz⟩ := putBit_bits s b h
    obtain ⟨y, hy, hr, hz'⟩ := ih (s.putBit b) hz
    refine ⟨x ++ y, ?_, ?_, hz'⟩
    · show ((s.putBit b).putBits rest).outb = _
      rw [hy, hx, List.append_assoc]
    · show (x ++ y).flatMap byteBits ++ pendingBits ((s.putBit b).putBits rest) = _
      rw [List.flatMap_append, List.append_assoc, hr, ← List.append_assoc, hb, List.append_assoc]
      rfl

/-- ENCBITS counts the bits written (R151). -/
theorem putBits_encbits (bits : List Bool) (s : State) : (s.putBits bits).encbits = s.encbits + BitVec.ofNat 64 bits.length := by
  induction bits generalizing s with
  | nil => simp [State.putBits]
  | cons b rest ih =>
    show ((s.putBit b).putBits rest).encbits = _
    have hb : (s.putBit b).encbits = s.encbits + 1#64 := by unfold State.putBit; split <;> rfl
    rw [ih, hb, List.length_cons, BitVec.add_assoc, ← BitVec.ofNat_add, Nat.add_comm]

/-- NACC counts them modulo 8 (R151). -/
theorem putBits_nacc (bits : List Bool) (s : State) : (s.putBits bits).nacc = s.nacc + BitVec.ofNat 3 bits.length := by
  induction bits generalizing s with
  | nil => simp [State.putBits]
  | cons b rest ih =>
    show ((s.putBit b).putBits rest).nacc = _
    have hb : (s.putBit b).nacc = s.nacc + 1#3 := by
      unfold State.putBit
      split
      · rename_i h; rw [h]; rfl
      · rfl
    rw [ih, hb, List.length_cons, BitVec.add_assoc, ← BitVec.ofNat_add, Nat.add_comm]

end Sys2Proof.Machine
end

