-- ==== Sys2Proof/Laws/Ops.lean ====
section
/-! SUPPORT. What the shared operations can do, said once: the prologue of a command (45_control.md R198), the FAULTED check, the
sequence check, raising an error. The provers cite these instead of unfolding the operations. -/

namespace Sys2Proof.Machine

variable {action : State → Effect} {s s' : State} {d : Word} {e : Error} {arg : BitVec 16}

/-! ### The checks -/

theorem refuseIfFaulted_of_normal (action : State → Effect) (h : s.err = false) : refuseIfFaulted action s = action s := by
  simp [refuseIfFaulted, h]

theorem refuseIfFaulted_of_faulted (action : State → Effect) (h : s.err = true) :
    refuseIfFaulted action s = .raise .faultedRefusal 0#16 := by
  simp [refuseIfFaulted, h]

/-- The FAULTED check of an accepted command, outside FAULTED mode. -/
theorem refuseIfFaulted_accept (action : State → Effect) (h : s.err = false) :
    refuseIfFaulted action s.accept = action s.accept :=
  refuseIfFaulted_of_normal action (by simpa using h)

theorem require_of_set {flag : State → Bool} (opcode : BitVec 8) (action : State → Effect) (h : flag s = true) :
    require flag opcode action s = action s := by
  simp [require, h]

theorem require_of_clear {flag : State → Bool} (opcode : BitVec 8) (action : State → Effect) (h : flag s = false) :
    require flag opcode action s = .raise .sequenceError (opcode.setWidth 16) := by
  simp [require, h]

/-! ### The latch -/

/-- The first unacknowledged error is latched, unless it is FaultedRefusal (R206). -/
theorem State.latch_of_normal (arg : BitVec 16) (n : BitVec 32) (h : s.err = false) (he : e ≠ .faultedRefusal) :
    s.latch e arg n = { s with err := true, errcode := e.code, errarg := arg, errcmd := n } := by
  simp [State.latch, h, he]

/-- While an error is latched nothing is latched (R206, R209). -/
theorem State.latch_of_faulted (e : Error) (arg : BitVec 16) (n : BitVec 32) (h : s.err = true) : s.latch e arg n = s := by
  simp [State.latch, h]

/-- FaultedRefusal is never latched (R206). -/
@[simp] theorem State.latch_faultedRefusal (s : State) (arg : BitVec 16) (n : BitVec 32) :
    s.latch .faultedRefusal arg n = s := by
  simp [State.latch]

/-! ### Reflexive frames -/

theorem KeepsTree.refl (s : State) : KeepsTree s s := ⟨rfl, rfl, rfl, fun _ => rfl⟩

theorem KeepsCodes.refl (s : State) : KeepsCodes s s := ⟨rfl, fun _ => rfl⟩

theorem KeepsEncoder.refl (s : State) : KeepsEncoder s s := ⟨rfl, rfl, rfl, rfl, rfl⟩

theorem KeepsDecoder.refl (s : State) : KeepsDecoder s s := ⟨rfl, rfl, rfl⟩

theorem KeepsErrors.refl (s : State) : KeepsErrors s s := ⟨rfl, rfl, rfl, rfl⟩

/-- Accepting and answering a command changes nothing but CMDCNT and the response log. -/
theorem keepsAllButErrors_accept_respond (s : State) (r : Response) : KeepsAllButErrors s (s.accept.respond r) :=
  ⟨fun _ => rfl, ⟨rfl, rfl, rfl, fun _ => rfl⟩, ⟨rfl, fun _ => rfl⟩, ⟨rfl, rfl, rfl, rfl, rfl⟩, ⟨rfl, rfl, rfl⟩⟩

theorem keepsErrors_accept_respond (s : State) (r : Response) : KeepsErrors s (s.accept.respond r) :=
  ⟨rfl, rfl, rfl, rfl⟩

/-! ### A command's end -/

/-- A command whose action responds leaves the action's state, with the OK response. -/
theorem afterCommand_of_respond (h : action s.accept = .respond s' d) : afterCommand action s = s'.respond ⟨.ok, d⟩ := by
  simp [afterCommand, h, finish]

/-- A command whose action raises leaves its accepted state, latched, with the error response. -/
theorem afterCommand_of_raise (h : action s.accept = .raise e arg) :
    afterCommand action s = (s.accept.latch e arg s.cmdcnt).respond ⟨.error e, 0#64⟩ := by
  simp [afterCommand, h, finish, State.raise]

/-- A command that raises fails precisely (R205, R206). -/
theorem failed_of_raise (h : action s.accept = .raise e arg) : Failed s (afterCommand action s) e arg := by
  rw [afterCommand_of_raise h]
  refine ⟨⟨by simp, by simp, by simp, by simp⟩,
    ⟨fun a => by simp, ⟨by simp, by simp, by simp, fun i => by simp⟩, ⟨by simp, fun a => by simp⟩,
      ⟨by simp, by simp, by simp, by simp, by simp⟩, ⟨by simp, by simp, by simp⟩⟩, ?_, ?_⟩
  · intro hn hf
    rw [State.latch_of_normal _ _ (by simpa using hn) hf]
    exact ⟨rfl, rfl, rfl, rfl⟩
  · rintro (hf | rfl)
    · rw [State.latch_of_faulted _ _ _ (by simpa using hf)]
      exact keepsErrors_accept_respond s _
    · rw [State.latch_faultedRefusal]
      exact keepsErrors_accept_respond s _

/-- A command that responds is answered OK, if its action leaves the counter, the log and the model's own fields alone. -/
theorem answered_of_respond (h : action s.accept = .respond s' d) (hc : s'.cmdcnt = s.accept.cmdcnt)
    (hr : s'.responses = s.responses) (hh : s'.host = s.host) (he : s'.epoch = s.epoch) :
    Answered s (afterCommand action s) ⟨.ok, d⟩ := by
  rw [afterCommand_of_respond h]
  exact ⟨by simp [hc], by simp [hr], by simp [hh], by simp [he]⟩

/-- A refused command fails with FaultedRefusal. -/
theorem failed_of_faulted (action : State → Effect) (h : s.err = true) :
    Failed s (afterCommand (refuseIfFaulted action) s) .faultedRefusal 0#16 :=
  failed_of_raise (refuseIfFaulted_of_faulted action (by simpa using h))

/-- Every command ends in a next state: it responds, or it raises. -/
theorem finish_cases (n : BitVec 32) (s : State) (e : Effect) :
    (∃ s' d, e = .respond s' d ∧ finish n s e = s'.respond ⟨.ok, d⟩) ∨
    (∃ er arg, e = .raise er arg ∧ finish n s e = s.raise er arg n) := by
  cases e with
  | respond s' d => exact .inl ⟨s', d, rfl, rfl⟩
  | raise er arg => exact .inr ⟨er, arg, rfl, rfl⟩

end Sys2Proof.Machine
end

