-- ==== Sys2Proof/Laws/PerInstr.lean ====
section
/-! SUPPORT. Statements about every command as syntax, one lemma per constructor. -/

namespace Sys2Proof.Laws

/-- The command's word has the opcode of the command's own row of the table (30_encoding.md R82). -/
def EncodesUnderItsRow.Statement (i : Instr) : Prop :=
  ∃ r ∈ opcodeTable, r.mnemonic = mnemonicOf i ∧ fieldOp (encode i) = fieldOp r.pattern

theorem EncodesUnderItsRow.reset : EncodesUnderItsRow.Statement .reset :=
  ⟨opcodeTable[0]'(by decide), List.getElem_mem _, rfl, by rw [fieldOp_encode]; rfl⟩

theorem EncodesUnderItsRow.clrerr : EncodesUnderItsRow.Statement .clrerr :=
  ⟨opcodeTable[1]'(by decide), List.getElem_mem _, rfl, by rw [fieldOp_encode]; rfl⟩

theorem EncodesUnderItsRow.rdcsr (csr : BitVec 3) : EncodesUnderItsRow.Statement (.rdcsr csr) :=
  ⟨opcodeTable[2]'(by decide), List.getElem_mem _, rfl, by rw [fieldOp_encode]; rfl⟩

theorem EncodesUnderItsRow.clrfreq : EncodesUnderItsRow.Statement .clrfreq :=
  ⟨opcodeTable[3]'(by decide), List.getElem_mem _, rfl, by rw [fieldOp_encode]; rfl⟩

theorem EncodesUnderItsRow.cnt (sym : Symbol) : EncodesUnderItsRow.Statement (.cnt sym) :=
  ⟨opcodeTable[4]'(by decide), List.getElem_mem _, rfl, by rw [fieldOp_encode]; rfl⟩

theorem EncodesUnderItsRow.wrfreq (sym : Symbol) (val : Count) : EncodesUnderItsRow.Statement (.wrfreq sym val) :=
  ⟨opcodeTable[5]'(by decide), List.getElem_mem _, rfl, by rw [fieldOp_encode]; rfl⟩

theorem EncodesUnderItsRow.rdfreq (sym : Symbol) : EncodesUnderItsRow.Statement (.rdfreq sym) :=
  ⟨opcodeTable[6]'(by decide), List.getElem_mem _, rfl, by rw [fieldOp_encode]; rfl⟩

theorem EncodesUnderItsRow.build : EncodesUnderItsRow.Statement .build :=
  ⟨opcodeTable[7]'(by decide), List.getElem_mem _, rfl, by rw [fieldOp_encode]; rfl⟩

theorem EncodesUnderItsRow.rdnode (node : NodeIdx) : EncodesUnderItsRow.Statement (.rdnode node) :=
  ⟨opcodeTable[8]'(by decide), List.getElem_mem _, rfl, by rw [fieldOp_encode]; rfl⟩

theorem EncodesUnderItsRow.assign : EncodesUnderItsRow.Statement .assign :=
  ⟨opcodeTable[9]'(by decide), List.getElem_mem _, rfl, by rw [fieldOp_encode]; rfl⟩

theorem EncodesUnderItsRow.rdclen (sym : Symbol) : EncodesUnderItsRow.Statement (.rdclen sym) :=
  ⟨opcodeTable[10]'(by decide), List.getElem_mem _, rfl, by rw [fieldOp_encode]; rfl⟩

theorem EncodesUnderItsRow.rdcode (sym : Symbol) (w : BitVec 2) : EncodesUnderItsRow.Statement (.rdcode sym w) :=
  ⟨opcodeTable[11]'(by decide), List.getElem_mem _, rfl, by rw [fieldOp_encode]; rfl⟩

theorem EncodesUnderItsRow.encstart : EncodesUnderItsRow.Statement .encstart :=
  ⟨opcodeTable[12]'(by decide), List.getElem_mem _, rfl, by rw [fieldOp_encode]; rfl⟩

theorem EncodesUnderItsRow.enc (sym : Symbol) : EncodesUnderItsRow.Statement (.enc sym) :=
  ⟨opcodeTable[13]'(by decide), List.getElem_mem _, rfl, by rw [fieldOp_encode]; rfl⟩

theorem EncodesUnderItsRow.encend : EncodesUnderItsRow.Statement .encend :=
  ⟨opcodeTable[14]'(by decide), List.getElem_mem _, rfl, by rw [fieldOp_encode]; rfl⟩

theorem EncodesUnderItsRow.decstart : EncodesUnderItsRow.Statement .decstart :=
  ⟨opcodeTable[15]'(by decide), List.getElem_mem _, rfl, by rw [fieldOp_encode]; rfl⟩

theorem EncodesUnderItsRow.dec (byte : Byte) (nb : BitVec 3) : EncodesUnderItsRow.Statement (.dec byte nb) :=
  ⟨opcodeTable[16]'(by decide), List.getElem_mem _, rfl, by rw [fieldOp_encode]; rfl⟩

theorem EncodesUnderItsRow.decend : EncodesUnderItsRow.Statement .decend :=
  ⟨opcodeTable[17]'(by decide), List.getElem_mem _, rfl, by rw [fieldOp_encode]; rfl⟩

end Sys2Proof.Laws
end

