-- ==== Sys2Proof/Laws/Step.lean ====
section
/-! SUPPORT. Laws of exec and step: every command is one `afterCommand`, every step ends in a next state, and what a step can do. -/

namespace Sys2Proof.Machine

/-- Every command is accepted, runs its action, and ends in a next state (45_control.md R198). -/
theorem exec_eq_afterCommand (i : Instr) (s : State) : ∃ action, exec i s = .next (afterCommand action s) := by
  cases i <;> exact ⟨_, rfl⟩

/-- So is every command outside the permitted set, whose action begins with the FAULTED check (60_exceptions.md R207). -/
theorem exec_eq_refuseIfFaulted {i : Instr} (h : permittedInFaulted i = false) (s : State) :
    ∃ action, exec i s = .next (afterCommand (refuseIfFaulted action) s) := by
  cases i <;> first | exact ⟨_, rfl⟩ | simp [permittedInFaulted] at h

/-- Outside FAULTED mode the action of such a command is reached. -/
theorem afterCommand_refuseIfFaulted {s : State} (action : State → Effect) (h : s.err = false) :
    afterCommand (refuseIfFaulted action) s = afterCommand action s := by
  simp [afterCommand, refuseIfFaulted_accept action h]

/-- And, with its flag set, the action behind the sequence check. -/
theorem afterCommand_require {s : State} {flag : State → Bool} (opcode : BitVec 8) (action : State → Effect)
    (h : flag s.accept = true) : afterCommand (require flag opcode action) s = afterCommand action s := by
  simp [afterCommand, require_of_set opcode action h]

/-- What a step does, by the host's next action. -/
theorem step_cases (s : State) :
    (s.host = [] ∧ step s = .next s) ∨
    (∃ rest, s.host = .hardwareReset :: rest ∧ step s = .next (s.setHost rest).doReset) ∨
    (∃ w rest i, s.host = .command w :: rest ∧ decode w = .ok i ∧ step s = exec i (s.setHost rest)) ∨
    (∃ w rest e, s.host = .command w :: rest ∧ decode w = .error e ∧
      step s = .next (afterCommand (fun _ => .raise .illegalCommand (illegalArg w)) (s.setHost rest))) := by
  match hh : s.host with
  | [] => exact .inl ⟨rfl, by simp [step, stepHost, hh]⟩
  | .hardwareReset :: rest => exact .inr (.inl ⟨rest, rfl, by simp [step, stepHost, hh, hostAction]⟩)
  | .command w :: rest =>
    cases hd : decode w with
    | ok i => exact .inr (.inr (.inl ⟨w, rest, i, rfl, hd, by simp [step, stepHost, hh, hostAction, presentWord, hd]⟩))
    | error e =>
      exact .inr (.inr (.inr ⟨w, rest, e, rfl, hd, by
        simp [step, stepHost, hh, hostAction, presentWord, hd, illegalCommand, runCommand]⟩))

/-- What a list of commands does, one at a time. -/
theorem runCommands_cons {i : Instr} {s t : State} (rest : List Instr) (h : exec i s = .next t) :
    runCommands (i :: rest) s = runCommands rest t := by
  simp [runCommands, h]

theorem runCommands_append (l rest : List Instr) (s : State) :
    runCommands (l ++ rest) s = (runCommands l s).bind (runCommands rest) := by
  induction l generalizing s with
  | nil => rfl
  | cons i l ih =>
    obtain ⟨action, h⟩ := exec_eq_afterCommand i s
    rw [List.cons_append, runCommands_cons _ h, runCommands_cons _ h, ih]

/-- The invariant says nothing of what the host will do. -/
theorem Inv.setHost {s : State} (h : Inv s) (rest : List HostAction) : Inv (s.setHost rest) where
  flags := ⟨h.flags.enc, h.flags.codes, h.flags.dec⟩
  tree := ⟨h.tree.absent, fun ht =>
    have p := h.tree.present ht
    ⟨p.1, p.2.1, p.2.2.1, ⟨p.2.2.2.leaf, p.2.2.2.ascending, p.2.2.2.inner, p.2.2.2.once, p.2.2.2.rootFree⟩⟩⟩
  codes := fun hc =>
    have c := h.codes hc
    have hw : ∀ (c : List Bool) (i : NodeIdx), walkDown (s.setHost rest) i c = walkDown s i c := by
      intro c
      induction c with
      | nil => intro i; rfl
      | cons b l ih => intro i; simp only [walkDown, ih]; rfl
    ⟨c.domain, fun k hk => by
      have := c.paths k hk
      unfold IsLeafCode at this ⊢
      rw [hw]
      exact this, c.stored, c.absent⟩
  encoder := ⟨h.encoder.lowZero, h.encoder.count⟩
  decoder := ⟨h.decoder.cur⟩
  errors := ⟨h.errors.normal, h.errors.faulted⟩
  memory := ⟨h.memory.freq, h.memory.node, h.memory.code⟩

/-- The memories of the reset state are canonical. -/
theorem memoryInv_reset : MemoryInv State.reset := ⟨rfl, rfl, rfl⟩

end Sys2Proof.Machine
end

