-- ==== Sys2Proof/Laws/Tree.lean ====
section
/-! SUPPORT. Laws of the tree builder: the order of the queue (41_tree_builder.md R113), extractMin, the merge loop, the present
symbols and the leaves (R111, R112). -/

namespace Sys2Proof.Machine

/-! ### The order (freq, index) -/

theorem Key.precedes_iff (a b : Key) : a.precedes b = true ↔
    a.freq.toNat < b.freq.toNat ∨ (a.freq.toNat = b.freq.toNat ∧ a.idx < b.idx) := by
  simp [Key.precedes, BitVec.lt_def, BitVec.toNat_inj]

theorem Key.precedes_trans {a b c : Key} (h : a.precedes b = true) (h' : b.precedes c = true) : a.precedes c = true := by
  rw [Key.precedes_iff] at *
  omega

/-- Of two members with different indices one precedes the other. -/
theorem Key.precedes_of_not {a b : Key} (hne : a.idx ≠ b.idx) (h : ¬ b.precedes a = true) : a.precedes b = true := by
  rw [Key.precedes_iff] at *
  omega

/-! ### extractMin -/

/-- extractMin takes one member out and leaves the others. -/
theorem extractMinFrom_perm (k : Key) (l : List Key) :
    ((extractMinFrom k l).1 :: (extractMinFrom k l).2).Perm (k :: l) := by
  induction l generalizing k with
  | nil => exact List.Perm.refl _
  | cons x rest ih =>
    simp only [extractMinFrom]
    split
    · exact (List.Perm.swap _ _ _).trans ((ih x).cons k)
    · exact ((List.Perm.swap _ _ _).trans ((ih k).cons x)).trans (List.Perm.swap _ _ _)

@[simp] theorem extractMinFrom_length (k : Key) (l : List Key) : (extractMinFrom k l).2.length = l.length := by
  simpa using (extractMinFrom_perm k l).length_eq

/-- What extractMin takes precedes everything it leaves, when the indices differ (R113). -/
theorem extractMinFrom_least (k : Key) (l : List Key) (h : ((k :: l).map Key.idx).Nodup) :
    ∀ x ∈ (extractMinFrom k l).2, (extractMinFrom k l).1.precedes x = true := by
  induction l generalizing k with
  | nil => simp [extractMinFrom]
  | cons y rest ih =>
    simp only [List.map_cons, List.nodup_cons, List.mem_cons, not_or] at h
    obtain ⟨⟨hky, hk⟩, hy, hn⟩ := h
    -- a member of the rest follows the least of the rest and its start, or is that least
    have key : ∀ z, ((z :: rest).map Key.idx).Nodup → z = (extractMinFrom z rest).1 ∨
        (extractMinFrom z rest).1.precedes z = true := by
      intro z hz
      have hm : z ∈ (extractMinFrom z rest).1 :: (extractMinFrom z rest).2 :=
        (extractMinFrom_perm z rest).mem_iff.2 (by simp)
      rcases List.mem_cons.1 hm with h | h
      · exact .inl h
      · exact .inr (ih z hz z h)
    have hny : ((y :: rest).map Key.idx).Nodup := by simpa using ⟨by simpa using hy, hn⟩
    have hnk : ((k :: rest).map Key.idx).Nodup := by simpa using ⟨by simpa using hk, hn⟩
    simp only [extractMinFrom]
    split
    · rename_i hlt
      intro x hx
      rcases List.mem_cons.1 hx with rfl | hx
      · rcases key y hny with h | h
        · rwa [← h]
        · exact Key.precedes_trans h hlt
      · exact ih y hny x hx
    · rename_i hlt
      intro x hx
      rcases List.mem_cons.1 hx with rfl | hx
      · have hkx := Key.precedes_of_not hky hlt
        rcases key k hnk with h | h
        · rwa [← h]
        · exact Key.precedes_trans h hkx
      · exact ih k hnk x hx

/-! ### The merge loop -/

/-- One turn of the loop on a queue of two members or more. -/
theorem mergeLoop_step (fuel : Nat) (arena : List Node) (k x : Key) (rest : List Key) :
    ∃ a b pq, extractMin (k :: x :: rest) = some (a, (extractMinFrom k (x :: rest)).2) ∧
      extractMin (extractMinFrom k (x :: rest)).2 = some (b, pq) ∧
      (a :: b :: pq).Perm (k :: x :: rest) ∧
      mergeLoop (fuel + 1) arena (k :: x :: rest) =
        mergeLoop fuel (arena ++ [mergeNode a b]) (⟨a.freq + b.freq, arena.length⟩ :: pq) := by
  have hp := extractMinFrom_perm k (x :: rest)
  have hl := extractMinFrom_length k (x :: rest)
  cases hr : (extractMinFrom k (x :: rest)).2 with
  | nil => simp [hr] at hl
  | cons y ys =>
    refine ⟨(extractMinFrom k (x :: rest)).1, (extractMinFrom y ys).1, (extractMinFrom y ys).2, by simp [extractMin, ← hr],
      by simp [extractMin], ?_, by simp [mergeLoop, extractMin, hr]⟩
    refine ((extractMinFrom_perm y ys).cons _).trans ?_
    rw [← hr]
    exact hp

/-- The loop adds one node for every member but one, and leaves one member (R115). -/
theorem mergeLoop_lengths (fuel : Nat) (arena : List Node) (pq : List Key) (h : pq.length = fuel + 1) :
    (mergeLoop fuel arena pq).1.length = arena.length + fuel ∧ (mergeLoop fuel arena pq).2.length = 1 := by
  induction fuel generalizing arena pq with
  | zero => simp [mergeLoop, h]
  | succ fuel ih =>
    match pq, h with
    | k :: x :: rest, h =>
      obtain ⟨a, b, pq', -, -, hp, he⟩ := mergeLoop_step fuel arena k x rest
      have hlen := hp.length_eq
      simp only [List.length_cons] at h hlen
      rw [he]
      have := ih (arena ++ [mergeNode a b]) (⟨a.freq + b.freq, arena.length⟩ :: pq') (by simp; omega)
      simp only [List.length_append, List.length_cons, List.length_nil] at this
      exact ⟨by omega, this.2⟩

/-- The loop only appends to the arena. -/
theorem mergeLoop_prefix (fuel : Nat) (arena : List Node) (pq : List Key) : arena <+: (mergeLoop fuel arena pq).1 := by
  induction fuel generalizing arena pq with
  | zero => exact List.prefix_rfl
  | succ fuel ih =>
    match pq with
    | [] => exact List.prefix_rfl
    | [k] => exact List.prefix_rfl
    | k :: x :: rest =>
      obtain ⟨a, b, pq', -, -, -, he⟩ := mergeLoop_step fuel arena k x rest
      rw [he]
      exact (List.prefix_append _ _).trans (ih _ _)

/-! ### The present symbols, the leaves and the queue's start -/

theorem mem_presentSymbols {s : State} {a : Nat} : a ∈ presentSymbols s ↔ a < 256 ∧ freqAt s a ≠ 0#32 := by
  simp [presentSymbols, Config.nSymMax]

theorem presentSymbols_sorted (s : State) : (presentSymbols s).Pairwise (· < ·) :=
  List.pairwise_lt_range.filter _

theorem presentSymbols_length_le (s : State) : (presentSymbols s).length ≤ 256 := by
  have := List.length_filter_le (fun a => freqAt s a != 0#32) (List.range Config.nSymMax)
  rwa [List.length_range] at this

@[simp] theorem leaves_length (s : State) : (leaves s).length = (presentSymbols s).length := by simp [leaves]

@[simp] theorem leaves_isEmpty (s : State) : (leaves s).isEmpty = (presentSymbols s).isEmpty := by
  cases h : presentSymbols s <;> simp [leaves, h]

@[simp] theorem keysFrom_length (i : Nat) (l : List Node) : (keysFrom i l).length = l.length := by
  induction l generalizing i with
  | nil => rfl
  | cons d rest ih => simp [keysFrom, ih]

@[simp] theorem keysFrom_idx (i : Nat) (l : List Node) : (keysFrom i l).map Key.idx = List.range' i l.length := by
  induction l generalizing i with
  | nil => rfl
  | cons d rest ih => simp [keysFrom, ih, List.range'_succ]

@[simp] theorem keysFrom_freq (i : Nat) (l : List Node) : (keysFrom i l).map Key.freq = l.map Node.freq := by
  induction l generalizing i with
  | nil => rfl
  | cons d rest ih => simp [keysFrom, ih]

/-- A tree of n ≥ 1 leaves has 2n − 1 nodes, the leaves first (R115). -/
theorem buildTree_nodes (l : List Node) (h : l ≠ []) :
    (buildTree l).nodes.length = 2 * l.length - 1 ∧ l <+: (buildTree l).nodes := by
  have hl : 0 < l.length := List.length_pos_of_ne_nil h
  have := mergeLoop_lengths (l.length - 1) l (keysFrom 0 l) (by simp; omega)
  exact ⟨by simp only [buildTree]; omega, mergeLoop_prefix _ _ _⟩

/-- Storing a tree keeps NODE canonical, when the tree fits the arena. -/
theorem wf_storeTree {s : State} (h : Memory.wf Config.nNodeMax s.node = true) (n : Nat) {t : BuiltTree}
    (ht : t.nodes.length ≤ 511) : Memory.wf Config.nNodeMax (s.storeTree n t).node = true :=
  Memory.wf_writeFrom _ h (by simpa [Config.nNodeMax] using ht)

end Sys2Proof.Machine
end

