-- ==== Sys2Proof/Tests/Slice0.lean ====
section
/-! SUPPORT. Tests of one step each, with the expected values of the spec's own vectors (95_test_vectors.md,
96_test_vectors_errors_sessions.md); the decoding of a word of every command, written out from 30_encoding.md R82 and R87; the
ill-formed assembler lines that the checks refuse; and a witness of the hypotheses of every statement that has any. -/

namespace Sys2Proof.Tests

-- one theorem at a time: in parallel the kernel evaluations below would each hold a thread
set_option Elab.async false

open Sys2Proof.Machine

/-! ### States of the vectors -/

/-- V6b: a 1, b 1, c 2. -/
def loaded : State := { State.reset with freq := [(0x61, 1#32), (0x62, 1#32), (0x63, 2#32)] }

/-- V6b's nodes: the leaves a, b, c, then n3 = (0, 1, 2) and n4 = (2, 3, 4). -/
def abcNodes : Memory Node :=
  [(0, ⟨true, 0x61#8, 1#40, 0#9, 0#9⟩), (1, ⟨true, 0x62#8, 1#40, 0#9, 0#9⟩), (2, ⟨true, 0x63#8, 2#40, 0#9, 0#9⟩),
   (3, ⟨false, 0#8, 2#40, 0#9, 1#9⟩), (4, ⟨false, 0#8, 4#40, 2#9, 3#9⟩)]

/-- V6b after BUILD. -/
def built : State := { loaded with treeValid := true, nsym := 3#9, root := 4#9, node := abcNodes }

/-- V6b after ASSIGN: a = "10", b = "11", c = "0" (position 0 of the stored bits is the first character). -/
def coded : State :=
  { built with
    codesValid := true
    code := ((emptyTable.write 0x61 ⟨true, 2#8, 1#255⟩).write 0x62 ⟨true, 2#8, 3#255⟩).write 0x63 ⟨true, 1#8, 0#255⟩ }

/-- V19 after seq 6: in an encode session, the bits 1, 0 of 'a' written. -/
def encoding : State := { coded with encActive := true, acc := 0x80#8, nacc := 2#3, encbits := 2#64, cmdcnt := 7#32 }

/-- V19's start state: ENCBITS replaced by 2^64 − 2. -/
def nearlyFull : State := { encoding with encbits := 0xFFFFFFFFFFFFFFFE#64 }

/-- V6b in a decode session, on the root n4. -/
def decoding : State := { built with decActive := true, cur := 4#9 }

/-- V6b in a decode session, on the node n3, inside a code. -/
def insideCode : State := { built with decActive := true, cur := 3#9 }

/-- V14a after `decstart`: the tree of the single leaf a. -/
def single : State :=
  { State.reset with
    freq := [(0x61, 1#32)], treeValid := true, nsym := 1#9, decActive := true
    node := [(0, ⟨true, 0x61#8, 1#40, 0#9, 0#9⟩)] }

/-- The single leaf's code table (R132): a = "0". -/
def singleCoded : State := { single with codesValid := true, code := emptyTable.write 0x61 ⟨true, 1#8, 0#255⟩ }

/-- V3 after seq 0: EmptyInputError latched by the command numbered 0. -/
def faulted : State := { State.reset with err := true, errcode := 1#4, cmdcnt := 1#32 }

/-- V6b with its tree, in FAULTED mode. -/
def faultedBuilt : State := { built with err := true, errcode := 6#4, errarg := 1#16, errcmd := 8#32, cmdcnt := 9#32 }

/-! ### What a test looks at -/

/-- A value of the next state. -/
def seen {α : Type} (o : Host.Outcome State Fault Refusal) (f : State → α) : Option α :=
  match o with
  | .next t => some (f t)
  | .fault _ => none
  | .refused _ => none

/-- The last response. -/
def answer (t : State) : Option Response := t.responses.getLast?

/-- STATUS, ERRINFO and ERRCMD (10_state.md R28). -/
def errorWords (t : State) : Word × Word × Word := (readCsr t 0#3, readCsr t 2#3, readCsr t 3#3)

/-- The words of the nodes from index 0 on. -/
def nodeWords (n : Nat) (t : State) : List Word := (List.range n).map fun i => nodeWord (nodeAt t i)

/-! ### Decoding: one word of every command, from R82 -/

theorem test_decode_reset : decode 0x0100000000000000#64 = .ok .reset := by decide
theorem test_decode_clrerr : decode 0x0200000000000000#64 = .ok .clrerr := by decide
theorem test_decode_rdcsr : decode 0x0300000700000000#64 = .ok (.rdcsr 7#3) := by decide
theorem test_decode_clrfreq : decode 0x1000000000000000#64 = .ok .clrfreq := by decide
theorem test_decode_cnt : decode 0x1100006100000000#64 = .ok (.cnt 0x61#8) := by decide
theorem test_decode_wrfreq : decode 0x120000FFFFFFFFFE#64 = .ok (.wrfreq 0xFF#8 0xFFFFFFFE#32) := by decide
theorem test_decode_rdfreq : decode 0x130000FF00000000#64 = .ok (.rdfreq 0xFF#8) := by decide
theorem test_decode_build : decode 0x2000000000000000#64 = .ok .build := by decide
theorem test_decode_rdnode : decode 0x210001FF00000000#64 = .ok (.rdnode 511#9) := by decide
theorem test_decode_assign : decode 0x3000000000000000#64 = .ok .assign := by decide
theorem test_decode_rdclen : decode 0x3100006300000000#64 = .ok (.rdclen 0x63#8) := by decide
theorem test_decode_rdcode : decode 0x3203007A00000000#64 = .ok (.rdcode 0x7A#8 3#2) := by decide
theorem test_decode_encstart : decode 0x4000000000000000#64 = .ok .encstart := by decide
theorem test_decode_enc : decode 0x4100006200000000#64 = .ok (.enc 0x62#8) := by decide
theorem test_decode_encend : decode 0x4200000000000000#64 = .ok .encend := by decide
theorem test_decode_decstart : decode 0x5000000000000000#64 = .ok .decstart := by decide
theorem test_decode_dec : decode 0x510700FF00000000#64 = .ok (.dec 0xFF#8 7#3) := by decide
theorem test_decode_decend : decode 0x5200000000000000#64 = .ok .decend := by decide

/-- V8: the illegal words, by name. -/
theorem test_decode_illegal :
    decode 0x0400000000000000#64 = .error (.undefinedOpcode 0x04#8) ∧
    decode 0x1100006100000001#64 = .error (.mustBeZero 0x11#8) ∧
    decode 0x2100020000000000#64 = .error (.mustBeZero 0x21#8) ∧
    decode 0x0300000800000000#64 = .error (.mustBeZero 0x03#8) ∧
    decode 0x3204006100000000#64 = .error (.mustBeZero 0x32#8) ∧
    decode 0x12FF006100000005#64 = .error (.mustBeZero 0x12#8) ∧
    decode 0x0101000000000000#64 = .error (.mustBeZero 0x01#8) := by decide

/-- The row's word as the opcode table numbers its bits. -/
theorem test_decodeTableWord : decodeTableWord 64 0x510600DC00000000 = some (.dec 0xDC#8 6#3) := by decide

/-- The words of V6g and V14 as the assembler writes them (R87: `dec` takes nb + 1). -/
theorem test_assemble :
    assemble (.rdnode 8) = some 0x2100000800000000#64 ∧ assemble (.dec 0x20 3) = some 0x5102002000000000#64 ∧
    assemble (.rdcode 0x7A 3) = some 0x3203007A00000000#64 ∧ assemble (.word 0) = some 0#64 := by decide

/-- R88: the groups of `decbits`, the last padded below its bits. -/
theorem test_decbits :
    expand (.decbits [true, false, false, false, false, false, false, true, true, true]) = [.dec 0x81 8, .dec 0xC0 2] := by
  decide

/-! ### Well-formedness: an ill-formed line for each check (R87) -/

theorem test_wf_rdcsr : Asm.wellFormed (.rdcsr 8) = false := by decide
theorem test_wf_cnt : Asm.wellFormed (.cnt 256) = false := by decide
theorem test_wf_rdfreq : Asm.wellFormed (.rdfreq 256) = false := by decide
theorem test_wf_rdclen : Asm.wellFormed (.rdclen 256) = false := by decide
theorem test_wf_enc : Asm.wellFormed (.enc 256) = false := by decide
theorem test_wf_wrfreq : Asm.wellFormed (.wrfreq 256 0) = false ∧ Asm.wellFormed (.wrfreq 0 4294967296) = false := by decide
theorem test_wf_rdnode : Asm.wellFormed (.rdnode 512) = false := by decide
theorem test_wf_rdcode : Asm.wellFormed (.rdcode 256 0) = false ∧ Asm.wellFormed (.rdcode 0 4) = false := by decide
theorem test_wf_dec : Asm.wellFormed (.dec 256 1) = false ∧ Asm.wellFormed (.dec 0 0) = false ∧
    Asm.wellFormed (.dec 0 9) = false := by decide
theorem test_wf_word : Asm.wellFormed (.word 18446744073709551616) = false := by decide

/-! ### One step of each command -/

/-- V17a: RESET sets CMDCNT to 0 after it has been counted, and answers 0. -/
theorem test_reset : seen (exec .reset encoding) (fun t => (answer t, t.cmdcnt, t.codesValid, t.acc, freqAt t 0x61)) =
    some (some ⟨.ok, 0#64⟩, 0#32, false, 0#8, 0#32) := by decide +kernel

/-- V3: CLRERR leaves NORMAL mode, and the tree. -/
theorem test_clrerr : seen (exec .clrerr faultedBuilt) (fun t => (errorWords t, t.nsym, answer t)) =
    some ((1#64, 0#64, 0#64), 3#9, some ⟨.ok, 0#64⟩) := by decide +kernel

/-- V17a: CSR 4 counts this command. -/
theorem test_rdcsr_cmdcnt : seen (exec (.rdcsr 4#3) { loaded with cmdcnt := 3#32 }) answer = some (some ⟨.ok, 4#64⟩) := by
  decide +kernel

/-- V19, seq 10: NACC above ACC. -/
theorem test_rdcsr_encacc : seen (exec (.rdcsr 6#3) encoding) answer = some (some ⟨.ok, 0x280#64⟩) := by decide +kernel

/-- V7, seq 20: the table is cleared; the tree is not (40_frequency.md R100). -/
theorem test_clrfreq : seen (exec .clrfreq built) (fun t => (freqAt t 0x61, freqAt t 0x63, t.treeValid)) =
    some (0#32, 0#32, true) := by decide +kernel

/-- V7, seq 9. -/
theorem test_cnt : seen (exec (.cnt 0xFF#8) { loaded with freq := [(0x61, 1#32), (0xFF, 0xFFFFFFFE#32)] })
    (fun t => (freqAt t 0xFF, freqAt t 0x61, answer t)) = some (0xFFFFFFFF#32, 1#32, some ⟨.ok, 0#64⟩) := by decide +kernel

/-- V7, seq 11 to 14: the counter saturates into an error that names the symbol. -/
theorem test_cnt_overflow : seen (exec (.cnt 0xFF#8) { loaded with freq := [(0xFF, 0xFFFFFFFF#32)], cmdcnt := 11#32 })
    (fun t => (freqAt t 0xFF, errorWords t, answer t)) =
      some (0xFFFFFFFF#32, (0x10#64, 0xFF0007#64, 0xB#64), some ⟨.error .overflow, 0#64⟩) := by decide +kernel

/-- V7, seq 6: writing 0 makes the symbol absent. -/
theorem test_wrfreq_zero : seen (exec (.wrfreq 0x61#8 0#32) loaded) (fun t => t.freq) =
    some [(0x62, 1#32), (0x63, 2#32)] := by decide +kernel

/-- V15: WRFREQ is outside the permitted set of FAULTED mode. -/
theorem test_wrfreq_refused : seen (exec (.wrfreq 0x61#8 5#32) faulted) (fun t => (freqAt t 0x61, errorWords t, answer t)) =
    some (0#32, (0x10#64, 1#64, 0#64), some ⟨.error .faultedRefusal, 0#64⟩) := by decide +kernel

/-- V6b loaded, read back. -/
theorem test_rdfreq : seen (exec (.rdfreq 0x63#8) loaded) answer = some (some ⟨.ok, 2#64⟩) := by decide +kernel

/-- V6b: the tie of c with n3 goes to the leaf. -/
theorem test_build : seen (exec .build loaded) (fun t => (answer t, nodeWords 5 t)) =
    some (some ⟨.ok, 0x40003#64⟩, [0x0400610000000001#64, 0x0400620000000001#64, 0x0400630000000002#64,
      0x0002000000000002#64, 0x0006020000000004#64]) := by decide +kernel

/-- V17b: the failing BUILD numbered 2^32 − 1; CMDCNT wraps. -/
theorem test_build_empty : seen (exec .build { State.reset with cmdcnt := 0xFFFFFFFF#32 })
    (fun t => (answer t, errorWords t, t.cmdcnt)) =
      some (some ⟨.error .emptyInput, 0#64⟩, (0x10#64, 1#64, 0xFFFFFFFF#64), 0#32) := by decide +kernel

/-- V6b's n4. -/
theorem test_rdnode : seen (exec (.rdnode 4#9) built) answer = some (some ⟨.ok, 0x0006020000000004#64⟩) := by decide +kernel

/-- V13, seq 12: a range error in FAULTED mode is answered and not latched. -/
theorem test_rdnode_range : seen (exec (.rdnode 7#9) faultedBuilt) (fun t => (answer t, errorWords t)) =
    some (some ⟨.error .rangeError, 0#64⟩, (0x11#64, 0x10006#64, 8#64)) := by decide +kernel

/-- V6b's code table, whole. -/
theorem test_assign : seen (exec .assign built) (fun t => (t.code, t.codesValid)) = some (coded.code, true) := by decide +kernel

/-- R132: the single leaf's code is "0". -/
theorem test_assign_single : seen (exec .assign single) (fun t => t.code) = some singleCoded.code := by decide +kernel

/-- V6b: a's code has two bits, and is valid; a symbol without a code reads 0. -/
theorem test_rdclen : seen (exec (.rdclen 0x61#8) coded) answer = some (some ⟨.ok, 0x102#64⟩) ∧
    seen (exec (.rdclen 0x7A#8) coded) answer = some (some ⟨.ok, 0#64⟩) := by decide +kernel

/-- V6b: a = "10" is stored first character lowest; word 3 is zero. -/
theorem test_rdcode : seen (exec (.rdcode 0x61#8 0#2) coded) answer = some (some ⟨.ok, 1#64⟩) ∧
    seen (exec (.rdcode 0x61#8 3#2) coded) answer = some (some ⟨.ok, 0#64⟩) := by decide +kernel

/-- V12b, seq 8: no code table, no session. -/
theorem test_encstart_sequence : seen (exec .encstart built) (fun t => (answer t, t.encActive, readCsr t 2#3)) =
    some (some ⟨.error .sequenceError, 0#64⟩, false, 0x400005#64) := by decide +kernel

/-- R150: a restart discards the bits held. -/
theorem test_encstart : seen (exec .encstart encoding) (fun t => (t.encActive, t.acc, t.nacc, t.encbits, t.outb)) =
    some (true, 0#8, 0#3, 0#64, []) := by decide +kernel

/-- V19, seq 12: c = "0" is the last bit that fits. -/
theorem test_enc : seen (exec (.enc 0x63#8) nearlyFull) (fun t => (answer t, t.encbits, t.acc, t.nacc)) =
    some (some ⟨.ok, 1#64⟩, 0xFFFFFFFFFFFFFFFF#64, 0x80#8, 3#3) := by decide +kernel

/-- V19, seq 7 to 10: a = "10" does not fit; nothing is written. -/
theorem test_enc_overflow : seen (exec (.enc 0x61#8) nearlyFull) (fun t => (answer t, readCsr t 2#3, t.encbits, t.acc)) =
    some (some ⟨.error .overflow, 0#64⟩, 0x1000007#64, 0xFFFFFFFFFFFFFFFE#64, 0x80#8) := by decide +kernel

/-- V19, seq 17: the partial byte is emitted, ENCBITS kept. -/
theorem test_encend : seen (exec .encend encoding) (fun t => (answer t, t.outb, t.encActive, t.nacc, t.encbits)) =
    some (some ⟨.ok, 2#64⟩, [0x80#8], false, 0#3, 2#64) := by decide +kernel

/-- V12b, seq 10: DECSTART needs a tree, no code table. -/
theorem test_decstart : seen (exec .decstart built) (fun t => (answer t, t.cur, t.decActive)) =
    some (some ⟨.ok, 0#64⟩, 4#9, true) := by decide +kernel

/-- V14e's last row on the tree of V6a, which has V6b's codes: 11 0 11 10 is "bcba". -/
theorem test_dec : seen (exec (.dec 0xDC#8 6#3) decoding) (fun t => (answer t, t.outs, t.cur)) =
    some (some ⟨.ok, 4#64⟩, [0x62#8, 0x63#8, 0x62#8, 0x61#8], 4#9) := by decide +kernel

/-- V14a, seq 4: the third bit matches no code; the command is precise. -/
theorem test_dec_invalid : seen (exec (.dec 0x20#8 2#3) single) (fun t => (answer t, t.outs, t.cur, readCsr t 2#3)) =
    some (some ⟨.error .invalidCode, 0#64⟩, [], 0#9, 0x20003#64) := by decide +kernel

/-- V14b, seq 31: off the root, ERRARG is 0x8000 + CUR, and the session stays. -/
theorem test_decend_inside : seen (exec .decend insideCode) (fun t => (answer t, readCsr t 2#3, t.decActive)) =
    some (some ⟨.error .invalidCode, 0#64⟩, 0x80030003#64, true) := by decide +kernel

/-- V12b, seq 12. -/
theorem test_decend : seen (exec .decend decoding) (fun t => (answer t, t.decActive, t.cur)) =
    some (some ⟨.ok, 0#64⟩, false, 4#9) := by decide +kernel

/-! ### The step -/

/-- V13, seq 10: an illegal word in FAULTED mode is IllegalCommand, and is not latched. -/
theorem test_step_illegal : seen (step (faultedBuilt.withCommand 0x4100016100000000#64)) (fun t => (answer t, errorWords t)) =
    some (some ⟨.error .illegalCommand, 0#64⟩, (0x11#64, 0x10006#64, 8#64)) := by decide +kernel

/-- The first instruction after reset: `cnt 'a'`. -/
theorem test_step_fetch : seen (step (State.reset.withFetchWord 64 0x1100006100000000)) (fun t => (t.freq, t.cmdcnt, t.host)) =
    some ([(0x61, 1#32)], 1#32, []) := by decide +kernel

/-- R231: hardware reset answers nothing. -/
theorem test_step_hardwareReset : seen (step (encoding.setHost [.hardwareReset])) (fun t => (t.responses, t.cmdcnt, t.encActive)) =
    some ([], 0#32, false) := by decide +kernel

/-- R200: the status codes. -/
theorem test_status_codes :
    [Status.ok, .error .emptyInput, .error .unknownSymbol, .error .invalidCode, .error .illegalCommand, .error .sequenceError,
      .error .rangeError, .error .overflow, .error .faultedRefusal].map (fun x => x.code.toNat) = [0, 1, 2, 3, 4, 5, 6, 7, 8] := by
  decide

/-- V9's first tie, in the order of R113: (freq, index). -/
theorem test_order : Key.precedes ⟨2#40, 2⟩ ⟨2#40, 8⟩ = true ∧ Key.precedes ⟨2#40, 8⟩ ⟨2#40, 2⟩ = false ∧
    Key.precedes ⟨1#40, 9⟩ ⟨2#40, 2⟩ = true := by decide

/-! ### Witnesses of the statements' hypotheses -/

/-- V6b with an entry above NNODE left by an earlier tree. -/
def codedStale : State := { coded with node := abcNodes ++ [(5, ⟨true, 0x64#8, 9#40, 0#9, 0#9⟩)] }

/-- V6b's state after ASSIGN meets the invariant: NORMAL mode, a current table of three codes. -/
theorem witness_inv_coded : Inv coded where
  flags := ⟨by decide, by decide, by decide⟩
  tree := ⟨by decide, fun _ => ⟨by decide, by decide, by decide,
   {leaf := by decide +kernel
    ascending := fun k hk => by
      have : k = 0 ∨ k = 1 := by simp [coded, built] at hk; omega
      rcases this with rfl | rfl <;> decide +kernel
    inner := fun k h1 h2 => by
      have : k = 3 ∨ k = 4 := by simp [coded, built] at h1 h2; omega
      rcases this with rfl | rfl <;> decide +kernel
    once := by decide +kernel
    rootFree := by decide +kernel}⟩⟩
  codes := fun _ => ⟨by decide +kernel, by unfold IsLeafCode; decide +kernel, by decide +kernel, by decide +kernel⟩
  encoder := ⟨by decide, by decide⟩
  decoder := ⟨by decide⟩
  errors := ⟨by decide, by decide⟩
  memory := ⟨by decide +kernel, by decide +kernel, by decide +kernel⟩

/-- So does the state that differs from it in an unobservable entry. -/
theorem witness_inv_stale : Inv codedStale where
  flags := ⟨by decide, by decide, by decide⟩
  tree := ⟨by decide, fun _ => ⟨by decide, by decide, by decide,
   {leaf := by decide +kernel
    ascending := fun k hk => by
      have : k = 0 ∨ k = 1 := by simp [codedStale, coded, built] at hk; omega
      rcases this with rfl | rfl <;> decide +kernel
    inner := fun k h1 h2 => by
      have : k = 3 ∨ k = 4 := by simp [codedStale, coded, built] at h1 h2; omega
      rcases this with rfl | rfl <;> decide +kernel
    once := by decide +kernel
    rootFree := by decide +kernel}⟩⟩
  codes := fun _ => ⟨by decide +kernel, by unfold IsLeafCode; decide +kernel, by decide +kernel, by decide +kernel⟩
  encoder := ⟨by decide, by decide⟩
  decoder := ⟨by decide⟩
  errors := ⟨by decide, by decide⟩
  memory := ⟨by decide +kernel, by decide +kernel, by decide +kernel⟩

/-- So does the single leaf's, in a decode session. -/
theorem witness_inv_single : Inv singleCoded where
  flags := ⟨by decide, by decide, by decide⟩
  tree := ⟨by decide, fun _ => ⟨by decide, by decide, by decide,
   {leaf := by decide +kernel
    ascending := fun k hk => by simp [singleCoded, single] at hk
    inner := fun k h1 h2 => by simp [singleCoded, single] at h1 h2; omega
    once := by decide +kernel
    rootFree := by decide +kernel}⟩⟩
  codes := fun _ => ⟨by decide +kernel, by unfold IsLeafCode; decide +kernel, by decide +kernel, by decide +kernel⟩
  encoder := ⟨by decide, by decide⟩
  decoder := ⟨by decide⟩
  errors := ⟨by decide, by decide⟩
  memory := ⟨by decide +kernel, by decide +kernel, by decide +kernel⟩

theorem witness_DecodedWordIsTheWordOfItsCommand : decode 0x510600DC00000000#64 = .ok (.dec 0xDC#8 6#3) := by decide

theorem witness_DecodingAgreesWithTheMaskTable :
    (⟨"DEC", .d, 0x5100000000000000#64⟩ : OpRow) ∈ opcodeTable ∧
    0x510700FF00000000#64 &&& Format.d.mask = 0x5100000000000000#64 ∧
    0x510800FF00000000#64 &&& Format.d.mask ≠ 0x5100000000000000#64 := by decide

theorem witness_RejectedWordsAreThoseOutsideTheTable :
    (∀ r ∈ opcodeTable, fieldOp 0x0400000000000000#64 ≠ fieldOp r.pattern) ∧
    (∀ r ∈ opcodeTable, 0x0300000800000000#64 &&& r.format.mask ≠ r.pattern) ∧
    ¬ (∀ r ∈ opcodeTable, fieldOp 0x0300000800000000#64 ≠ fieldOp r.pattern) := by decide

theorem witness_AssemblerRejectsOperandsOutOfRange :
    Asm.wellFormed (.dec 0 0) = false ∧ Asm.wellFormed (.dec 255 8) = true ∧
    Asm.toInstr (.dec 255 8) = some (.dec 0xFF#8 7#3) ∧ Asm.wellFormed (.word 18446744073709551615) = true := by decide

/-- Each clause at the largest operands in range. -/
theorem witness_AssembledWordsAreThoseOfTheSyntaxTable :
    assemble (.rdcsr 7) = some 0x0300000700000000#64 ∧ assemble (.cnt 255) = some 0x110000FF00000000#64 ∧
    assemble (.wrfreq 255 4294967295) = some 0x120000FFFFFFFFFF#64 ∧ assemble (.rdfreq 255) = some 0x130000FF00000000#64 ∧
    assemble (.rdnode 511) = some 0x210001FF00000000#64 ∧ assemble (.rdclen 255) = some 0x310000FF00000000#64 ∧
    assemble (.rdcode 255 3) = some 0x320300FF00000000#64 ∧ assemble (.enc 255) = some 0x410000FF00000000#64 ∧
    assemble (.dec 255 8) = some 0x510700FF00000000#64 ∧ assemble (.dec 0 1) = some 0x5100000000000000#64 ∧
    assemble (.word 18446744073709551615) = some 0xFFFFFFFFFFFFFFFF#64 := by decide

theorem witness_StepRunsTheDecodedCommand :
    (State.reset.withCommand 0x2000000000000000#64).host = .command 0x2000000000000000#64 :: [] ∧
    decode 0x2000000000000000#64 = .ok .build := by decide

theorem witness_IllegalWordRaisesIllegalCommand :
    (faulted.withCommand 0x5108000000000000#64).host = .command 0x5108000000000000#64 :: [] ∧
    decode 0x5108000000000000#64 = .error (.mustBeZero 0x51#8) := by decide

theorem witness_StepWaitsOrResets :
    State.reset.host = [] ∧ (coded.setHost [.hardwareReset]).host = .hardwareReset :: [] := by decide

/-- A word that is answered with an error; the word of RESET; another word. -/
theorem witness_EveryWordIsAnsweredOnce :
    seen (step (State.reset.withCommand 0#64)) answer = some (some ⟨.error .illegalCommand, 0#64⟩) ∧
    decode 0x0100000000000000#64 = .ok .reset ∧ decode 0x0200000000000000#64 ≠ .ok .reset := by decide +kernel

theorem witness_FaultedModeRefusesAllButThePermittedSet :
    faulted.err = true ∧ permittedInFaulted .build = false ∧ permittedInFaulted (.rdfreq 0#8) = true ∧
    State.reset.err = false := by decide

/-- A word that is answered with an error that is latched, and one whose error is not. -/
theorem witness_ErrorsArePreciseAndLatchedOnce :
    seen (step (State.reset.withCommand 0x2000000000000000#64)) answer = some (some ⟨.error .emptyInput, 0#64⟩) ∧
    seen (step (faultedBuilt.withCommand 0x2100000700000000#64)) answer = some (some ⟨.error .rangeError, 0#64⟩) := by
  decide +kernel

theorem witness_SequenceErrorNamesTheOpcode :
    (neededFlag State.reset .assign = false ∧ State.reset.err = false) ∧
    (neededFlag faulted (.rdclen 0#8) = false ∧ permittedInFaulted (.rdclen 0#8) = true) := by decide

theorem witness_NothingChangesUntilTheErrorIsAcknowledged :
    faulted.err = true ∧ decode 0x2000000000000000#64 ≠ .ok .clrerr ∧ decode 0x2000000000000000#64 ≠ .ok .reset := by decide

theorem witness_ClrfreqClearsTheTableOnly : loaded.err = false := by decide

theorem witness_WrfreqWritesOneEntry : loaded.err = false ∧ freqWf loaded.freq = true := by decide

theorem witness_CntCountsOneOccurrence :
    (loaded.err = false ∧ (freqAt loaded 0x61).toNat < 2 ^ 32 - 1) ∧
    (freqAt { loaded with freq := [(0x61, 0xFFFFFFFE#32)] } 0x61).toNat < 2 ^ 32 - 1 ∧
    (freqAt { loaded with freq := [(0x61, 0xFFFFFFFF#32)] } 0x61).toNat = 2 ^ 32 - 1 := by decide +kernel

theorem witness_CountingLeavesTheOccurrences :
    State.reset.err = false ∧ (∀ a, freqAt State.reset a = 0#32) ∧ [0x61#8, 0x62#8, 0x61#8].length < 2 ^ 32 ∧
    (runCommands ([0x61#8, 0x62#8, 0x61#8].map .cnt) State.reset).map (fun t => t.responses.map Response.status) =
      some [.ok, .ok, .ok] :=
  ⟨rfl, fun _ => rfl, by decide, by decide +kernel⟩

theorem witness_OnlyFourCommandsChangeTheFrequencyTable :
    Instr.build ≠ .clrfreq ∧ Instr.build ≠ .reset ∧ (∀ sym, Instr.build ≠ .cnt sym) ∧ ∀ sym val, Instr.build ≠ .wrfreq sym val := by
  simp

/-- For the statements about a successful BUILD: one present symbol, and three. -/
theorem witness_BuildMakesTheLeavesAndTheRoot :
    (loaded.err = false ∧ presentSymbols loaded = [0x61, 0x62, 0x63]) ∧
    ({ loaded with freq := [(255, 1#32)] } : State).err = false ∧
    presentSymbols { loaded with freq := [(255, 1#32)] } = [255] := by decide +kernel

theorem witness_BuildMergesTheTwoLeastOfTheQueue : loaded.err = false ∧ presentSymbols loaded ≠ [] := by decide +kernel

theorem witness_BuiltArenaIsWellFormed : loaded.err = false ∧ ∃ a : Symbol, freqAt loaded a.toNat ≠ 0#32 :=
  ⟨rfl, 0x63#8, by decide⟩

theorem witness_MergeSumsGrowToTheTotal : loaded.err = false ∧ presentSymbols loaded ≠ [] := by decide +kernel

theorem witness_BuildOnAnEmptyTableFails : State.reset.err = false ∧ ∀ a, a < 256 → freqAt State.reset a = 0#32 :=
  ⟨rfl, fun _ _ => rfl⟩

theorem witness_BuildIsAFunctionOfTheFrequencies :
    loaded.err = false ∧ coded.err = false ∧ (∀ a, a < 256 → freqAt loaded a = freqAt coded a) ∧ presentSymbols loaded ≠ [] := by
  decide +kernel

theorem witness_OnlyBuildAndResetChangeTheTree : Instr.assign ≠ .build ∧ Instr.assign ≠ .reset := by decide

/-- Both clauses at their boundary, and both kinds of node. -/
theorem witness_RdnodeAnswersTheNodeOrRangeError :
    built.treeValid = true ∧ (4#9).toNat < nnode built ∧ (nodeAt built 4).leaf = false ∧ (nodeAt built 2).leaf = true ∧
    nnode built ≤ (5#9).toNat := by decide

theorem witness_AssignLeavesTheCodesOfTheTree : coded.err = false ∧ coded.treeValid = true ∧ TreeInv coded :=
  ⟨rfl, rfl, witness_inv_coded.tree⟩

theorem witness_RepeatedAssignRewritesTheSameTable : Inv coded ∧ coded.err = false ∧ coded.codesValid = true :=
  ⟨witness_inv_coded, rfl, rfl⟩

theorem witness_CodesArePrefixFree :
    Inv coded ∧ coded.codesValid = true ∧ 0x61#8 ≠ 0x62#8 ∧ (codeAt coded 0x61).valid = true ∧ (codeAt coded 0x62).valid = true :=
  ⟨witness_inv_coded, rfl, by decide +kernel⟩

/-- Each clause: three leaves, and one. -/
theorem witness_CodeLengthsAreBounded :
    (Inv coded ∧ coded.codesValid = true ∧ (codeAt coded 0x61).valid = true ∧ 2 ≤ coded.nsym.toNat) ∧
    (Inv singleCoded ∧ singleCoded.codesValid = true ∧ (codeAt singleCoded 0x61).valid = true ∧ singleCoded.nsym.toNat = 1) :=
  ⟨⟨witness_inv_coded, rfl, by decide +kernel⟩, ⟨witness_inv_single, rfl, by decide +kernel⟩⟩

/-- Each clause at its boundary: n − 1 bits in a tree of three leaves; one leaf. -/
theorem witness_EveryBitSequenceMatchesOneCodeOrEndsInsideOne :
    (Inv coded ∧ coded.codesValid = true ∧ 2 ≤ coded.nsym.toNat ∧ coded.nsym.toNat - 1 ≤ [true, false].length) ∧
    (Inv singleCoded ∧ singleCoded.codesValid = true ∧ singleCoded.nsym.toNat = 1 ∧ (codeAt singleCoded 0x61).valid = true) :=
  ⟨⟨witness_inv_coded, rfl, by decide⟩, ⟨witness_inv_single, rfl, by decide, by decide +kernel⟩⟩

theorem witness_OnlyAssignAndResetChangeTheCodeTable :
    Instr.build ≠ .assign ∧ Instr.build ≠ .reset ∧ Instr.decend ≠ .assign ∧ Instr.decend ≠ .reset ∧ Instr.decend ≠ .build := by
  decide

theorem witness_RdclenAnswersLengthAndValidity : coded.codesValid = true := by decide

/-- The last code position, and the first beyond it. -/
theorem witness_RdcodeAnswersSixtyFourCodePositions :
    coded.codesValid = true ∧ 64 * (3#2).toNat + 62 ≤ 254 ∧ ¬ 64 * (3#2).toNat + 63 ≤ 254 := by decide

theorem witness_WeightedLengthIsTheSumOfTheMerges : loaded.err = false ∧ 2 ≤ (presentSymbols loaded).length := by decide +kernel

/-- A prefix-free code of V6b's symbols: the one that is optimal for other counts. -/
theorem witness_CodesAreOptimal :
    loaded.err = false ∧ 2 ≤ (presentSymbols loaded).length ∧
    ∀ a ∈ presentSymbols loaded, ∀ b ∈ presentSymbols loaded, a ≠ b →
      ¬ (if a = 0x61 then [false] else if a = 0x62 then [true, false] else [true, true]) <+:
        (if b = 0x61 then [false] else if b = 0x62 then [true, false] else [true, true]) := by decide +kernel

theorem witness_EncstartOpensAnEmptySession : encoding.err = false ∧ encoding.codesValid = true := by decide

/-- In a session, and with the last bit that ENCBITS can count. -/
theorem witness_EncAppendsTheCode :
    (encoding.err = false ∧ encoding.encActive = true ∧ (codeAt encoding 0x61).valid = true ∧
      encoding.encbits.toNat + (codeAt encoding 0x61).len.toNat ≤ 2 ^ 64 - 1 ∧ EncoderInv encoding) ∧
    ((codeAt { nearlyFull with nacc := 6#3 } 0x63).valid = true ∧
      nearlyFull.encbits.toNat + (codeAt nearlyFull 0x63).len.toNat = 2 ^ 64 - 1 ∧
      EncoderInv { nearlyFull with nacc := 6#3 }) :=
  ⟨⟨by decide +kernel, by decide +kernel, by decide +kernel, by decide +kernel, by decide +kernel, by decide +kernel⟩,
    by decide +kernel, by decide +kernel, by decide +kernel, by decide +kernel⟩

theorem witness_EncErrorsInTheirOrder :
    nearlyFull.err = false ∧ nearlyFull.encActive = true ∧ (codeAt nearlyFull 0x7A).valid = false ∧
    (codeAt nearlyFull 0x61).valid = true ∧ 2 ^ 64 ≤ nearlyFull.encbits.toNat + (codeAt nearlyFull 0x61).len.toNat := by
  decide +kernel

theorem witness_EncendFlushesAndAnswersTheCount :
    (encoding.err = false ∧ encoding.encActive = true ∧ encoding.nacc ≠ 0#3) ∧
    ({ encoding with acc := 0#8, nacc := 0#3 } : State).nacc = 0#3 := by decide

theorem witness_EncodeSessionPacksTheConcatenatedCodes :
    Inv coded ∧ coded.err = false ∧ coded.codesValid = true ∧
    (∀ a ∈ [0x61#8, 0x63#8, 0x62#8], (codeAt coded a.toNat).valid = true) ∧
    (encodedBits coded [0x61#8, 0x63#8, 0x62#8]).length < 2 ^ 64 :=
  ⟨witness_inv_coded, rfl, rfl, by decide +kernel, by decide +kernel⟩

theorem witness_DecstartPutsTheWalkerOnTheRoot : built.err = false ∧ built.treeValid = true := by decide

theorem witness_DecWalksTheTree :
    decoding.err = false ∧ decoding.decActive = true ∧ (nodeAt decoding decoding.root.toNat).leaf = false := by decide

/-- Each clause: bits that are all 0, below which a 1 stands, and a 1 in the last position consumed. -/
theorem witness_DecOfASingleLeaf :
    single.err = false ∧ single.decActive = true ∧ (nodeAt single single.root.toNat).leaf = true ∧
    (∀ i, i ≤ (2#3).toNat → (0x1F#8).getLsbD (7 - i) = false) ∧
    (2 ≤ (2#3).toNat ∧ (0x20#8).getLsbD (7 - 2) = true ∧ ∀ j, j < 2 → (0x20#8).getLsbD (7 - j) = false) ∧
    (0 ≤ (7#3).toNat ∧ (0x80#8).getLsbD (7 - 0) = true) := by decide

theorem witness_DecendNeedsTheWalkerOnTheRoot :
    (decoding.err = false ∧ decoding.decActive = true ∧ decoding.cur = decoding.root) ∧
    (insideCode.err = false ∧ insideCode.decActive = true ∧ insideCode.cur ≠ insideCode.root) := by decide

theorem witness_WalkingACodeEmitsItsSymbol :
    Inv coded ∧ coded.codesValid = true ∧ 2 ≤ coded.nsym.toNat ∧ (codeAt coded 0x61).valid = true ∧
    [true] <+: codeString coded 0x61#8 ∧ [true] ≠ codeString coded 0x61#8 :=
  ⟨witness_inv_coded, rfl, by decide +kernel⟩

/-- Two symbols of the single leaf's code: T = 2, and their bits in two DEC commands. -/
theorem witness_DecodingAnEncodedSequenceGivesItBack :
    Inv singleCoded ∧ singleCoded.err = false ∧ singleCoded.codesValid = true ∧
    (∀ a ∈ [0x61#8, 0x61#8], (codeAt singleCoded a.toNat).valid = true) ∧
    (encodedBits singleCoded [0x61#8, 0x61#8]).length < 2 ^ 64 ∧
    (runCommands (encodeSession [0x61#8, 0x61#8]) singleCoded).map (fun t => (t.outb, t.encbits)) = some ([0#8], 2#64) ∧
    [(0#8, 0#3), (0x7F#8, 0#3)].flatMap (fun d => decBits d.1 d.2) = ([0#8].flatMap byteBits).take 2 :=
  ⟨witness_inv_single, rfl, rfl, by decide +kernel, by decide +kernel, by decide +kernel, by decide +kernel⟩

theorem witness_WholePipelineReproducesItsInput :
    [0x61#8, 0x62#8] ≠ [] ∧ [0x61#8, 0x62#8].length < 2 ^ 32 := by decide

theorem witness_InvariantIsKeptByEveryStep :
    Inv (coded.withCommand 0x4000000000000000#64) ∧
    seen (step (coded.withCommand 0x4000000000000000#64)) (fun t => t.encActive) = some true :=
  ⟨witness_inv_coded.setHost _, by decide +kernel⟩

theorem witness_UnspecifiedEntriesAreUnobservable :
    Inv coded ∧ Inv codedStale ∧ SameObservable coded codedStale ∧ coded ≠ codedStale := by
  refine ⟨witness_inv_coded, witness_inv_stale, ⟨rfl, fun _ => rfl, ⟨rfl, rfl, rfl, ?_⟩, ⟨rfl, fun _ _ => rfl⟩,
    ⟨rfl, rfl, rfl, rfl, rfl⟩, ⟨rfl, rfl, rfl⟩, ⟨rfl, rfl, rfl, rfl⟩, rfl, rfl⟩, by decide⟩
  decide +kernel

/-- Each clause: an error raises FAULT, an OK answer leaves it, CLRERR and hardware reset lower it. -/
theorem witness_FaultOutputRisesOnErrorsAndFallsOnAcknowledgement :
    seen (step (State.reset.withCommand 0x2000000000000000#64)) (fun t => (answer t, t.faultOutput)) =
      some (some ⟨.error .emptyInput, 0#64⟩, true) ∧
    seen (step (faulted.withCommand 0x1300006200000000#64)) (fun t => (answer t, t.faultOutput)) = some (some ⟨.ok, 0#64⟩, true) ∧
    seen (step (faulted.withCommand 0x0200000000000000#64)) (fun t => t.faultOutput) = some false ∧
    (faulted.setHost [.hardwareReset]).host = .hardwareReset :: [] := by decide +kernel

end Sys2Proof.Tests
end

section
/-! PROOFS. The command port (00_scope.md): a step runs the word presented, and answers and counts it exactly once. -/

namespace Sys2Proof.Machine

/-! ### The word on the port -/

/-- A step takes the presented word off the port and runs it at what is left (log 1). -/
theorem step_of_host_command {s : State} {w : Word} {rest : List HostAction} (h : s.host = .command w :: rest) :
    step s = presentWord w (s.setHost rest) := by
  simp [step, stepHost, h, hostAction]

/-- A word put on the port is run at the very state it was put in front of. -/
theorem step_withCommand (s : State) (w : Word) : step (s.withCommand w) = presentWord w s :=
  step_of_host_command rfl

theorem presentWord_of_ok {w : Word} {i : Instr} (h : decode w = .ok i) (s : State) : presentWord w s = exec i s := by
  simp [presentWord, h]

theorem presentWord_of_error {w : Word} {e : DecodeError} (h : decode w = .error e) (s : State) :
    presentWord w s = .next (afterCommand (fun _ => .raise .illegalCommand (illegalArg w)) s) := by
  simp [presentWord, h, illegalCommand, runCommand]

/-! ### What an action leaves to the prologue -/

/-- From `s` to `t` nothing that the prologue of a command keeps (45_control.md R198) was touched: CMDCNT, the response log,
the host's further actions, the reset counter. -/
structure KeepsPort (s t : State) : Prop where
  cmdcnt    : t.cmdcnt = s.cmdcnt
  responses : t.responses = s.responses
  host      : t.host = s.host
  epoch     : t.epoch = s.epoch

/-- An action's effect at `s` leaves the prologue's fields alone. One that raises carries no state, so that it does. -/
def Effect.KeepsPort (s : State) : Effect → Prop
  | .respond t _ => Machine.KeepsPort s t
  | .raise _ _ => True

variable {action : State → Effect} {s : State}

theorem keepsPort_refuseIfFaulted (h : (action s).KeepsPort s) : (refuseIfFaulted action s).KeepsPort s := by
  unfold refuseIfFaulted
  split
  · trivial
  · exact h

theorem keepsPort_require {flag : State → Bool} {opcode : BitVec 8} (h : (action s).KeepsPort s) :
    (require flag opcode action s).KeepsPort s := by
  unfold require
  split
  · exact h
  · trivial

theorem keepsPort_refuseIfFaulted_require {flag : State → Bool} {opcode : BitVec 8} (h : (action s).KeepsPort s) :
    (refuseIfFaulted (require flag opcode action) s).KeepsPort s :=
  keepsPort_refuseIfFaulted (keepsPort_require h)

/-- Every command but RESET is accepted and runs an action that leaves the prologue's fields alone. -/
theorem exec_eq_afterCommand_keepsPort {i : Instr} (hi : i ≠ .reset) (s : State) :
    ∃ action, exec i s = .next (afterCommand action s) ∧ (action s.accept).KeepsPort s.accept := by
  cases i with
  | reset => exact absurd rfl hi
  | clrerr => exact ⟨_, rfl, ⟨rfl, rfl, rfl, rfl⟩⟩
  | rdcsr csr => exact ⟨_, rfl, ⟨rfl, rfl, rfl, rfl⟩⟩
  | clrfreq => exact ⟨_, rfl, keepsPort_refuseIfFaulted ⟨rfl, rfl, rfl, rfl⟩⟩
  | cnt sym =>
    refine ⟨_, rfl, keepsPort_refuseIfFaulted ?_⟩
    split
    · trivial
    · exact ⟨rfl, rfl, rfl, rfl⟩
  | wrfreq sym val => exact ⟨_, rfl, keepsPort_refuseIfFaulted ⟨rfl, rfl, rfl, rfl⟩⟩
  | rdfreq sym => exact ⟨_, rfl, ⟨rfl, rfl, rfl, rfl⟩⟩
  | build =>
    refine ⟨_, rfl, keepsPort_refuseIfFaulted ?_⟩
    split
    · trivial
    · exact ⟨rfl, rfl, rfl, rfl⟩
  | rdnode node =>
    refine ⟨_, rfl, keepsPort_require ?_⟩
    split
    · exact ⟨rfl, rfl, rfl, rfl⟩
    · trivial
  | assign => exact ⟨_, rfl, keepsPort_refuseIfFaulted_require ⟨rfl, rfl, rfl, rfl⟩⟩
  | rdclen sym => exact ⟨_, rfl, keepsPort_require ⟨rfl, rfl, rfl, rfl⟩⟩
  | rdcode sym w => exact ⟨_, rfl, keepsPort_require ⟨rfl, rfl, rfl, rfl⟩⟩
  | encstart => exact ⟨_, rfl, keepsPort_refuseIfFaulted_require ⟨rfl, rfl, rfl, rfl⟩⟩
  | enc sym =>
    refine ⟨_, rfl, keepsPort_refuseIfFaulted_require ?_⟩
    dsimp only
    split
    · trivial
    · split
      · trivial
      · exact ⟨by simp, by simp, by simp, by simp⟩
  | encend => exact ⟨_, rfl, keepsPort_refuseIfFaulted_require ⟨by simp, by simp, by simp, by simp⟩⟩
  | decstart => exact ⟨_, rfl, keepsPort_refuseIfFaulted_require ⟨rfl, rfl, rfl, rfl⟩⟩
  | dec byte nb =>
    refine ⟨_, rfl, keepsPort_refuseIfFaulted_require ?_⟩
    split
    · trivial
    · exact ⟨rfl, rfl, rfl, rfl⟩
  | decend =>
    refine ⟨_, rfl, keepsPort_refuseIfFaulted_require ?_⟩
    split
    · exact ⟨rfl, rfl, rfl, rfl⟩
    · trivial

/-! ### One response, one count -/

/-- A command whose action leaves the prologue's fields alone is answered once and counted; on error the data is 0 (R85). -/
theorem answered_of_keepsPort (h : (action s.accept).KeepsPort s.accept) :
    ∃ r, Answered s (afterCommand action s) r ∧ (r.status ≠ .ok → r.data = 0#64) := by
  cases he : action s.accept with
  | respond t d =>
    rw [he] at h
    obtain ⟨hcmdcnt, hresponses, hhost, hepoch⟩ := h
    exact ⟨_, answered_of_respond he hcmdcnt hresponses hhost hepoch, fun hne => absurd rfl hne⟩
  | raise e arg => exact ⟨_, (failed_of_raise he).answered, fun _ => rfl⟩

/-- Every command but RESET is answered once and counted. -/
theorem exec_answered {i : Instr} (hi : i ≠ .reset) (s : State) :
    ∃ t r, exec i s = .next t ∧ Answered s t r ∧ (r.status ≠ .ok → r.data = 0#64) := by
  obtain ⟨action, hexec, hkeeps⟩ := exec_eq_afterCommand_keepsPort hi s
  obtain ⟨r, hanswered, hdata⟩ := answered_of_keepsPort hkeeps
  exact ⟨_, r, hexec, hanswered, hdata⟩

/-- RESET is answered OK from the reset state it leaves (R190). -/
theorem exec_reset (s : State) : exec .reset s = .next (s.accept.doReset.respond ⟨.ok, 0#64⟩) := rfl

/-- Every word but that of RESET is answered once and counted, legal or not (R83, R85). -/
theorem presentWord_answered {w : Word} (hw : decode w ≠ .ok .reset) (s : State) :
    ∃ t r, presentWord w s = .next t ∧ Answered s t r ∧ (r.status ≠ .ok → r.data = 0#64) := by
  cases hd : decode w with
  | ok i =>
    have hi : i ≠ .reset := fun h => hw (h ▸ hd)
    rw [presentWord_of_ok hd]
    exact exec_answered hi s
  | error e => exact ⟨_, _, presentWord_of_error hd s, (failed_of_raise rfl).answered, fun _ => rfl⟩

/-- CMDCNT counts modulo 2^32 (R23). -/
theorem Answered.cmdcnt_toNat {s t : State} {r : Response} (h : Answered s t r) :
    t.cmdcnt.toNat = (s.cmdcnt.toNat + 1) % 2 ^ 32 := by
  simp [h.cmdcnt]

end Sys2Proof.Machine

open Sys2Proof Sys2Proof.Machine

/-- Settles O9: the step takes the word off the port, and the word runs the command it decodes to. -/
theorem stepRunsTheDecodedCommand : Obligations.StepRunsTheDecodedCommand := by
  intro s w rest i hhost hdecode
  rw [step_of_host_command hhost, presentWord_of_ok hdecode]

/-- Settles O12, by whether the word is RESET's: any other word leaves the prologue's fields to the prologue, and RESET's
response is given after the reset. -/
theorem everyWordIsAnsweredOnce : Obligations.EveryWordIsAnsweredOnce := by
  intro s w
  rw [step_withCommand]
  by_cases hw : decode w = .ok .reset
  · refine ⟨_, ⟨.ok, 0#64⟩, (presentWord_of_ok hw s).trans (exec_reset s), ?_, ?_, ?_, ?_, ?_⟩
    · simp
    · simp
    · exact fun hne => absurd rfl hne
    · exact fun hne => absurd hw hne
    · exact fun _ => rfl
  · obtain ⟨t, r, hstep, hanswered, hdata⟩ := presentWord_answered hw s
    exact ⟨t, r, hstep, hanswered.responses, hanswered.host, hdata, fun _ => hanswered.cmdcnt_toNat, fun h => absurd h hw⟩

end

section
/-! PROOFS. What each command leaves unchanged of FREQ, of the tree and of the code table (10_state.md R21, R30 to R32). -/

namespace Sys2Proof.Machine

/-! ### What the operations with branches keep -/

theorem keepsTree_putBits (s : State) (bits : List Bool) : KeepsTree s (s.putBits bits) :=
  ⟨by simp, by simp, by simp, fun _ => by simp⟩

theorem keepsCodes_putBits (s : State) (bits : List Bool) : KeepsCodes s (s.putBits bits) := ⟨by simp, fun _ => by simp⟩

theorem keepsTree_closeEncoder (s : State) : KeepsTree s s.flush.emptyAcc.clearEncActive :=
  ⟨by simp, by simp, by simp, fun _ => by simp⟩

theorem keepsCodes_closeEncoder (s : State) : KeepsCodes s s.flush.emptyAcc.clearEncActive := ⟨by simp, fun _ => by simp⟩

theorem keepsTree_latch (s : State) (e : Error) (arg : BitVec 16) (n : BitVec 32) : KeepsTree s (s.latch e arg n) :=
  ⟨by simp, by simp, by simp, fun _ => by simp⟩

theorem keepsCodes_latch (s : State) (e : Error) (arg : BitVec 16) (n : BitVec 32) : KeepsCodes s (s.latch e arg n) :=
  ⟨by simp, fun _ => by simp⟩

/-! ### What an action leaves, through the prologue -/

/-- The state that an action leaves has property `P`. One that raises carries no state (60_exceptions.md R205). -/
def Effect.Leaves (P : State → Prop) : Effect → Prop
  | .respond t _ => P t
  | .raise _ _ => True

section
variable {P : State → Prop} {action : State → Effect} {s : State}

theorem leaves_refuseIfFaulted (h : (action s).Leaves P) : (refuseIfFaulted action s).Leaves P := by
  unfold refuseIfFaulted
  split
  · trivial
  · exact h

theorem leaves_require {flag : State → Bool} {opcode : BitVec 8} (h : flag s = true → (action s).Leaves P) :
    (require flag opcode action s).Leaves P := by
  unfold require
  split
  · exact h ‹_›
  · trivial

theorem leaves_refuseIfFaulted_require {flag : State → Bool} {opcode : BitVec 8}
    (h : flag s = true → (action s).Leaves P) : (refuseIfFaulted (require flag opcode action) s).Leaves P :=
  leaves_refuseIfFaulted (leaves_require h)

/-- What responding and raising keep, a command whose action leaves it leaves too (45_control.md R198). -/
theorem afterCommand_of_leaves (h : (action s.accept).Leaves P) (respond : ∀ t r, P t → P (t.respond r))
    (raise : ∀ e arg, P (s.accept.latch e arg s.cmdcnt)) : P (afterCommand action s) := by
  cases he : action s.accept with
  | respond t d =>
    rw [he] at h
    rw [afterCommand_of_respond he]
    exact respond t _ h
  | raise e arg =>
    rw [afterCommand_of_raise he]
    exact respond _ _ (raise e arg)

end

/-! ### The commands that write FREQ, the tree and the code table -/

/-- The commands that write FREQ (R30). -/
def writesFreq : Instr → Bool
  | .reset | .clrfreq | .cnt _ | .wrfreq _ _ => true
  | _ => false

/-- From `s` to `t` of FREQ, the tree and the code table only what the command `i` writes has changed (R21, R30 to R32). -/
structure KeepsOutside (i : Instr) (s t : State) : Prop where
  freq       : writesFreq i = false → KeepsFreq s t
  tree       : i ≠ .build → KeepsTree s t
  codes      : i ≠ .assign → ∀ a, codeAt t a = codeAt s a
  codesValid : i ≠ .assign → i ≠ .build → t.codesValid = s.codesValid

/-- What changes none of the three is in every command's bounds. -/
theorem keepsOutside_of_keeps {i : Instr} {s t : State} (freq : KeepsFreq s t) (tree : KeepsTree s t) (codes : KeepsCodes s t) :
    KeepsOutside i s t :=
  ⟨fun _ => freq, fun _ => tree, fun _ => codes.codes, fun _ _ => codes.codesValid⟩

theorem keepsOutside_refl (i : Instr) (s : State) : KeepsOutside i s s :=
  keepsOutside_of_keeps (fun _ => rfl) (KeepsTree.refl s) (KeepsCodes.refl s)

/-- A write of FREQ is in the bounds of a command that writes FREQ. -/
theorem keepsOutside_of_writesFreq {i : Instr} {s t : State} (hi : writesFreq i = true) (tree : KeepsTree s t)
    (codes : KeepsCodes s t) : KeepsOutside i s t :=
  ⟨fun h => absurd (hi.symm.trans h) (by decide), fun _ => tree, fun _ => codes.codes, fun _ _ => codes.codesValid⟩

/-- Every command but RESET is accepted and runs an action that stays in the command's bounds. -/
theorem exec_eq_afterCommand_keepsOutside {i : Instr} (hi : i ≠ .reset) (s : State) :
    ∃ action, exec i s = .next (afterCommand action s) ∧ (action s.accept).Leaves (KeepsOutside i s.accept) := by
  cases i with
  | reset => exact absurd rfl hi
  | clrerr => exact ⟨_, rfl, keepsOutside_of_keeps (fun _ => rfl) ⟨rfl, rfl, rfl, fun _ => rfl⟩ ⟨rfl, fun _ => rfl⟩⟩
  | rdcsr csr => exact ⟨_, rfl, keepsOutside_refl _ _⟩
  | clrfreq =>
    exact ⟨_, rfl, leaves_refuseIfFaulted
      (keepsOutside_of_writesFreq rfl ⟨rfl, rfl, rfl, fun _ => rfl⟩ ⟨rfl, fun _ => rfl⟩)⟩
  | cnt sym =>
    refine ⟨_, rfl, leaves_refuseIfFaulted ?_⟩
    split
    · trivial
    · exact keepsOutside_of_writesFreq rfl ⟨rfl, rfl, rfl, fun _ => rfl⟩ ⟨rfl, fun _ => rfl⟩
  | wrfreq sym val =>
    exact ⟨_, rfl, leaves_refuseIfFaulted
      (keepsOutside_of_writesFreq rfl ⟨rfl, rfl, rfl, fun _ => rfl⟩ ⟨rfl, fun _ => rfl⟩)⟩
  | rdfreq sym => exact ⟨_, rfl, keepsOutside_refl _ _⟩
  | build =>
    refine ⟨_, rfl, leaves_refuseIfFaulted ?_⟩
    split
    · trivial
    · exact ⟨fun _ _ => rfl, fun h => absurd rfl h, fun _ _ => rfl, fun _ h => absurd rfl h⟩
  | rdnode node =>
    refine ⟨_, rfl, leaves_require fun _ => ?_⟩
    split
    · exact keepsOutside_refl _ _
    · trivial
  | assign =>
    exact ⟨_, rfl, leaves_refuseIfFaulted_require fun _ =>
      ⟨fun _ _ => rfl, fun _ => ⟨rfl, rfl, rfl, fun _ => rfl⟩, fun h => absurd rfl h, fun h => absurd rfl h⟩⟩
  | rdclen sym => exact ⟨_, rfl, leaves_require fun _ => keepsOutside_refl _ _⟩
  | rdcode sym w => exact ⟨_, rfl, leaves_require fun _ => keepsOutside_refl _ _⟩
  | encstart =>
    exact ⟨_, rfl, leaves_refuseIfFaulted_require fun _ =>
      keepsOutside_of_keeps (fun _ => rfl) ⟨rfl, rfl, rfl, fun _ => rfl⟩ ⟨rfl, fun _ => rfl⟩⟩
  | enc sym =>
    refine ⟨_, rfl, leaves_refuseIfFaulted_require fun _ => ?_⟩
    dsimp only
    split
    · trivial
    · split
      · trivial
      · exact keepsOutside_of_keeps (fun _ => by simp) (keepsTree_putBits _ _) (keepsCodes_putBits _ _)
  | encend =>
    exact ⟨_, rfl, leaves_refuseIfFaulted_require fun _ =>
      keepsOutside_of_keeps (fun _ => by simp) (keepsTree_closeEncoder _) (keepsCodes_closeEncoder _)⟩
  | decstart =>
    exact ⟨_, rfl, leaves_refuseIfFaulted_require fun _ =>
      keepsOutside_of_keeps (fun _ => rfl) ⟨rfl, rfl, rfl, fun _ => rfl⟩ ⟨rfl, fun _ => rfl⟩⟩
  | dec byte nb =>
    refine ⟨_, rfl, leaves_refuseIfFaulted_require fun _ => ?_⟩
    split
    · trivial
    · exact keepsOutside_of_keeps (fun _ => rfl) ⟨rfl, rfl, rfl, fun _ => rfl⟩ ⟨rfl, fun _ => rfl⟩
  | decend =>
    refine ⟨_, rfl, leaves_refuseIfFaulted_require fun _ => ?_⟩
    split
    · exact keepsOutside_of_keeps (fun _ => rfl) ⟨rfl, rfl, rfl, fun _ => rfl⟩ ⟨rfl, fun _ => rfl⟩
    · trivial

/-- Every command but RESET changes only what it writes, of FREQ, the tree and the code table. -/
theorem exec_keepsOutside {i : Instr} (hi : i ≠ .reset) (s : State) : ∃ t, exec i s = .next t ∧ KeepsOutside i s t := by
  obtain ⟨action, hexec, hleaves⟩ := exec_eq_afterCommand_keepsOutside hi s
  have h : KeepsOutside i s.accept (afterCommand action s) := afterCommand_of_leaves hleaves
    (fun t r h => ⟨h.freq, fun hb => ⟨(h.tree hb).treeValid, (h.tree hb).nsym, (h.tree hb).root, (h.tree hb).nodes⟩,
      h.codes, h.codesValid⟩)
    fun e arg => keepsOutside_of_keeps (fun _ => by simp) (keepsTree_latch _ _ _ _) (keepsCodes_latch _ _ _ _)
  exact ⟨_, hexec, h.freq, fun hb => ⟨(h.tree hb).treeValid, (h.tree hb).nsym, (h.tree hb).root, (h.tree hb).nodes⟩,
    h.codes, h.codesValid⟩

end Sys2Proof.Machine

open Sys2Proof Sys2Proof.Machine

/-- Settles O25, by the bounds of each command: none but the four writes FREQ. -/
theorem onlyFourCommandsChangeTheFrequencyTable : Obligations.OnlyFourCommandsChangeTheFrequencyTable := by
  intro i s hclr hreset hcnt hwr
  have hwrites : writesFreq i = false := by
    cases i with
    | reset => exact absurd rfl hreset
    | clrfreq => exact absurd rfl hclr
    | cnt sym => exact absurd rfl (hcnt sym)
    | wrfreq sym val => exact absurd rfl (hwr sym val)
    | _ => rfl
  obtain ⟨t, hexec, hkeeps⟩ := exec_keepsOutside hreset s
  exact ⟨t, hexec, hkeeps.freq hwrites⟩

/-- Settles O32, by the bounds of each command: none but BUILD and RESET writes the tree. -/
theorem onlyBuildAndResetChangeTheTree : Obligations.OnlyBuildAndResetChangeTheTree := by
  intro i s hbuild hreset
  obtain ⟨t, hexec, hkeeps⟩ := exec_keepsOutside hreset s
  exact ⟨t, hexec, hkeeps.tree hbuild⟩

/-- Settles O39, by the bounds of each command: none but ASSIGN and RESET writes CODE, and of the others only BUILD clears the
flag. -/
theorem onlyAssignAndResetChangeTheCodeTable : Obligations.OnlyAssignAndResetChangeTheCodeTable := by
  intro i s hassign hreset
  obtain ⟨t, hexec, hkeeps⟩ := exec_keepsOutside hreset s
  exact ⟨t, hexec, hkeeps.codes hassign, hkeeps.codesValid hassign⟩

end

section
/-! PROOFS. The assembler's words (30_encoding.md R87). -/

namespace Sys2Proof

/-- What a line that names a command assembles to: in range, the command's word. -/
theorem assemble_eq_some_iff {a : Asm} {i : Instr} (h : a.toInstr = some i) (w : Word) :
    assemble a = some w ↔ a.wellFormed = true ∧ encode i = w := by
  unfold assemble
  split
  · rename_i hwf
    cases a with
    | word v => cases h
    | _ => simp [h, hwf]
  · simp [*]

theorem assemble_word_eq_some_iff (v : Nat) (w : Word) :
    assemble (.word v) = some w ↔ v < 2 ^ 64 ∧ BitVec.ofNat 64 v = w := by
  simp [assemble, Asm.wellFormed]

/-- A command's word as a number: its four fields (R80). -/
theorem encode_toNat (i : Instr) : (encode i).toNat =
    (opcodeOf i).toNat * 2 ^ 56 + (auxOf i).toNat * 2 ^ 48 + (idxOf i).toNat * 2 ^ 32 + (immOf i).toNat :=
  toNat_fields _ _ _ _

/-- The word, as a number, of a line that names a command and is in range, by the numbers in the four fields. -/
theorem toNat_of_assemble (a : Asm) (i : Instr) (op aux idx imm : Nat) {w : Word} (hi : a.toInstr = some i)
    (hop : (opcodeOf i).toNat = op) (haux : a.wellFormed = true → (auxOf i).toNat = aux)
    (hidx : a.wellFormed = true → (idxOf i).toNat = idx) (himm : a.wellFormed = true → (immOf i).toNat = imm)
    (h : assemble a = some w) : w.toNat = op * 2 ^ 56 + aux * 2 ^ 48 + idx * 2 ^ 32 + imm := by
  obtain ⟨hwf, rfl⟩ := (assemble_eq_some_iff hi w).1 h
  rw [encode_toNat, hop, haux hwf, hidx hwf, himm hwf]

/-- An operand of `n` bits in a field of `m` ≥ `n` bits is its number. -/
theorem toNat_field {n m k : Nat} (hk : k < 2 ^ n) (hn : n ≤ m) : ((BitVec.ofNat n k).setWidth m).toNat = k := by
  rw [BitVec.toNat_setWidth, BitVec.toNat_ofNat, Nat.mod_eq_of_lt hk,
    Nat.mod_eq_of_lt (lt_of_lt_of_le hk (Nat.pow_le_pow_right (by decide) hn))]

/-- A line whose one operand, of `n` ≤ 16 bits, stands in `idx`: `rdcsr`, `rdnode` and the lines of one symbol. -/
theorem toNat_of_assemble_idx (a : Asm) (i : Instr) {w : Word} {op k : Nat} (n : Nat) (hi : a.toInstr = some i)
    (hop : (opcodeOf i).toNat = op) (hidx : idxOf i = (BitVec.ofNat n k).setWidth 16) (haux : auxOf i = 0#8)
    (himm : immOf i = 0#32) (hn : n ≤ 16) (hk : a.wellFormed = true → k < 2 ^ n) (h : assemble a = some w) :
    w.toNat = op * 2 ^ 56 + k * 2 ^ 32 := by
  have hw := toNat_of_assemble a i op 0 k 0 hi hop (fun _ => by rw [haux]; rfl)
    (fun hwf => by rw [hidx, toNat_field (hk hwf) hn]) (fun _ => by rw [himm]; rfl) h
  rwa [Nat.zero_mul, Nat.add_zero, Nat.add_zero] at hw

end Sys2Proof

open Sys2Proof

/-- Settles O7, line by line: the number of the command's word, with each operand below its field's size. -/
theorem assembledWordsAreThoseOfTheSyntaxTable : Obligations.AssembledWordsAreThoseOfTheSyntaxTable := by
  refine ⟨by decide, by decide, fun w => ⟨fun k h => ?rdcsr, fun s h => ?cnt, fun s v h => ?wrfreq, fun s h => ?rdfreq,
    fun i h => ?rdnode, fun s h => ?rdclen, fun s c h => ?rdcode, fun s h => ?enc, fun b n h => ?dec, fun v h => ?word⟩⟩
  case rdcsr => exact toNat_of_assemble_idx (.rdcsr k) (.rdcsr _) 3 rfl rfl rfl rfl rfl (by decide) of_decide_eq_true h
  case cnt => exact toNat_of_assemble_idx (.cnt s) (.cnt _) 8 rfl rfl rfl rfl rfl (by decide) of_decide_eq_true h
  case rdfreq => exact toNat_of_assemble_idx (.rdfreq s) (.rdfreq _) 8 rfl rfl rfl rfl rfl (by decide) of_decide_eq_true h
  case rdnode => exact toNat_of_assemble_idx (.rdnode i) (.rdnode _) 9 rfl rfl rfl rfl rfl (by decide) of_decide_eq_true h
  case rdclen => exact toNat_of_assemble_idx (.rdclen s) (.rdclen _) 8 rfl rfl rfl rfl rfl (by decide) of_decide_eq_true h
  case enc => exact toNat_of_assemble_idx (.enc s) (.enc _) 8 rfl rfl rfl rfl rfl (by decide) of_decide_eq_true h
  case wrfreq =>
    have hwf : Asm.wellFormed (.wrfreq s v) = true → s < 2 ^ 8 ∧ v < 2 ^ 32 := by simp [Asm.wellFormed]
    have hw := toNat_of_assemble (.wrfreq s v) (.wrfreq _ _) 0x12 0 s v rfl rfl (fun _ => rfl)
      (fun h => toNat_field (hwf h).1 (by decide)) (fun h => Nat.mod_eq_of_lt (hwf h).2) h
    rwa [Nat.zero_mul, Nat.add_zero] at hw
  case rdcode =>
    have hwf : Asm.wellFormed (.rdcode s c) = true → s < 2 ^ 8 ∧ c < 2 ^ 2 := by simp [Asm.wellFormed]
    have hw := toNat_of_assemble (.rdcode s c) (.rdcode _ _) 0x32 c s 0 rfl rfl (fun h => toNat_field (hwf h).2 (by decide))
      (fun h => toNat_field (hwf h).1 (by decide)) (fun _ => rfl) h
    rwa [Nat.add_zero] at hw
  case dec =>
    have hwf : Asm.wellFormed (.dec b n) = true → b < 2 ^ 8 ∧ n - 1 < 2 ^ 3 := by simp [Asm.wellFormed]; omega
    have hw := toNat_of_assemble (.dec b n) (.dec _ _) 0x51 (n - 1) b 0 rfl rfl (fun h => toNat_field (hwf h).2 (by decide))
      (fun h => toNat_field (hwf h).1 (by decide)) (fun _ => rfl) h
    rwa [Nat.add_zero] at hw
  case word =>
    obtain ⟨hv, rfl⟩ := (assemble_word_eq_some_iff v w).1 h
    exact Nat.mod_eq_of_lt hv

end

section
/-! PROOFS. The bit writer (43_encoder.md R151, R153): ENC, and the invariant of 10_state.md R25 under written bits. -/

namespace Sys2Proof.Machine

@[simp] theorem byteBits_length (b : Byte) : (byteBits b).length = 8 := by simp [byteBits]

/-- The bits of a byte string are eight for each byte. -/
theorem flatMap_byteBits_length (l : List Byte) : (l.flatMap byteBits).length = 8 * l.length := by
  induction l with
  | nil => rfl
  | cons b rest ih => simp [ih]; omega

theorem putBits_nacc_toNat (bits : List Bool) (s : State) :
    (s.putBits bits).nacc.toNat = (s.nacc.toNat + bits.length) % 8 := by
  rw [putBits_nacc, BitVec.toNat_add, BitVec.toNat_ofNat]
  omega

theorem putBits_encbits_toNat (bits : List Bool) (s : State) :
    (s.putBits bits).encbits.toNat = (s.encbits.toNat + bits.length) % 2 ^ 64 := by
  rw [putBits_encbits, BitVec.toNat_add, BitVec.toNat_ofNat]
  omega

/-- Writing bits keeps R25: NACC and ENCBITS advance alike, and 8 divides 2^64. -/
theorem EncoderInv.putBits {s : State} (h : EncoderInv s) (bits : List Bool) : EncoderInv (s.putBits bits) where
  lowZero := by
    obtain ⟨-, -, -, hz⟩ := putBits_bits bits s h.lowZero
    exact hz
  count hactive := by
    have hcount := h.count (by simpa using hactive)
    rw [putBits_nacc_toNat, putBits_encbits_toNat, hcount]
    omega

/-- Bits written fill as many bytes as the bits held and the bits written make up (R151). -/
theorem emitted_length {s t : State} {bytes : List Byte} {bits : List Bool}
    (h : bytes.flatMap byteBits ++ pendingBits t = pendingBits s ++ bits) :
    bytes.length = (s.nacc.toNat + bits.length) / 8 := by
  have hlen := congrArg List.length h
  simp only [List.length_append, flatMap_byteBits_length, pendingBits_length] at hlen
  have := t.nacc.isLt
  omega

/-- ENC of a symbol with a code, in a session with room in ENCBITS (R153). -/
theorem exec_enc_of_valid {s : State} {sym : Symbol} (hnormal : s.err = false) (hactive : s.encActive = true)
    (hvalid : (codeAt s sym.toNat).valid = true) (hroom : s.encbits.toNat + (codeAt s sym.toNat).len.toNat ≤ 2 ^ 64 - 1) :
    exec (.enc sym) s =
      .next ((s.accept.putBits (codeString s sym)).respond ⟨.ok, (codeAt s sym.toNat).len.setWidth 64⟩) := by
  have hroom' : ¬ Config.encBitsMax < s.encbits.toNat + (codeAt s sym.toNat).len.toNat := not_lt.2 hroom
  refine congrArg Host.Outcome.next (afterCommand_of_respond ?_)
  rw [refuseIfFaulted_accept _ hnormal, require_of_set _ _ (by simpa using hactive)]
  simp [hvalid, hroom', codeString]

end Sys2Proof.Machine

open Sys2Proof Sys2Proof.Machine

/-- Settles O45, by the law of written bits; the number of bytes emitted follows from the number of bits. -/
theorem encAppendsTheCode : Obligations.EncAppendsTheCode := by
  intro s sym hnormal hactive hvalid hroom hinv
  have hinv' : EncoderInv s.accept := ⟨hinv.lowZero, hinv.count⟩
  have hlen : (codeString s sym).length = (codeAt s sym.toNat).len.toNat := codeBits_length _
  obtain ⟨bytes, hout, hbits, -⟩ := putBits_bits (codeString s sym) s.accept hinv.lowZero
  have hafter := hinv'.putBits (codeString s sym)
  have hbytes := emitted_length hbits
  have hencbits := putBits_encbits_toNat (codeString s sym) s.accept
  have hnacc := putBits_nacc_toNat (codeString s sym) s.accept
  rw [hlen] at hbytes hencbits hnacc
  refine ⟨_, bytes, (codeAt s sym.toNat).len.setWidth 64, exec_enc_of_valid hnormal hactive hvalid hroom, ?_, ?_, hout, hbytes,
    hbits, ?_, hnacc, ⟨hafter.lowZero, hafter.count⟩, by simpa using hactive, fun a => by simp,
    ⟨by simp, by simp, by simp, fun i => by simp⟩, ⟨by simp, fun a => by simp⟩, ⟨by simp, by simp, by simp⟩,
    ⟨by simp, by simp, by simp, by simp⟩⟩
  · exact ⟨by simp, by simp, by simp, by simp⟩
  · have := (codeAt s sym.toNat).len.isLt
    rw [BitVec.toNat_setWidth, Nat.mod_eq_of_lt (by omega)]
  · exact hencbits.trans (Nat.mod_eq_of_lt (by simp only [State.accept_encbits]; omega))

end

section
/-! PROOFS. BUILD's arena is well formed (41_tree_builder.md R112 to R117): an invariant of the merge loop. -/

namespace Sys2Proof.Machine

/-! ### An internal node -/

/-- Node `k` of the nodes `f` is an internal node as R117 item 2 has it. -/
structure InnerWf (f : Nat → Node) (k : Nat) : Prop where
  leaf  : (f k).leaf = false
  sym   : (f k).sym = 0#8
  left  : (f k).left.toNat < k
  right : (f k).right.toNat < k
  ne    : (f k).left ≠ (f k).right
  freq  : (f k).freq.toNat = (f (f k).left.toNat).freq.toNat + (f (f k).right.toNat).freq.toNat

/-- That reads no node above `k`. -/
theorem InnerWf.congr {f g : Nat → Node} {k : Nat} (h : InnerWf f k) (hfg : ∀ i, i ≤ k → g i = f i) : InnerWf g k := by
  have hk := hfg k le_rfl
  have hleft := hfg _ h.left.le
  have hright := hfg _ h.right.le
  refine ⟨?_, ?_, ?_, ?_, ?_, ?_⟩ <;> rw [hk]
  · exact h.leaf
  · exact h.sym
  · exact h.left
  · exact h.right
  · exact h.ne
  · rw [hleft, hright]
    exact h.freq

/-- The nodes of a list, by index. -/
def nodesOf (arena : List Node) (i : Nat) : Node := arena.getD i default

theorem nodesOf_append_of_lt {arena : List Node} {i : Nat} (h : i < arena.length) (rest : List Node) :
    nodesOf (arena ++ rest) i = nodesOf arena i := List.getD_append _ _ _ _ h

theorem nodesOf_append_length (arena : List Node) (d : Node) : nodesOf (arena ++ [d]) arena.length = d := by
  simp [nodesOf]

theorem nodesOf_eq_getElem {arena : List Node} {i : Nat} (h : i < arena.length) : nodesOf arena i = arena[i] :=
  List.getD_eq_getElem _ _ h

/-- The children of a list of nodes, in order. -/
def childList (l : List Node) : List Nat := l.flatMap fun d => [d.left.toNat, d.right.toNat]

/-! ### The invariant of the merge loop -/

/-- Between two merges over `n` leaves: the queue's members are nodes with their frequencies, every node but those is a child
exactly once, the nodes after the leaves are internal nodes, the last node made is queued, and no sum overflows. -/
structure MergeInv (n : Nat) (arena : List Node) (pq : List Key) : Prop where
  leaves : n ≤ arena.length
  room   : arena.length + pq.length ≤ 512
  keys   : ∀ k ∈ pq, (nodesOf arena k.idx).freq = k.freq
  once   : (childList (arena.drop n) ++ pq.map Key.idx).Perm (List.range arena.length)
  inner  : ∀ k, n ≤ k → k < arena.length → InnerWf (nodesOf arena) k
  newest : arena.length - 1 ∈ pq.map Key.idx
  total  : (pq.map fun k => k.freq.toNat).sum < 2 ^ 40

/-- The queue's start holds each leaf with its frequency. -/
theorem freq_of_mem_keysFrom {l : List Node} {i : Nat} {k : Key} (h : k ∈ keysFrom i l) :
    i ≤ k.idx ∧ (nodesOf l (k.idx - i)).freq = k.freq := by
  induction l generalizing i with
  | nil => simp [keysFrom] at h
  | cons d rest ih =>
    rcases List.mem_cons.1 h with rfl | h
    · simp [nodesOf]
    · obtain ⟨hle, hfreq⟩ := ih h
      have : k.idx - i = k.idx - (i + 1) + 1 := by omega
      exact ⟨by omega, by rw [this]; exact hfreq⟩

theorem keysFrom_freq_toNat (i : Nat) (l : List Node) :
    (keysFrom i l).map (fun k => k.freq.toNat) = l.map fun d => d.freq.toNat := by
  have := congrArg (List.map BitVec.toNat) (keysFrom_freq i l)
  rwa [List.map_map, List.map_map] at this

/-- The invariant holds of the leaves, each queued (R112). -/
theorem mergeInv_start {l : List Node} (hne : l ≠ []) (hlen : l.length ≤ 256)
    (htotal : (l.map fun d => d.freq.toNat).sum < 2 ^ 40) : MergeInv l.length l (keysFrom 0 l) where
  leaves := le_rfl
  room := by rw [keysFrom_length]; omega
  keys k hk := (freq_of_mem_keysFrom hk).2
  once := by simp [childList, List.range_eq_range']
  inner k h1 h2 := absurd h2 (not_lt.2 h1)
  newest := by
    have := List.length_pos_of_ne_nil hne
    simp only [keysFrom_idx, List.mem_range'_1]
    omega
  total := by rwa [keysFrom_freq_toNat]

/-- The queue's members are nodes made so far. -/
theorem MergeInv.idx_lt {n : Nat} {arena : List Node} {pq : List Key} (h : MergeInv n arena pq) {k : Key} (hk : k ∈ pq) :
    k.idx < arena.length :=
  List.mem_range.1 (h.once.mem_iff.1 (List.mem_append_right _ (List.mem_map_of_mem hk)))

/-- A queue that is not empty leaves room for one more node. -/
theorem MergeInv.length_lt {n : Nat} {arena : List Node} {pq : List Key} (h : MergeInv n arena pq) {k : Key} (hk : k ∈ pq) :
    arena.length < 512 := by
  have hpos := List.length_pos_of_mem hk
  have hroom := h.room
  omega

/-- No node is queued twice. -/
theorem MergeInv.idx_nodup {n : Nat} {arena : List Node} {pq : List Key} (h : MergeInv n arena pq) :
    (pq.map Key.idx).Nodup :=
  (List.nodup_append.1 (h.once.nodup_iff.2 List.nodup_range)).2.1

/-- The node of two members made before it is an internal node (R114). -/
theorem innerWf_mergeNode {arena : List Node} {a b : Key} (hlen : arena.length < 512) (ha : a.idx < arena.length)
    (hb : b.idx < arena.length) (hne : a.idx ≠ b.idx) (hafreq : (nodesOf arena a.idx).freq = a.freq)
    (hbfreq : (nodesOf arena b.idx).freq = b.freq) (hsum : a.freq.toNat + b.freq.toNat < 2 ^ 40) :
    InnerWf (nodesOf (arena ++ [mergeNode a b])) arena.length := by
  have hnode := nodesOf_append_length arena (mergeNode a b)
  have hleft : (mergeNode a b).left.toNat = a.idx := Nat.mod_eq_of_lt (ha.trans hlen)
  have hright : (mergeNode a b).right.toNat = b.idx := Nat.mod_eq_of_lt (hb.trans hlen)
  refine ⟨?_, ?_, ?_, ?_, ?_, ?_⟩ <;> rw [hnode]
  · rfl
  · rfl
  · exact hleft.trans_lt ha
  · exact hright.trans_lt hb
  · exact fun heq => hne (by rw [← hleft, ← hright, heq])
  · rw [hleft, hright, nodesOf_append_of_lt ha, nodesOf_append_of_lt hb, hafreq, hbfreq]
    exact BitVec.toNat_add_of_lt hsum

/-- The two members become children. -/
theorem childList_drop_append_mergeNode {n : Nat} {arena : List Node} {a b : Key} (hn : n ≤ arena.length)
    (ha : a.idx < 512) (hb : b.idx < 512) :
    childList ((arena ++ [mergeNode a b]).drop n) = childList (arena.drop n) ++ [a.idx, b.idx] := by
  have hleft : (mergeNode a b).left.toNat = a.idx := Nat.mod_eq_of_lt ha
  have hright : (mergeNode a b).right.toNat = b.idx := Nat.mod_eq_of_lt hb
  rw [List.drop_append_of_le_length hn]
  simp [childList, hleft, hright]

/-- A merge keeps the invariant: the two removed members become the children of the new node, which is queued (R114). -/
theorem MergeInv.merge {n : Nat} {arena : List Node} {pq rest : List Key} {a b : Key} (h : MergeInv n arena pq)
    (hp : (a :: b :: rest).Perm pq) :
    MergeInv n (arena ++ [mergeNode a b]) (⟨a.freq + b.freq, arena.length⟩ :: rest) := by
  have hapq : a ∈ pq := hp.mem_iff.1 (by simp)
  have hbpq : b ∈ pq := hp.mem_iff.1 (by simp)
  have hlen : rest.length + 2 = pq.length := hp.length_eq
  have hroom := h.room
  have hleaves := h.leaves
  have hlt := h.length_lt hapq
  have ha := h.idx_lt hapq
  have hb := h.idx_lt hbpq
  have hne : a.idx ≠ b.idx := by
    have hnodup := (hp.map Key.idx).nodup_iff.2 h.idx_nodup
    simp only [List.map_cons, List.nodup_cons, List.mem_cons, not_or] at hnodup
    exact hnodup.1.1
  have htotal : a.freq.toNat + (b.freq.toNat + (rest.map fun k => k.freq.toNat).sum) < 2 ^ 40 := by
    simpa [← (hp.map fun k => k.freq.toNat).sum_eq] using h.total
  refine ⟨by simp; omega, by simp; omega, ?keys, ?once, ?inner, by simp, ?total⟩
  case keys =>
    intro k hk
    rcases List.mem_cons.1 hk with rfl | hk
    · rw [nodesOf_append_length]
      rfl
    · have hkpq : k ∈ pq := hp.mem_iff.1 (by simp [hk])
      rw [nodesOf_append_of_lt (h.idx_lt hkpq)]
      exact h.keys k hkpq
  case once =>
    have honce := ((hp.map Key.idx).append_left (childList (arena.drop n))).trans h.once
    have hsplit : (childList (arena.drop n) ++ [a.idx, b.idx] ++ arena.length :: rest.map Key.idx).Perm
        ((childList (arena.drop n) ++ (a :: b :: rest).map Key.idx) ++ [arena.length]) := by
      refine List.perm_middle.trans ((List.perm_append_singleton _ _).symm.trans ?_)
      simp
    rw [childList_drop_append_mergeNode hleaves (ha.trans hlt) (hb.trans hlt), List.length_append, List.length_singleton,
      List.range_succ]
    exact hsplit.trans (honce.append_right _)
  case inner =>
    intro k hn hk
    rcases Nat.lt_or_ge k arena.length with hold | hnew
    · exact (h.inner k hn hold).congr fun i hi => nodesOf_append_of_lt (hi.trans_lt hold) _
    · obtain rfl : k = arena.length := by simp at hk; omega
      exact innerWf_mergeNode hlt ha hb hne (h.keys a hapq) (h.keys b hbpq) (by omega)
  case total =>
    have hsum : (a.freq + b.freq).toNat = a.freq.toNat + b.freq.toNat := BitVec.toNat_add_of_lt (by omega)
    simp only [List.map_cons, List.sum_cons, hsum]
    omega

/-- So the loop keeps it. -/
theorem MergeInv.loop {n fuel : Nat} {arena : List Node} {pq : List Key} (h : MergeInv n arena pq) (hlen : pq.length = fuel + 1) :
    MergeInv n (mergeLoop fuel arena pq).1 (mergeLoop fuel arena pq).2 := by
  induction fuel generalizing arena pq with
  | zero => exact h
  | succ fuel ih =>
    match pq, hlen with
    | k :: x :: rest, hlen =>
      obtain ⟨a, b, pq', -, -, hp, hloop⟩ := mergeLoop_step fuel arena k x rest
      have hl := hp.length_eq
      rw [hloop]
      refine ih (h.merge hp) ?_
      simp only [List.length_cons] at hlen hl ⊢
      omega

/-! ### The tree of a list of leaves -/

/-- A tree over `n` leaves: the last of its 2n − 1 nodes is the root, those after the leaves are internal nodes, and every node
but the root is a child exactly once (R115, R117). -/
structure TreeWf (n : Nat) (t : BuiltTree) : Prop where
  length : t.nodes.length = 2 * n - 1
  root   : t.root = 2 * n - 2
  inner  : ∀ k, n ≤ k → k < 2 * n - 1 → InnerWf (nodesOf t.nodes) k
  once   : (childList (t.nodes.drop n)).Perm (List.range (2 * n - 2))

theorem treeWf_buildTree {l : List Node} (hne : l ≠ []) (hlen : l.length ≤ 256)
    (htotal : (l.map fun d => d.freq.toNat).sum < 2 ^ 40) : TreeWf l.length (buildTree l) := by
  have hpos := List.length_pos_of_ne_nil hne
  have hkeys : (keysFrom 0 l).length = l.length - 1 + 1 := by rw [keysFrom_length]; omega
  have hinv := (mergeInv_start hne hlen htotal).loop hkeys
  have hnodes : (buildTree l).nodes = (mergeLoop (l.length - 1) l (keysFrom 0 l)).1 := rfl
  have hlength := (buildTree_nodes l hne).1
  obtain ⟨k, hk⟩ := List.length_eq_one_iff.1 (mergeLoop_lengths _ l _ hkeys).2
  rw [← hnodes, hk] at hinv
  have hroot : k.idx = 2 * l.length - 2 := by
    have := hinv.newest
    simp only [List.map_cons, List.map_nil, List.mem_singleton] at this
    omega
  refine ⟨hlength, ?_, fun k h1 h2 => hinv.inner k h1 (hlength ▸ h2), ?_⟩
  · simp [buildTree, hk, hroot]
  · have honce := hinv.once
    have hrange : 2 * l.length - 1 = 2 * l.length - 2 + 1 := by omega
    rw [hlength, hrange, List.range_succ, List.map_cons, List.map_nil, hroot] at honce
    exact (List.perm_append_right_iff _).1 honce

/-! ### The leaves, and the state after BUILD -/

/-- The counts of at most 256 symbols sum to less than 2^40. -/
theorem leaves_total_lt (s : State) : ((leaves s).map fun d => d.freq.toNat).sum < 2 ^ 40 := by
  have hle : ∀ x ∈ (leaves s).map fun d => d.freq.toNat, x ≤ 2 ^ 32 - 1 := by
    intro x hx
    obtain ⟨d, hd, rfl⟩ := List.mem_map.1 hx
    obtain ⟨a, -, rfl⟩ := List.mem_map.1 hd
    have := (freqAt s a).isLt
    simp only [leafNode, BitVec.toNat_setWidth]
    omega
  have hsum := List.sum_le_card_nsmul _ _ hle
  have hlen := presentSymbols_length_le s
  simp only [List.length_map, leaves_length, smul_eq_mul] at hsum
  omega

theorem leaves_ne_nil {s : State} (h : presentSymbols s ≠ []) : leaves s ≠ [] := by simpa [leaves] using h

/-- The tree that BUILD makes. -/
theorem treeWf_leaves {s : State} (h : presentSymbols s ≠ []) : TreeWf (presentSymbols s).length (buildTree (leaves s)) := by
  rw [← leaves_length]
  exact treeWf_buildTree (leaves_ne_nil h) (by simpa using presentSymbols_length_le s) (leaves_total_lt s)

/-- The nodes of the tree, after BUILD. -/
theorem nodeAt_afterBuild {s : State} {i : Nat} (h : i < (buildTree (leaves s)).nodes.length) :
    nodeAt s.afterBuild i = nodesOf (buildTree (leaves s)).nodes i := by
  rw [nodesOf_eq_getElem h, State.afterBuild, nodeAt_flagsAfterBuild, nodeAt_storeTree, dif_pos h]

/-- The k-th node is the leaf of the k-th present symbol (R111). -/
theorem nodeAt_afterBuild_leaf {s : State} {k : Nat} (h : k < (presentSymbols s).length) :
    nodeAt s.afterBuild k = leafNode (presentSymbols s)[k] (freqAt s (presentSymbols s)[k]) := by
  have hne : presentSymbols s ≠ [] := List.ne_nil_of_length_pos (by omega)
  obtain ⟨rest, hrest⟩ := (buildTree_nodes (leaves s) (leaves_ne_nil hne)).2
  have hk : k < (leaves s).length := by simpa using h
  rw [nodeAt_afterBuild (by rw [(treeWf_leaves hne).length]; omega), ← hrest, nodesOf_append_of_lt hk, nodesOf_eq_getElem hk]
  simp [leaves]

/-- The children of the internal nodes, as the tree's list has them. -/
theorem childIndices_eq_childList (s : State) (n : Nat) :
    childIndices s n = childList ((List.range (n - 1)).map fun m => nodeAt s (n + m)) := by
  simp [childIndices, childList, List.flatMap_map]

theorem childIndices_afterBuild {s : State} (h : presentSymbols s ≠ []) :
    childIndices s.afterBuild (presentSymbols s).length =
      childList ((buildTree (leaves s)).nodes.drop (presentSymbols s).length) := by
  have hlength := (treeWf_leaves h).length
  rw [childIndices_eq_childList]
  congr 1
  apply List.ext_getElem
  · simp only [List.length_map, List.length_range, List.length_drop, hlength]
    omega
  · intro i h1 h2
    simp only [List.length_map, List.length_range] at h1
    have hi : (presentSymbols s).length + i < (buildTree (leaves s)).nodes.length := by rw [hlength]; omega
    simp [nodeAt_afterBuild hi, nodesOf_eq_getElem hi]

/-- BUILD leaves a well-formed arena (R117). -/
theorem arenaWf_afterBuild {s : State} (h : presentSymbols s ≠ []) : ArenaWf s.afterBuild (presentSymbols s).length := by
  have htree := treeWf_leaves h
  have hchildren := childIndices_afterBuild h
  have hmem := fun k (hk : k < (presentSymbols s).length) => mem_presentSymbols.1 (List.getElem_mem hk)
  refine ⟨?leaf, ?ascending, ?inner, ?once, ?rootFree⟩
  case leaf =>
    intro k hk
    have hne : (freqAt s (presentSymbols s)[k]).toNat ≠ 0 := fun h0 => (hmem k hk).2 (BitVec.eq_of_toNat_eq h0)
    have hlt := (freqAt s (presentSymbols s)[k]).isLt
    rw [nodeAt_afterBuild_leaf hk]
    refine ⟨rfl, rfl, rfl, ?_⟩
    simp only [leafNode, BitVec.toNat_setWidth]
    omega
  case ascending =>
    intro k hk
    have hsorted := List.pairwise_iff_getElem.1 (presentSymbols_sorted s) k (k + 1) (by omega) hk (by omega)
    rw [nodeAt_afterBuild_leaf hk, nodeAt_afterBuild_leaf (by omega)]
    simp only [leafNode, BitVec.toNat_ofNat]
    have := (hmem (k + 1) hk).1
    omega
  case inner =>
    intro k hn hk
    have hinner := (htree.inner k hn hk).congr (g := nodeAt s.afterBuild)
      fun i hi => nodeAt_afterBuild (by rw [htree.length]; omega)
    exact ⟨hinner.leaf, hinner.sym, hinner.left, hinner.right, hinner.ne, hinner.freq⟩
  case once =>
    intro j hj
    rw [hchildren, htree.once.count_eq]
    exact List.count_eq_one_of_mem List.nodup_range (List.mem_range.2 hj)
  case rootFree =>
    rw [hchildren, htree.once.count_eq, List.count_eq_zero]
    simp

/-- BUILD sets NSYM to the number of present symbols (R110). -/
theorem nsym_afterBuild (s : State) : s.afterBuild.nsym.toNat = (presentSymbols s).length := by
  have hle := presentSymbols_length_le s
  show (BitVec.ofNat 9 (leaves s).length).toNat = _
  rw [leaves_length]
  exact Nat.mod_eq_of_lt (by omega)

/-- BUILD leaves a tree as R24 and R117 have it. -/
theorem treeInv_afterBuild {s : State} (h : presentSymbols s ≠ []) : TreeInv s.afterBuild where
  absent hinvalid := by cases hinvalid
  present _ := by
    have hpos := List.length_pos_of_ne_nil h
    have hle := presentSymbols_length_le s
    have hroot : s.afterBuild.root.toNat = 2 * (presentSymbols s).length - 2 := by
      show (BitVec.ofNat 9 (buildTree (leaves s)).root).toNat = _
      rw [(treeWf_leaves h).root]
      exact Nat.mod_eq_of_lt (by omega)
    rw [nsym_afterBuild]
    exact ⟨hpos, hle, hroot, arenaWf_afterBuild h⟩

end Sys2Proof.Machine
end

section
/-! PROOFS. ASSIGN's table is the tree's (42_code_assigner.md R130 to R133): the walk reaches every leaf, each by a path of at
most n − 1 edges (R136). -/

namespace Sys2Proof.Machine

variable {s : State} {n : Nat}

/-! ### The nodes of a well-formed arena -/

/-- The leaves of a tree are its first `n` nodes. -/
theorem ArenaWf.leaf_iff (h : ArenaWf s n) {k : Nat} (hk : k < 2 * n - 1) : (nodeAt s k).leaf = true ↔ k < n := by
  constructor
  · intro hleaf
    by_contra hn
    exact absurd (hleaf.symm.trans (h.inner k (not_lt.1 hn) hk).1) (by decide)
  · exact fun hn => (h.leaf k hn).1

/-- The children of an internal node stand below it. -/
theorem ArenaWf.child_lt (h : ArenaWf s n) {k : Nat} (hk : k < 2 * n - 1) (hleaf : (nodeAt s k).leaf = false) (b : Bool) :
    (childOf (nodeAt s k) b).toNat < k := by
  have hn : n ≤ k := not_lt.1 fun hlt => absurd ((h.leaf_iff hk).2 hlt) (by simp [hleaf])
  obtain ⟨-, -, hleft, hright, -⟩ := h.inner k hn hk
  cases b
  · exact hleft
  · exact hright

/-- Every node but the root is a child of an internal node. -/
theorem ArenaWf.exists_parent (h : ArenaWf s n) {j : Nat} (hj : j < 2 * n - 2) :
    ∃ k b, n ≤ k ∧ k < 2 * n - 1 ∧ (nodeAt s k).leaf = false ∧ (childOf (nodeAt s k) b).toNat = j := by
  have hmem : j ∈ childIndices s n := List.count_pos_iff.1 (by rw [h.once j hj]; decide)
  obtain ⟨m, hm, hchild⟩ := List.mem_flatMap.1 hmem
  have hm := List.mem_range.1 hm
  have hinner := (h.inner (n + m) (by omega) (by omega)).1
  rcases List.mem_pair.1 hchild with hleft | hright
  · exact ⟨n + m, false, by omega, by omega, hinner, hleft.symm⟩
  · exact ⟨n + m, true, by omega, by omega, hinner, hright.symm⟩

/-- The leaves' symbols ascend. -/
theorem ArenaWf.sym_lt (h : ArenaWf s n) {j k : Nat} (hjk : j < k) (hk : k < n) :
    (nodeAt s j).sym.toNat < (nodeAt s k).sym.toNat := by
  induction k, hjk using Nat.le_induction with
  | base => exact h.ascending j hk
  | succ k _ ih => exact (ih (by omega)).trans (h.ascending k hk)

/-- So no two leaves have the same symbol. -/
theorem ArenaWf.sym_inj (h : ArenaWf s n) {j k : Nat} (hj : j < n) (hk : k < n) (heq : (nodeAt s j).sym = (nodeAt s k).sym) :
    j = k := by
  rcases Nat.lt_trichotomy j k with hlt | rfl | hlt
  · exact absurd (h.sym_lt hlt hk) (by simp [heq])
  · rfl
  · exact absurd (h.sym_lt hlt hj) (by simp [heq])

/-! ### Walking down -/

theorem walkDown_cons {i : NodeIdx} (hleaf : (nodeAt s i.toNat).leaf = false) (b : Bool) (p : List Bool) :
    walkDown s i (b :: p) = walkDown s (childOf (nodeAt s i.toNat) b) p := by
  simp [walkDown, hleaf]

/-- A walk reads the nodes only. -/
theorem walkDown_congr {t : State} (h : ∀ i, nodeAt t i = nodeAt s i) (i : NodeIdx) (p : List Bool) :
    walkDown t i p = walkDown s i p := by
  induction p generalizing i with
  | nil => rfl
  | cons b p ih => simp only [walkDown, h, ih]

/-- One more bit of a walk that stops at an internal node. -/
theorem walkDown_snoc {i k : NodeIdx} {p : List Bool} (h : walkDown s i p = some k)
    (hleaf : (nodeAt s k.toNat).leaf = false) (b : Bool) :
    walkDown s i (p ++ [b]) = some (childOf (nodeAt s k.toNat) b) := by
  induction p generalizing i with
  | nil =>
    obtain rfl : i = k := Option.some.inj h
    exact walkDown_cons hleaf b []
  | cons c p ih =>
    cases hi : (nodeAt s i.toNat).leaf with
    | true => simp [walkDown, hi] at h
    | false =>
      rw [walkDown_cons hi] at h
      rw [List.cons_append, walkDown_cons hi]
      exact ih h

/-- A walk in a well-formed arena stays in it. -/
theorem ArenaWf.walkDown_lt (h : ArenaWf s n) {i k : NodeIdx} {p : List Bool} (hi : i.toNat < 2 * n - 1)
    (hwalk : walkDown s i p = some k) : k.toNat < 2 * n - 1 := by
  induction p generalizing i with
  | nil =>
    obtain rfl : i = k := Option.some.inj hwalk
    exact hi
  | cons b p ih =>
    cases hleaf : (nodeAt s i.toNat).leaf with
    | true => simp [walkDown, hleaf] at hwalk
    | false =>
      rw [walkDown_cons hleaf] at hwalk
      exact ih ((h.child_lt hi hleaf b).trans hi) hwalk

/-- Every node is reached from the root, over at most one internal node for each index from its own, or from `n`, up to the root
(R131, R136). -/
theorem ArenaWf.exists_walkDown (h : ArenaWf s n) {root : NodeIdx} (hroot : root.toNat = 2 * n - 2) (d : Nat) (j : NodeIdx)
    (hj : j.toNat + d = 2 * n - 2) : ∃ p, walkDown s root p = some j ∧ p.length ≤ d ∧ p.length ≤ n - 1 := by
  induction d using Nat.strong_induction_on generalizing j with
  | _ d ih =>
    rcases Nat.eq_zero_or_pos d with rfl | hd
    · exact ⟨[], congrArg some (BitVec.eq_of_toNat_eq (by omega)), by simp, by simp⟩
    · obtain ⟨k, b, hn, hk, hleaf, hchild⟩ := h.exists_parent (j := j.toNat) (by omega)
      have hlt : j.toNat < k := hchild ▸ h.child_lt hk hleaf b
      have hk9 : (BitVec.ofNat 9 k).toNat = k := Nat.mod_eq_of_lt (by have := root.isLt; omega)
      obtain ⟨p, hwalk, hle, -⟩ := ih (2 * n - 2 - k) (by omega) (BitVec.ofNat 9 k) (by omega)
      refine ⟨p ++ [b], ?_, by simp; omega, by simp; omega⟩
      rw [walkDown_snoc hwalk (by rwa [hk9]), hk9]
      exact congrArg some (BitVec.eq_of_toNat_eq hchild)

/-! ### What the walk of ASSIGN writes -/

/-- The bits `p` lead from node `i` to a leaf of the symbol `a`. -/
def LeadsTo (s : State) (i : NodeIdx) (p : List Bool) (a : Nat) : Prop :=
  ∃ k, walkDown s i p = some k ∧ (nodeAt s k.toNat).leaf = true ∧ (nodeAt s k.toNat).sym.toNat = a

theorem leadsTo_of_leaf {i : NodeIdx} (hleaf : (nodeAt s i.toNat).leaf = true) {p : List Bool} {a : Nat} :
    LeadsTo s i p a ↔ p = [] ∧ (nodeAt s i.toNat).sym.toNat = a := by
  cases p with
  | nil => simp [LeadsTo, walkDown, hleaf]
  | cons b p => simp [LeadsTo, walkDown, hleaf]

theorem leadsTo_nil_of_inner {i : NodeIdx} (hleaf : (nodeAt s i.toNat).leaf = false) {a : Nat} : ¬ LeadsTo s i [] a := by
  simp [LeadsTo, walkDown, hleaf]

theorem leadsTo_cons {i : NodeIdx} (hleaf : (nodeAt s i.toNat).leaf = false) {b : Bool} {p : List Bool} {a : Nat} :
    LeadsTo s i (b :: p) a ↔ LeadsTo s (childOf (nodeAt s i.toNat) b) p a := by
  unfold LeadsTo
  rw [walkDown_cons hleaf]

/-- The table `m` has, for the symbol `a`, the string `c` followed by bits, fewer than `fuel`, that lead from `i` to a leaf of
`a`. -/
def Records (s : State) (fuel : Nat) (i : NodeIdx) (c : List Bool) (m : Memory CodeEntry) (a : Nat) : Prop :=
  ∃ p, p.length < fuel ∧ LeadsTo s i p a ∧ m.read a = some (storeCode (c ++ p))

theorem Records.of_child {fuel : Nat} {i : NodeIdx} {c : List Bool} {m : Memory CodeEntry} {a : Nat} {b : Bool}
    (hleaf : (nodeAt s i.toNat).leaf = false) (h : Records s fuel (childOf (nodeAt s i.toNat) b) (c ++ [b]) m a) :
    Records s (fuel + 1) i c m a := by
  obtain ⟨p, hlen, hleads, hread⟩ := h
  exact ⟨b :: p, Nat.succ_lt_succ hlen, (leadsTo_cons hleaf).2 hleads, by rw [hread, List.append_assoc]; rfl⟩

/-- A walk writes nothing else (R130). -/
theorem read_walk_sound (fuel : Nat) (i : NodeIdx) (c : List Bool) (table : Memory CodeEntry) (a : Nat) :
    (walk s fuel i c table).read a = table.read a ∨ Records s fuel i c (walk s fuel i c table) a := by
  induction fuel generalizing i c table with
  | zero => exact .inl rfl
  | succ fuel ih =>
    cases hleaf : (nodeAt s i.toNat).leaf with
    | true =>
      rw [walk_leaf s fuel i c table hleaf]
      by_cases ha : a = (nodeAt s i.toNat).sym.toNat
      · subst ha
        exact .inr ⟨[], by simp, (leadsTo_of_leaf hleaf).2 ⟨rfl, rfl⟩, by simp⟩
      · exact .inl (Memory.read_write_of_ne _ _ ha)
    | false =>
      rw [walk_inner s fuel i c table hleaf]
      rcases ih (nodeAt s i.toNat).right (c ++ [true]) (walk s fuel (nodeAt s i.toNat).left (c ++ [false]) table) with hr | hr
      · rcases ih (nodeAt s i.toNat).left (c ++ [false]) table with hl | hl
        · exact .inl (hr.trans hl)
        · obtain ⟨p, hlen, hleads, hread⟩ := hl
          exact .inr (Records.of_child (b := false) hleaf ⟨p, hlen, hleads, hr.trans hread⟩)
      · exact .inr (Records.of_child (b := true) hleaf hr)

/-- A walk writes the entry of every leaf that its fuel reaches (R130). -/
theorem read_walk_complete {fuel : Nat} {i : NodeIdx} {p : List Bool} {a : Nat} (hleads : LeadsTo s i p a)
    (hlen : p.length < fuel) (c : List Bool) (table : Memory CodeEntry) : Records s fuel i c (walk s fuel i c table) a := by
  induction fuel generalizing i p c table with
  | zero => exact absurd hlen (Nat.not_lt_zero _)
  | succ fuel ih =>
    cases hleaf : (nodeAt s i.toNat).leaf with
    | true =>
      obtain ⟨rfl, rfl⟩ := (leadsTo_of_leaf hleaf).1 hleads
      rw [walk_leaf s fuel i c table hleaf]
      exact ⟨[], hlen, hleads, by simp⟩
    | false =>
      rw [walk_inner s fuel i c table hleaf]
      cases p with
      | nil => exact absurd hleads (leadsTo_nil_of_inner hleaf)
      | cons b p =>
        have hchild := (leadsTo_cons hleaf).1 hleads
        have hp : p.length < fuel := Nat.lt_of_succ_lt_succ hlen
        cases b with
        | true => exact Records.of_child (b := true) hleaf (ih hchild hp _ _)
        | false =>
          obtain ⟨q, hq, hqleads, hqread⟩ := ih hchild hp (c ++ [false]) table
          rcases read_walk_sound (s := s) fuel (nodeAt s i.toNat).right (c ++ [true])
            (walk s fuel (nodeAt s i.toNat).left (c ++ [false]) table) a with hr | hr
          · exact Records.of_child (b := false) hleaf ⟨q, hq, hqleads, hr.trans hqread⟩
          · exact Records.of_child (b := true) hleaf hr

/-! ### The table of the tree -/

/-- The entry `e` is the stored code of a leaf of the symbol `a`. -/
def IsEntryOfLeaf (s : State) (a : Symbol) (e : CodeEntry) : Prop :=
  ∃ k c, k < s.nsym.toNat ∧ (nodeAt s k).sym = a ∧ c.length ≤ 255 ∧ IsLeafCode s k c ∧ e = storeCode c

/-- The entry `e` of the symbol `a` is the tree's: that of its leaf, or absent if it has none (R131 to R133). -/
def IsEntryOfTree (s : State) (a : Symbol) (e : CodeEntry) : Prop :=
  IsEntryOfLeaf s a e ∨ ((∀ k, k < s.nsym.toNat → (nodeAt s k).sym ≠ a) ∧ e = absentCode)

/-- Entries that are the tree's make a code table of the tree. -/
theorem codesOfTree_of_entries (h : ArenaWf s s.nsym.toNat)
    (hentries : ∀ a : Symbol, IsEntryOfTree s a (codeAt s a.toNat)) : CodesOfTree s where
  domain a := by
    rcases hentries a with ⟨k, c, hk, hsym, -, -, he⟩ | ⟨hno, he⟩
    · rw [he]
      exact ⟨fun _ => ⟨k, hk, hsym⟩, fun _ => rfl⟩
    · rw [he]
      exact ⟨fun hv => absurd hv (by decide), fun ⟨k, hk, hsym⟩ => absurd hsym (hno k hk)⟩
  paths k hk := by
    rcases hentries (nodeAt s k).sym with ⟨j, c, hj, hsym, hlen, hcode, he⟩ | ⟨hno, -⟩
    · obtain rfl := h.sym_inj hj hk hsym
      rw [codeString, he, codeBits_storeCode c hlen]
      exact hcode
    · exact absurd rfl (hno k hk)
  stored a hvalid := by
    rcases hentries a with ⟨k, c, -, -, hlen, -, he⟩ | ⟨-, he⟩
    · rw [codeString, he, codeBits_storeCode c hlen]
      rfl
    · rw [he] at hvalid
      cases hvalid
  absent a hvalid := by
    rcases hentries a with ⟨k, c, -, -, -, -, he⟩ | ⟨-, he⟩
    · rw [he] at hvalid
      cases hvalid
    · exact he

/-- A single leaf is the root. -/
theorem codeTable_of_single (hroot : (nodeAt s s.root.toNat).leaf = true) :
    codeTable s = emptyTable.write (nodeAt s s.root.toNat).sym.toNat (storeCode [false]) := by
  simp [codeTable, hroot]

theorem codeTable_of_inner (hroot : (nodeAt s s.root.toNat).leaf = false) :
    codeTable s = walk s (Config.maxLen + 1) s.root [] emptyTable := by
  simp [codeTable, hroot]

/-- Of a single leaf the table lists the code "0", and no other code (R132, R133). -/
theorem read_codeTable_of_single (h : ArenaWf s 1) (hnsym : s.nsym = 1#9) (hroot : s.root.toNat = 0) (a : Symbol) :
    ∃ e, (codeTable s).read a.toNat = some e ∧ IsEntryOfTree s a e := by
  have hleaf := (h.leaf 0 (by decide)).1
  have hone : s.nsym.toNat = 1 := by rw [hnsym]; rfl
  rw [codeTable_of_single (by rwa [hroot]), hroot]
  by_cases ha : a = (nodeAt s 0).sym
  · refine ⟨_, by rw [ha]; exact Memory.read_write_same _ _ _, .inl ⟨0, [false], by omega, ha.symm, by simp, ?_, rfl⟩⟩
    rw [IsLeafCode, if_pos hnsym]
  · refine ⟨absentCode, ?_, .inr ⟨fun k hk => ?_, rfl⟩⟩
    · rw [Memory.read_write_of_ne _ _ fun heq => ha (BitVec.eq_of_toNat_eq heq)]
      exact read_emptyTable a.isLt
    · obtain rfl : k = 0 := by omega
      exact Ne.symm ha

/-- Bits lead from the root to the leaf of a present symbol, at most n − 1 of them (R136). -/
theorem ArenaWf.exists_leadsTo (h : ArenaWf s n) (hroot : s.root.toNat = 2 * n - 2) {k : Nat} (hk : k < n) :
    ∃ p, LeadsTo s s.root p (nodeAt s k).sym.toNat ∧ p.length ≤ n - 1 := by
  have hk9 : (BitVec.ofNat 9 k).toNat = k := Nat.mod_eq_of_lt (by have := s.root.isLt; omega)
  obtain ⟨p, hwalk, -, hlen⟩ := h.exists_walkDown hroot (2 * n - 2 - k) (BitVec.ofNat 9 k) (by omega)
  exact ⟨p, ⟨_, hwalk, by rw [hk9]; exact (h.leaf k hk).1, by rw [hk9]⟩, hlen⟩

/-- What a walk from the root of two or more leaves records for a symbol is the code of its leaf (R131). -/
theorem Records.isEntryOfLeaf {m : Memory CodeEntry} {a : Symbol} (hrec : Records s 256 s.root [] m a.toNat)
    (h : ArenaWf s s.nsym.toNat) (hroot : s.root.toNat < 2 * s.nsym.toNat - 1) (hmany : s.nsym ≠ 1#9) :
    ∃ e, m.read a.toNat = some e ∧ IsEntryOfLeaf s a e := by
  obtain ⟨p, hlen, ⟨k, hwalk, hkleaf, hksym⟩, hread⟩ := hrec
  have hk := (h.leaf_iff (h.walkDown_lt hroot hwalk)).1 hkleaf
  refine ⟨_, hread, k.toNat, p, hk, BitVec.eq_of_toNat_eq hksym, Nat.le_of_lt_succ hlen, ?_, rfl⟩
  rw [IsLeafCode, if_neg hmany, hwalk]
  simp

/-- Of two or more leaves the table lists the walked paths, and no other code (R131, R133). -/
theorem read_codeTable_of_many (h : ArenaWf s s.nsym.toNat) (hmany : 2 ≤ s.nsym.toNat) (hle : s.nsym.toNat ≤ 256)
    (hroot : s.root.toNat = 2 * s.nsym.toNat - 2) (a : Symbol) :
    ∃ e, (codeTable s).read a.toNat = some e ∧ IsEntryOfTree s a e := by
  have hne : s.nsym ≠ 1#9 := fun heq => by simp [heq] at hmany
  have hrootlt : s.root.toNat < 2 * s.nsym.toNat - 1 := by omega
  rw [codeTable_of_inner (h.inner s.root.toNat (by omega) hrootlt).1]
  by_cases hex : ∃ k, k < s.nsym.toNat ∧ (nodeAt s k).sym = a
  · obtain ⟨k, hk, rfl⟩ := hex
    obtain ⟨p, hleads, hlen⟩ := h.exists_leadsTo hroot hk
    have hrec := read_walk_complete hleads (fuel := 256) (by omega) [] emptyTable
    obtain ⟨e, hread, hentry⟩ := hrec.isEntryOfLeaf h hrootlt hne
    exact ⟨e, hread, .inl hentry⟩
  · rcases read_walk_sound (s := s) 256 s.root [] emptyTable a.toNat with hread | hrec
    · exact ⟨absentCode, hread.trans (read_emptyTable a.isLt), .inr ⟨fun k hk hsym => hex ⟨k, hk, hsym⟩, rfl⟩⟩
    · obtain ⟨e, hread, hentry⟩ := hrec.isEntryOfLeaf h hrootlt hne
      exact ⟨e, hread, .inl hentry⟩

/-- ASSIGN's table lists the tree's entry of every symbol (R130 to R133). -/
theorem read_codeTable (h : TreeInv s) (hvalid : s.treeValid = true) (a : Symbol) :
    ∃ e, (codeTable s).read a.toNat = some e ∧ IsEntryOfTree s a e := by
  obtain ⟨hpos, hle, hroot, harena⟩ := h.present hvalid
  rcases Nat.lt_or_ge s.nsym.toNat 2 with hsingle | hmany
  · have hone : s.nsym.toNat = 1 := by omega
    exact read_codeTable_of_single (hone ▸ harena) (BitVec.eq_of_toNat_eq hone) (by omega) a
  · exact read_codeTable_of_many harena hmany hle hroot a

/-- The state that ASSIGN leaves (R130). -/
def State.afterAssign (s : State) : State := (s.storeCodes (codeTable s)).setCodesValid

theorem nodeAt_afterAssign (s : State) (i : Nat) : nodeAt s.afterAssign i = nodeAt s i := rfl

theorem codeAt_afterAssign {a : Nat} {e : CodeEntry} (h : (codeTable s).read a = some e) :
    codeAt s.afterAssign a = e := by
  show ((codeTable s).read a).getD _ = e
  rw [h]
  rfl

/-- ASSIGN leaves the tree's code table (R130 to R133). -/
theorem codesOfTree_afterAssign (h : TreeInv s) (hvalid : s.treeValid = true) : CodesOfTree s.afterAssign := by
  obtain ⟨-, -, -, harena⟩ := h.present hvalid
  have hcode : ∀ k c, IsLeafCode s k c → IsLeafCode s.afterAssign k c := by
    intro k c
    unfold IsLeafCode
    rw [walkDown_congr (nodeAt_afterAssign s)]
    exact id
  refine codesOfTree_of_entries ⟨harena.leaf, harena.ascending, harena.inner, harena.once, harena.rootFree⟩ fun a => ?_
  obtain ⟨e, hread, hentry⟩ := read_codeTable h hvalid a
  rw [codeAt_afterAssign hread]
  rcases hentry with ⟨k, c, hk, hsym, hlen, hpath, he⟩ | hnone
  · exact .inl ⟨k, c, hk, hsym, hlen, hcode k c hpath, he⟩
  · exact .inr hnone

end Sys2Proof.Machine
end

section
/-! PROOFS. The invariant of reachable states (10_state.md R35): it holds at reset, and every step keeps it. -/

namespace Sys2Proof.Machine

variable {s t : State}

/-! ### Each part is kept by what keeps the values it speaks of -/

theorem ArenaWf.of_nodes {n : Nat} (h : ArenaWf s n) (hnodes : ∀ i, nodeAt t i = nodeAt s i) : ArenaWf t n := by
  have heq : nodeAt t = nodeAt s := funext hnodes
  have hchildren : childIndices t n = childIndices s n := by rw [childIndices, heq, ← childIndices]
  refine ⟨?_, ?_, ?_, ?_, ?_⟩
  · rw [heq]; exact h.leaf
  · rw [heq]; exact h.ascending
  · rw [heq]; exact h.inner
  · rw [hchildren]; exact h.once
  · rw [hchildren]; exact h.rootFree

theorem TreeInv.of_keeps (h : TreeInv s) (k : KeepsTree s t) : TreeInv t where
  absent := by rw [k.treeValid, k.nsym, k.root]; exact h.absent
  present hvalid := by
    rw [k.treeValid] at hvalid
    rw [k.nsym, k.root]
    obtain ⟨hpos, hle, hroot, harena⟩ := h.present hvalid
    exact ⟨hpos, hle, hroot, harena.of_nodes k.nodes⟩

theorem IsLeafCode.of_keeps {k : Nat} {c : List Bool} (h : IsLeafCode s k c) (keeps : KeepsTree s t) : IsLeafCode t k c := by
  unfold IsLeafCode at h ⊢
  rwa [keeps.nsym, keeps.root, walkDown_congr keeps.nodes]

theorem CodesOfTree.of_keeps (h : CodesOfTree s) (tree : KeepsTree s t) (codes : KeepsCodes s t) : CodesOfTree t := by
  have hstring : ∀ a, codeString t a = codeString s a := fun a => by rw [codeString, codes.codes]; rfl
  refine ⟨fun a => ?_, fun k hk => ?_, fun a => ?_, fun a => ?_⟩
  · simpa only [codes.codes, tree.nsym, tree.nodes] using h.domain a
  · rw [tree.nodes, hstring]
    exact (h.paths k (tree.nsym ▸ hk)).of_keeps tree
  · rw [codes.codes, hstring]
    exact h.stored a
  · rw [codes.codes]
    exact h.absent a

theorem EncoderInv.of_keeps (h : EncoderInv s) (k : KeepsEncoder s t) : EncoderInv t where
  lowZero := by rw [k.acc, k.nacc]; exact h.lowZero
  count := by rw [k.encActive, k.nacc, k.encbits]; exact h.count

theorem nnode_of_keeps (k : KeepsTree s t) : nnode t = nnode s := by rw [nnode, k.treeValid, k.nsym]; rfl

theorem DecoderInv.of_keeps (h : DecoderInv s) (tree : KeepsTree s t) (k : KeepsDecoder s t) : DecoderInv t where
  cur := by rw [k.decActive, k.cur, nnode_of_keeps tree, tree.root, tree.nodes]; exact h.cur

theorem ErrorInv.of_keeps (h : ErrorInv s) (k : KeepsErrors s t) : ErrorInv t where
  normal := by rw [k.err, k.errcode, k.errarg, k.errcmd]; exact h.normal
  faulted := by rw [k.err, k.errcode]; exact h.faulted

/-- What keeps the tree, the code table and both sessions keeps the invariant, up to the error registers and the lists. -/
theorem Inv.of_keeps (h : Inv s) (tree : KeepsTree s t) (codes : KeepsCodes s t) (encoder : KeepsEncoder s t)
    (decoder : KeepsDecoder s t) (errors : ErrorInv t) (memory : MemoryInv t) : Inv t where
  flags := by
    refine ⟨?_, ?_, ?_⟩
    · rw [encoder.encActive, codes.codesValid]; exact h.flags.enc
    · rw [codes.codesValid, tree.treeValid]; exact h.flags.codes
    · rw [decoder.decActive, tree.treeValid]; exact h.flags.dec
  tree := h.tree.of_keeps tree
  codes hvalid := (h.codes (codes.codesValid ▸ hvalid)).of_keeps tree codes
  encoder := h.encoder.of_keeps encoder
  decoder := h.decoder.of_keeps tree decoder
  errors := errors
  memory := memory

/-! ### The prologue, errors and reset -/

theorem Inv.accept (h : Inv s) : Inv s.accept :=
  h.of_keeps ⟨rfl, rfl, rfl, fun _ => rfl⟩ ⟨rfl, fun _ => rfl⟩ ⟨rfl, rfl, rfl, rfl, rfl⟩ ⟨rfl, rfl, rfl⟩
    (h.errors.of_keeps ⟨rfl, rfl, rfl, rfl⟩) ⟨h.memory.freq, h.memory.node, h.memory.code⟩

theorem Inv.respond (h : Inv s) (r : Response) : Inv (s.respond r) :=
  h.of_keeps ⟨rfl, rfl, rfl, fun _ => rfl⟩ ⟨rfl, fun _ => rfl⟩ ⟨rfl, rfl, rfl, rfl, rfl⟩ ⟨rfl, rfl, rfl⟩
    (h.errors.of_keeps ⟨rfl, rfl, rfl, rfl⟩) ⟨h.memory.freq, h.memory.node, h.memory.code⟩

/-- The codes of the errors that are latched are 1 to 7 (R200). -/
theorem Error.code_bounds {e : Error} (he : e ≠ .faultedRefusal) : 1 ≤ e.code.toNat ∧ e.code.toNat ≤ 7 := by
  cases e with
  | faultedRefusal => exact absurd rfl he
  | _ => decide

theorem ErrorInv.latch (h : ErrorInv s) (e : Error) (arg : BitVec 16) (n : BitVec 32) : ErrorInv (s.latch e arg n) := by
  by_cases hlatch : s.err = false ∧ e ≠ .faultedRefusal
  · rw [State.latch_of_normal arg n hlatch.1 hlatch.2]
    exact ⟨fun herr => absurd herr.symm Bool.false_ne_true, fun _ => Error.code_bounds hlatch.2⟩
  · rw [State.latch, if_neg hlatch]
    exact h

theorem Inv.latch (h : Inv s) (e : Error) (arg : BitVec 16) (n : BitVec 32) : Inv (s.latch e arg n) :=
  h.of_keeps (keepsTree_latch s e arg n) (keepsCodes_latch s e arg n) ⟨by simp, by simp, by simp, by simp, by simp⟩
    ⟨by simp, by simp, by simp⟩ (h.errors.latch e arg n)
    ⟨by simpa using h.memory.freq, by simpa using h.memory.node, by simpa using h.memory.code⟩

theorem Inv.acknowledge (h : Inv s) : Inv s.acknowledge :=
  h.of_keeps ⟨rfl, rfl, rfl, fun _ => rfl⟩ ⟨rfl, fun _ => rfl⟩ ⟨rfl, rfl, rfl, rfl, rfl⟩ ⟨rfl, rfl, rfl⟩
    ⟨fun _ => ⟨rfl, rfl, rfl⟩, fun herr => absurd herr Bool.false_ne_true⟩ ⟨h.memory.freq, h.memory.node, h.memory.code⟩

/-- The reset values meet the invariant, whatever the host will do and has seen, and however many resets there have been
(R230). -/
theorem inv_resetValues (host : List HostAction) (responses : List Response) (outb : List Byte) (outs : List Symbol)
    (epoch : Nat) : Inv { State.reset with host := host, responses := responses, outb := outb, outs := outs, epoch := epoch } where
  flags := ⟨fun h => h, fun h => h, fun h => h⟩
  tree := ⟨fun _ => ⟨rfl, rfl⟩, fun h => absurd h Bool.false_ne_true⟩
  codes h := absurd h Bool.false_ne_true
  encoder := ⟨rfl, fun h => absurd h Bool.false_ne_true⟩
  decoder := ⟨fun h => absurd h Bool.false_ne_true⟩
  errors := ⟨fun _ => ⟨rfl, rfl, rfl⟩, fun h => absurd h Bool.false_ne_true⟩
  memory := ⟨rfl, rfl, rfl⟩

theorem inv_reset : Inv State.reset := inv_resetValues [] [] [] [] 0

theorem inv_doReset (s : State) : Inv s.doReset := inv_resetValues s.host s.responses s.outb s.outs (s.epoch + 1)

/-! ### FREQ -/

theorem Inv.clearFreq (h : Inv s) : Inv s.clearFreq :=
  h.of_keeps ⟨rfl, rfl, rfl, fun _ => rfl⟩ ⟨rfl, fun _ => rfl⟩ ⟨rfl, rfl, rfl, rfl, rfl⟩ ⟨rfl, rfl, rfl⟩
    (h.errors.of_keeps ⟨rfl, rfl, rfl, rfl⟩) ⟨rfl, h.memory.node, h.memory.code⟩

theorem Inv.writeFreq (h : Inv s) (a : Symbol) (v : Count) : Inv (s.writeFreq a.toNat v) :=
  h.of_keeps ⟨rfl, rfl, rfl, fun _ => rfl⟩ ⟨rfl, fun _ => rfl⟩ ⟨rfl, rfl, rfl, rfl, rfl⟩ ⟨rfl, rfl, rfl⟩
    (h.errors.of_keeps ⟨rfl, rfl, rfl, rfl⟩) ⟨freqWf_freqSet h.memory.freq a.isLt v, h.memory.node, h.memory.code⟩

/-! ### The tree and the code table -/

/-- BUILD leaves a well-formed tree, no code table and no session (R110). -/
theorem Inv.afterBuild (h : Inv s) (hpresent : presentSymbols s ≠ []) : Inv s.afterBuild where
  flags := ⟨fun h => h, fun _ => rfl, fun _ => rfl⟩
  tree := treeInv_afterBuild hpresent
  codes hvalid := absurd hvalid Bool.false_ne_true
  encoder := ⟨h.encoder.lowZero, fun hactive => absurd hactive Bool.false_ne_true⟩
  decoder := ⟨fun hactive => absurd hactive Bool.false_ne_true⟩
  errors := h.errors.of_keeps ⟨rfl, rfl, rfl, rfl⟩
  memory := by
    have hle := presentSymbols_length_le s
    have hlength := (treeWf_leaves hpresent).length
    exact ⟨h.memory.freq, wf_storeTree h.memory.node (leaves s).length (t := buildTree (leaves s)) (by omega), h.memory.code⟩

theorem Inv.afterAssign (h : Inv s) (hvalid : s.treeValid = true) : Inv s.afterAssign where
  flags := ⟨fun _ => rfl, fun _ => hvalid, h.flags.dec⟩
  tree := h.tree.of_keeps ⟨rfl, rfl, rfl, fun _ => rfl⟩
  codes _ := codesOfTree_afterAssign h.tree hvalid
  encoder := h.encoder.of_keeps ⟨rfl, rfl, rfl, rfl, rfl⟩
  decoder := h.decoder.of_keeps ⟨rfl, rfl, rfl, fun _ => rfl⟩ ⟨rfl, rfl, rfl⟩
  errors := h.errors.of_keeps ⟨rfl, rfl, rfl, rfl⟩
  memory := ⟨h.memory.freq, h.memory.node, wf_codeTable s⟩

/-! ### The encoder -/

/-- What changes the encoder alone keeps the invariant, if it keeps the encoder's part and opens no session without codes. -/
theorem Inv.of_encoder (h : Inv s) (tree : KeepsTree s t) (codes : KeepsCodes s t) (decoder : KeepsDecoder s t)
    (errors : KeepsErrors s t) (memory : MemoryInv t) (hactive : t.encActive = true → s.codesValid = true)
    (encoder : EncoderInv t) : Inv t where
  flags := by
    refine ⟨?_, ?_, ?_⟩
    · rw [codes.codesValid]; exact hactive
    · rw [codes.codesValid, tree.treeValid]; exact h.flags.codes
    · rw [decoder.decActive, tree.treeValid]; exact h.flags.dec
  tree := h.tree.of_keeps tree
  codes hvalid := (h.codes (codes.codesValid ▸ hvalid)).of_keeps tree codes
  encoder := encoder
  decoder := h.decoder.of_keeps tree decoder
  errors := h.errors.of_keeps errors
  memory := memory

/-- ENCSTART: an empty writer (R150). -/
theorem Inv.openEncoder (h : Inv s) (hcodes : s.codesValid = true) : Inv s.clearWriter.setEncActive :=
  h.of_encoder ⟨rfl, rfl, rfl, fun _ => rfl⟩ ⟨rfl, fun _ => rfl⟩ ⟨rfl, rfl, rfl⟩ ⟨rfl, rfl, rfl, rfl⟩
    ⟨h.memory.freq, h.memory.node, h.memory.code⟩ (fun _ => hcodes) ⟨rfl, fun _ => rfl⟩

/-- ENC: bits written (R153). -/
theorem Inv.putBits (h : Inv s) (bits : List Bool) : Inv (s.putBits bits) :=
  h.of_encoder (keepsTree_putBits s bits) (keepsCodes_putBits s bits) ⟨by simp, by simp, by simp⟩
    ⟨by simp, by simp, by simp, by simp⟩
    ⟨by simpa using h.memory.freq, by simpa using h.memory.node, by simpa using h.memory.code⟩
    (by simpa using h.flags.enc) (h.encoder.putBits bits)

/-- ENCEND: the writer emptied, the session closed (R154). -/
theorem Inv.closeEncoder (h : Inv s) : Inv s.flush.emptyAcc.clearEncActive :=
  h.of_encoder (keepsTree_closeEncoder s) (keepsCodes_closeEncoder s) ⟨by simp, by simp, by simp⟩
    ⟨by simp, by simp, by simp, by simp⟩
    ⟨by simpa using h.memory.freq, by simpa using h.memory.node, by simpa using h.memory.code⟩
    (fun hactive => absurd hactive (by simp)) ⟨rfl, fun hactive => absurd hactive (by simp)⟩

/-! ### The decoder -/

theorem nnode_of_valid (h : s.treeValid = true) : nnode s = 2 * s.nsym.toNat - 1 := if_pos h

/-- A node on which the walker may rest: the root or an internal node of the tree (R26). -/
def WalkerOk (s : State) (c : NodeIdx) : Prop :=
  c.toNat < nnode s ∧ (c = s.root ∨ (nodeAt s c.toNat).leaf = false)

theorem walkerOk_root (h : TreeInv s) (hvalid : s.treeValid = true) : WalkerOk s s.root := by
  obtain ⟨hpos, -, hroot, -⟩ := h.present hvalid
  exact ⟨by rw [nnode_of_valid hvalid]; omega, .inl rfl⟩

/-- With an internal root the walker rests on internal nodes, and their children are in the tree. -/
theorem WalkerOk.child_lt {c : NodeIdx} (h : WalkerOk s c) (htree : TreeInv s) (hvalid : s.treeValid = true)
    (hroot : (nodeAt s s.root.toNat).leaf = false) (b : Bool) : (childOf (nodeAt s c.toNat) b).toNat < nnode s := by
  obtain ⟨hlt, hc⟩ := h
  obtain ⟨-, -, -, harena⟩ := htree.present hvalid
  have hinner : (nodeAt s c.toNat).leaf = false := by
    rcases hc with rfl | hc
    · exact hroot
    · exact hc
  exact (harena.child_lt (nnode_of_valid hvalid ▸ hlt) hinner b).trans hlt

/-- One bit takes the walker from such a node to such a node (R171). -/
theorem walkerOk_of_decStep {c : NodeIdx} {b : Bool} {m : DecMove} (h : WalkerOk s c) (htree : TreeInv s)
    (hvalid : s.treeValid = true) (hm : decStep s c b = some m) : WalkerOk s m.cur := by
  cases hroot : (nodeAt s s.root.toNat).leaf with
  | true =>
    rw [decStep_single hroot] at hm
    split at hm
    · cases hm
    · cases hm
      exact h
  | false =>
    rw [decStep_inner hroot] at hm
    split at hm
    · cases hm
      exact walkerOk_root htree hvalid
    · cases hm
      exact ⟨h.child_lt htree hvalid hroot b, .inr (Bool.eq_false_iff.2 ‹_›)⟩

/-- So do the bits of a DEC (R172). -/
theorem walkerOk_of_decRun {i : Nat} {c d : NodeIdx} {bits : List Bool} {syms : List Symbol} (h : WalkerOk s c)
    (htree : TreeInv s) (hvalid : s.treeValid = true) (hrun : decRun s i c bits = .done d syms) : WalkerOk s d := by
  induction bits generalizing i c syms with
  | nil =>
    cases hrun
    exact h
  | cons b rest ih =>
    cases hstep : decStep s c b with
    | none => simp [decRun, hstep] at hrun
    | some m =>
      rw [decRun_cons i c b rest hstep] at hrun
      cases hrest : decRun s (i + 1) m.cur rest with
      | failed j => simp [hrest] at hrun
      | done d' syms' =>
        rw [hrest] at hrun
        cases hrun
        exact ih (walkerOk_of_decStep h htree hvalid hstep) hrest

/-- What changes the decoder alone keeps the invariant, if it leaves no session or a walker on its place in a valid tree. -/
theorem Inv.of_decoder (h : Inv s) (tree : KeepsTree s t) (codes : KeepsCodes s t) (encoder : KeepsEncoder s t)
    (errors : KeepsErrors s t) (memory : MemoryInv t)
    (hactive : t.decActive = true → s.treeValid = true ∧ WalkerOk s t.cur) : Inv t where
  flags := by
    refine ⟨?_, ?_, ?_⟩
    · rw [encoder.encActive, codes.codesValid]; exact h.flags.enc
    · rw [codes.codesValid, tree.treeValid]; exact h.flags.codes
    · rw [tree.treeValid]; exact fun hdec => (hactive hdec).1
  tree := h.tree.of_keeps tree
  codes hvalid := (h.codes (codes.codesValid ▸ hvalid)).of_keeps tree codes
  encoder := h.encoder.of_keeps encoder
  decoder := ⟨by rw [nnode_of_keeps tree, tree.root, tree.nodes]; exact fun hdec => (hactive hdec).2⟩
  errors := h.errors.of_keeps errors
  memory := memory

/-- DECSTART: the walker on the root (R170). -/
theorem Inv.openDecoder (h : Inv s) (hvalid : s.treeValid = true) : Inv (s.setCur s.root).setDecActive :=
  h.of_decoder ⟨rfl, rfl, rfl, fun _ => rfl⟩ ⟨rfl, fun _ => rfl⟩ ⟨rfl, rfl, rfl, rfl, rfl⟩ ⟨rfl, rfl, rfl, rfl⟩
    ⟨h.memory.freq, h.memory.node, h.memory.code⟩ fun _ => ⟨hvalid, walkerOk_root h.tree hvalid⟩

/-- DEC: the walker moved over bits (R172). -/
theorem Inv.moveDecoder (h : Inv s) (hactive : s.decActive = true) {bits : List Bool} {c : NodeIdx} {syms : List Symbol}
    (hrun : decRun s 0 s.cur bits = .done c syms) : Inv ((s.setCur c).emitSyms syms) := by
  have hvalid := h.flags.dec hactive
  have hcur : WalkerOk s s.cur := h.decoder.cur hactive
  exact h.of_decoder ⟨rfl, rfl, rfl, fun _ => rfl⟩ ⟨rfl, fun _ => rfl⟩ ⟨rfl, rfl, rfl, rfl, rfl⟩ ⟨rfl, rfl, rfl, rfl⟩
    ⟨h.memory.freq, h.memory.node, h.memory.code⟩ fun _ => ⟨hvalid, walkerOk_of_decRun hcur h.tree hvalid hrun⟩

/-- DECEND: the session closed (R173). -/
theorem Inv.closeDecoder (h : Inv s) : Inv s.clearDecActive :=
  h.of_decoder ⟨rfl, rfl, rfl, fun _ => rfl⟩ ⟨rfl, fun _ => rfl⟩ ⟨rfl, rfl, rfl, rfl, rfl⟩ ⟨rfl, rfl, rfl, rfl⟩
    ⟨h.memory.freq, h.memory.node, h.memory.code⟩ fun hactive => absurd hactive (by simp)

/-! ### Every command, every step -/

/-- Every command runs an action that leaves the invariant, if it holds of the accepted state. -/
theorem exec_eq_afterCommand_inv (h : Inv s.accept) (i : Instr) :
    ∃ action, exec i s = .next (afterCommand action s) ∧ (action s.accept).Leaves Inv := by
  cases i with
  | reset => exact ⟨_, rfl, inv_doReset _⟩
  | clrerr => exact ⟨_, rfl, h.acknowledge⟩
  | rdcsr csr => exact ⟨_, rfl, h⟩
  | clrfreq => exact ⟨_, rfl, leaves_refuseIfFaulted h.clearFreq⟩
  | cnt sym =>
    refine ⟨_, rfl, leaves_refuseIfFaulted ?_⟩
    split
    · trivial
    · exact h.writeFreq sym _
  | wrfreq sym val => exact ⟨_, rfl, leaves_refuseIfFaulted (h.writeFreq sym val)⟩
  | rdfreq sym => exact ⟨_, rfl, h⟩
  | build =>
    refine ⟨_, rfl, leaves_refuseIfFaulted ?_⟩
    split
    · trivial
    · rename_i hempty
      exact h.afterBuild (by simpa using hempty)
  | rdnode node =>
    refine ⟨_, rfl, leaves_require fun _ => ?_⟩
    split
    · exact h
    · trivial
  | assign => exact ⟨_, rfl, leaves_refuseIfFaulted_require h.afterAssign⟩
  | rdclen sym => exact ⟨_, rfl, leaves_require fun _ => h⟩
  | rdcode sym w => exact ⟨_, rfl, leaves_require fun _ => h⟩
  | encstart => exact ⟨_, rfl, leaves_refuseIfFaulted_require h.openEncoder⟩
  | enc sym =>
    refine ⟨_, rfl, leaves_refuseIfFaulted_require fun _ => ?_⟩
    dsimp only
    split
    · trivial
    · split
      · trivial
      · exact h.putBits _
  | encend => exact ⟨_, rfl, leaves_refuseIfFaulted_require fun _ => h.closeEncoder⟩
  | decstart => exact ⟨_, rfl, leaves_refuseIfFaulted_require h.openDecoder⟩
  | dec byte nb =>
    refine ⟨_, rfl, leaves_refuseIfFaulted_require fun hactive => ?_⟩
    split
    · trivial
    · exact h.moveDecoder hactive ‹_›
  | decend =>
    refine ⟨_, rfl, leaves_refuseIfFaulted_require fun _ => ?_⟩
    split
    · exact h.closeDecoder
    · trivial

/-- A command whose action leaves the invariant keeps it, whether it responds or raises. -/
theorem inv_afterCommand {action : State → Effect} (h : Inv s) (hleaves : (action s.accept).Leaves Inv) :
    Inv (afterCommand action s) :=
  afterCommand_of_leaves hleaves (fun _ r ht => ht.respond r) fun e arg => h.accept.latch e arg _

theorem inv_exec {i : Instr} (h : Inv s) (hexec : exec i s = .next t) : Inv t := by
  obtain ⟨action, haction, hleaves⟩ := exec_eq_afterCommand_inv h.accept i
  obtain rfl : afterCommand action s = t := Host.Outcome.next.inj (haction.symm.trans hexec)
  exact inv_afterCommand h hleaves

end Sys2Proof.Machine

open Sys2Proof Sys2Proof.Machine

/-- Settles O56: the reset state has the reset values. -/
theorem invariantHoldsAtReset : Obligations.InvariantHoldsAtReset := inv_reset

/-- Settles O57, by what the step is: idling, a reset, a command, or an illegal word. -/
theorem invariantIsKeptByEveryStep : Obligations.InvariantIsKeptByEveryStep := by
  intro s t hinv hstep
  rcases step_cases s with ⟨-, hs⟩ | ⟨rest, -, hs⟩ | ⟨w, rest, i, -, -, hs⟩ | ⟨w, rest, e, -, -, hs⟩
  · obtain rfl := Host.Outcome.next.inj (hs.symm.trans hstep)
    exact hinv
  · obtain rfl := Host.Outcome.next.inj (hs.symm.trans hstep)
    exact inv_doReset _
  · exact inv_exec (hinv.setHost rest) (hs.symm.trans hstep)
  · obtain rfl := Host.Outcome.next.inj (hs.symm.trans hstep)
    exact inv_afterCommand (hinv.setHost rest) trivial

end

section
/-! PROOFS. The unspecified entries of NODE and CODE cannot be observed (70_reset_and_hazards.md R233): a state, and the same
state with other contents of the two memories that agree where a command can look, run alike. -/

namespace Sys2Proof.Machine

/-! ### A state with other contents of NODE and CODE -/

/-- The state with other contents of NODE and CODE, and another number of the reset that they are unspecified since (log 4). -/
def State.withHidden (s : State) (node : Memory Node) (code : Memory CodeEntry) (epoch : Nat) : State :=
  { s with node := node, code := code, epoch := epoch }

/-- The other contents agree with the state's own below NNODE, and in CODE while a code table is current. -/
structure Unseen (s : State) (node : Memory Node) (code : Memory CodeEntry) (epoch : Nat) : Prop where
  nodes : ∀ i, i < nnode s → nodeAt (s.withHidden node code epoch) i = nodeAt s i
  codes : s.codesValid = true → ∀ a : Symbol, codeAt (s.withHidden node code epoch) a.toNat = codeAt s a.toNat

variable {s t : State} {node : Memory Node} {code : Memory CodeEntry} {epoch : Nat}

/-- What is unseen is unobservable, as the statement has it. -/
theorem Unseen.sameObservable (h : Unseen s node code epoch) : SameObservable s (s.withHidden node code epoch) :=
  ⟨rfl, fun _ => rfl, ⟨rfl, rfl, rfl, h.nodes⟩, ⟨rfl, h.codes⟩, ⟨rfl, rfl, rfl, rfl, rfl⟩, ⟨rfl, rfl, rfl⟩,
    ⟨rfl, rfl, rfl, rfl⟩, rfl, rfl⟩

/-! ### Equal counts are equal lists -/

theorem Memory.mem_of_read_some {α : Type} {m : Memory α} {a : Nat} {v : α} (h : m.read a = some v) : (a, v) ∈ m := by
  induction m with
  | nil => simp [Memory.read] at h
  | cons e rest ih =>
    obtain ⟨b, x⟩ := e
    simp only [Memory.read] at h
    split at h
    · rename_i hab
      rw [hab, Option.some.inj h]
      exact List.mem_cons_self
    · exact List.mem_cons_of_mem _ (ih h)

/-- In canonical form FREQ lists a count exactly when it is not 0. -/
theorem read_freq_of_wf (h : freqWf s.freq = true) (a : Nat) :
    Memory.read s.freq a = if freqAt s a = 0#32 then none else some (freqAt s a) := by
  simp only [freqWf, Bool.and_eq_true, List.all_eq_true] at h
  unfold freqAt
  cases hread : Memory.read s.freq a with
  | none => rfl
  | some v =>
    have hv : v ≠ 0#32 := by simpa using h.2 _ (Memory.mem_of_read_some hread)
    simp [hv]

/-- So equal counts are held in equal lists. -/
theorem freq_eq_of_keepsFreq (hs : freqWf s.freq = true) (ht : freqWf t.freq = true) (h : KeepsFreq s t) : t.freq = s.freq := by
  have hs' := hs
  have ht' := ht
  simp only [freqWf, Bool.and_eq_true] at hs' ht'
  refine Memory.ext_of_wf ht'.1 hs'.1 fun a => ?_
  rw [read_freq_of_wf hs, read_freq_of_wf ht, h a]

/-- Two states of the invariant that no command tells apart are one state, up to unseen contents of NODE and CODE. -/
theorem SameObservable.eq_withHidden (h : SameObservable s t) (hs : Inv s) (ht : Inv t) :
    ∃ node code epoch, t = s.withHidden node code epoch ∧ Unseen s node code epoch := by
  have hfreq := freq_eq_of_keepsFreq hs.memory.freq ht.memory.freq h.freq
  obtain ⟨hcmdcnt, -, ⟨htree, hnsym, hroot, hnodes⟩, ⟨hvalid, hcodes⟩, ⟨henc, hacc, hnacc, hencbits, houtb⟩,
    ⟨hdec, hcur, houts⟩, ⟨herr, herrcode, herrarg, herrcmd⟩, hhost, hanswers⟩ := h
  have heq : t = s.withHidden t.node t.code t.epoch := by
    cases s
    cases t
    simp only [State.withHidden, State.mk.injEq] at *
    simp only [*, and_self]
  exact ⟨t.node, t.code, t.epoch, heq, ⟨by rwa [← heq], by rwa [← heq]⟩⟩

/-! ### The operations that read NODE or CODE -/

/-- ASSIGN's walk stays below NNODE (R130). -/
theorem Unseen.walk_eq (h : Unseen s node code epoch) (htree : TreeInv s) (hvalid : s.treeValid = true) (fuel : Nat)
    {i : NodeIdx} (hi : i.toNat < nnode s) (c : List Bool) (table : Memory CodeEntry) :
    walk (s.withHidden node code epoch) fuel i c table = walk s fuel i c table := by
  obtain ⟨-, -, -, harena⟩ := htree.present hvalid
  have hn := nnode_of_valid hvalid
  induction fuel generalizing i c table with
  | zero => rfl
  | succ fuel ih =>
    have hnode := h.nodes _ hi
    cases hleaf : (nodeAt s i.toNat).leaf with
    | true => rw [walk_leaf _ _ _ _ _ (by rw [hnode, hleaf]), walk_leaf _ _ _ _ _ hleaf, hnode]
    | false =>
      have hchild := fun b => (harena.child_lt (hn ▸ hi) hleaf b).trans hi
      rw [walk_inner _ _ _ _ _ (by rw [hnode, hleaf]), walk_inner _ _ _ _ _ hleaf, hnode,
        ih (i := (nodeAt s i.toNat).left) (hchild false), ih (i := (nodeAt s i.toNat).right) (hchild true)]

/-- So the table that ASSIGN writes is the same. -/
theorem Unseen.codeTable_eq (h : Unseen s node code epoch) (htree : TreeInv s) (hvalid : s.treeValid = true) :
    codeTable (s.withHidden node code epoch) = codeTable s := by
  have hroot := (walkerOk_root htree hvalid).1
  have hnode := h.nodes _ hroot
  cases hleaf : (nodeAt s s.root.toNat).leaf with
  | true =>
    rw [codeTable_of_single hleaf, codeTable_of_single (by rw [← hleaf, ← hnode]; rfl)]
    exact congrArg (fun d : Node => emptyTable.write d.sym.toNat (storeCode [false])) hnode
  | false =>
    rw [codeTable_of_inner hleaf, codeTable_of_inner (by rw [← hleaf, ← hnode]; rfl)]
    exact h.walk_eq htree hvalid _ hroot _ _

/-- The walker reads the root, its own node and a child of it, all below NNODE (R171). -/
theorem Unseen.decStep_eq (h : Unseen s node code epoch) (htree : TreeInv s) (hvalid : s.treeValid = true) {c : NodeIdx}
    (hc : WalkerOk s c) (b : Bool) : decStep (s.withHidden node code epoch) c b = decStep s c b := by
  have hroot : nodeAt (s.withHidden node code epoch) (s.withHidden node code epoch).root.toNat = nodeAt s s.root.toNat :=
    h.nodes _ (walkerOk_root htree hvalid).1
  cases hleaf : (nodeAt s s.root.toNat).leaf with
  | true => rw [decStep_single hleaf, decStep_single (by rw [hroot, hleaf]), hroot]
  | false =>
    rw [decStep_inner hleaf, decStep_inner (by rw [hroot, hleaf]), h.nodes _ hc.1, h.nodes _ (hc.child_lt htree hvalid hleaf b)]
    rfl

/-- So the bits of a DEC do the same (R172). -/
theorem Unseen.decRun_eq (h : Unseen s node code epoch) (htree : TreeInv s) (hvalid : s.treeValid = true) (i : Nat)
    {c : NodeIdx} (hc : WalkerOk s c) (bits : List Bool) :
    decRun (s.withHidden node code epoch) i c bits = decRun s i c bits := by
  induction bits generalizing i c with
  | nil => rfl
  | cons b rest ih =>
    have hstep := h.decStep_eq htree hvalid hc b
    cases hm : decStep s c b with
    | none => simp only [decRun, hstep, hm]
    | some m =>
      rw [decRun_cons _ _ _ _ hm, decRun_cons _ _ _ _ (hstep.trans hm), ih (i + 1) (walkerOk_of_decStep hc htree hvalid hm)]

/-! ### The operations that branch on registers -/

theorem putBits_withHidden (bits : List Bool) (s : State) :
    (s.withHidden node code epoch).putBits bits = (s.putBits bits).withHidden node code epoch := by
  induction bits generalizing s with
  | nil => rfl
  | cons b rest ih =>
    have hbit : (s.withHidden node code epoch).putBit b = (s.putBit b).withHidden node code epoch := by
      by_cases h7 : s.nacc = 7#3 <;> simp [State.putBit, State.withHidden, h7]
    show ((s.withHidden node code epoch).putBit b).putBits rest = _
    rw [hbit, ih]
    rfl

theorem flush_withHidden (s : State) : (s.withHidden node code epoch).flush = s.flush.withHidden node code epoch := by
  by_cases h0 : s.nacc = 0#3 <;> simp [State.flush, State.emitByte, State.withHidden, h0]

theorem latch_withHidden (s : State) (e : Error) (arg : BitVec 16) (n : BitVec 32) :
    (s.withHidden node code epoch).latch e arg n = (s.latch e arg n).withHidden node code epoch := by
  by_cases hlatch : s.err = false ∧ e ≠ .faultedRefusal <;> simp [State.latch, State.withHidden, hlatch]

/-- What keeps the flags and sizes and every entry of NODE and CODE keeps the contents unseen. -/
theorem Unseen.of_keeps (h : Unseen s node code epoch) (tree : KeepsTree s t) (codes : KeepsCodes s t)
    (hidden : ∀ i, nodeAt (t.withHidden node code epoch) i = nodeAt (s.withHidden node code epoch) i)
    (hiddenCodes : ∀ a, codeAt (t.withHidden node code epoch) a = codeAt (s.withHidden node code epoch) a) :
    Unseen t node code epoch where
  nodes i hi := by rw [hidden, tree.nodes, h.nodes i (nnode_of_keeps tree ▸ hi)]
  codes hvalid a := by rw [hiddenCodes, codes.codes, h.codes (codes.codesValid ▸ hvalid)]

/-! ### Two runs of a command -/

/-- Two effects that respond the same from states that differ in unseen contents, or raise the same error. -/
inductive SameEffect : Effect → Effect → Prop
  | respond (s : State) (node : Memory Node) (code : Memory CodeEntry) (epoch : Nat) (d : Word) (h : Unseen s node code epoch) :
      SameEffect (.respond s d) (.respond (s.withHidden node code epoch) d)
  | raise (e : Error) (arg : BitVec 16) : SameEffect (.raise e arg) (.raise e arg)

theorem sameEffect_refuseIfFaulted {action : State → Effect} (herr : t.err = s.err) (h : SameEffect (action s) (action t)) :
    SameEffect (refuseIfFaulted action s) (refuseIfFaulted action t) := by
  unfold refuseIfFaulted
  rw [herr]
  split
  · exact .raise _ _
  · exact h

theorem sameEffect_require {flag : State → Bool} {opcode : BitVec 8} {action : State → Effect} (hflag : flag t = flag s)
    (h : flag s = true → SameEffect (action s) (action t)) :
    SameEffect (require flag opcode action s) (require flag opcode action t) := by
  unfold require
  rw [hflag]
  split
  · exact h ‹_›
  · exact .raise _ _

theorem sameEffect_refuseIfFaulted_require {flag : State → Bool} {opcode : BitVec 8} {action : State → Effect}
    (herr : t.err = s.err) (hflag : flag t = flag s) (h : flag s = true → SameEffect (action s) (action t)) :
    SameEffect (refuseIfFaulted (require flag opcode action) s) (refuseIfFaulted (require flag opcode action) t) :=
  sameEffect_refuseIfFaulted herr (sameEffect_require hflag h)

/-- A command with the same effect in both runs ends both alike. -/
theorem sameObservable_afterCommand {action : State → Effect} (h : Unseen s node code epoch)
    (heffect : SameEffect (action s.accept) (action (s.withHidden node code epoch).accept)) :
    SameObservable (afterCommand action s) (afterCommand action (s.withHidden node code epoch)) := by
  unfold afterCommand
  generalize action s.accept = e₁ at heffect
  generalize action (s.withHidden node code epoch).accept = e₂ at heffect
  cases heffect with
  | respond s' node' code' epoch' d h' =>
    exact Unseen.sameObservable (s := s'.respond ⟨.ok, d⟩) ⟨h'.nodes, h'.codes⟩
  | raise e arg =>
    have hlatch := latch_withHidden (node := node) (code := code) (epoch := epoch) s.accept e arg s.cmdcnt
    have haccept : Unseen s.accept node code epoch := ⟨h.nodes, h.codes⟩
    have hunseen : Unseen (s.accept.latch e arg s.cmdcnt) node code epoch :=
      haccept.of_keeps (keepsTree_latch s.accept e arg s.cmdcnt) (keepsCodes_latch s.accept e arg s.cmdcnt)
        (fun _ => rfl) fun _ => rfl
    show SameObservable ((s.accept.latch e arg s.cmdcnt).respond ⟨.error e, 0#64⟩)
      (((s.accept.withHidden node code epoch).latch e arg s.cmdcnt).respond ⟨.error e, 0#64⟩)
    rw [hlatch]
    exact Unseen.sameObservable (s := (s.accept.latch e arg s.cmdcnt).respond ⟨.error e, 0#64⟩) ⟨hunseen.nodes, hunseen.codes⟩

/-- A command that responds with its state unchanged and an answer that reads the same. -/
theorem sameEffect_read (h : Unseen s node code epoch) {d d' : Word} (hd : d' = d) :
    SameEffect (.respond s d) (.respond (s.withHidden node code epoch) d') := by
  rw [hd]
  exact .respond s node code epoch d h

/-- After a reset NNODE is 0 and no code table is current (R230). -/
theorem Unseen.doReset (s : State) (epoch : Nat) : Unseen s.doReset [] [] (epoch + 1) where
  nodes i hi := absurd hi (Nat.not_lt_zero i)
  codes hvalid := absurd hvalid Bool.false_ne_true

/-- BUILD writes every node below the new NNODE, and no code table is current after it (R110). -/
theorem Unseen.afterBuild (hpresent : presentSymbols s ≠ []) :
    Unseen s.afterBuild (s.withHidden node code epoch).afterBuild.node code epoch where
  nodes i hi := by
    have hlt : i < (buildTree (leaves s)).nodes.length := by
      rwa [(treeWf_leaves hpresent).length, ← nsym_afterBuild, ← nnode_of_valid (s := s.afterBuild) rfl]
    exact (nodeAt_afterBuild (s := s.withHidden node code epoch) hlt).trans (nodeAt_afterBuild hlt).symm
  codes hvalid := absurd hvalid Bool.false_ne_true

/-- ASSIGN writes every entry of CODE (R130). -/
theorem Unseen.afterAssign (h : Unseen s node code epoch) (htree : TreeInv s) (hvalid : s.treeValid = true) :
    Unseen s.afterAssign node (codeTable s) epoch where
  nodes := h.nodes
  codes _ a := by
    obtain ⟨e, hread, -⟩ := read_codeTable htree hvalid a
    rw [codeAt_afterAssign hread]
    show ((codeTable s).read a.toNat).getD _ = e
    rw [hread]
    rfl

/-- Every command has the same effect in both runs, from a state of the invariant. -/
theorem exec_eq_afterCommand_sameEffect (h : Unseen s node code epoch) (hinv : Inv s) (i : Instr) :
    ∃ action, (∀ u, exec i u = .next (afterCommand action u)) ∧
      SameEffect (action s) (action (s.withHidden node code epoch)) := by
  cases i with
  | reset =>
    exact ⟨_, fun _ => rfl, .respond s.doReset [] [] (epoch + 1) 0#64 (Unseen.doReset s epoch)⟩
  | clrerr => exact ⟨_, fun _ => rfl, .respond s.acknowledge node code epoch 0#64 ⟨h.nodes, h.codes⟩⟩
  | rdcsr csr => exact ⟨_, fun _ => rfl, sameEffect_read h rfl⟩
  | clrfreq =>
    exact ⟨_, fun _ => rfl, sameEffect_refuseIfFaulted rfl (.respond s.clearFreq node code epoch 0#64 ⟨h.nodes, h.codes⟩)⟩
  | cnt sym =>
    refine ⟨_, fun _ => rfl, sameEffect_refuseIfFaulted rfl ?_⟩
    have hfreq : freqAt (s.withHidden node code epoch) sym.toNat = freqAt s sym.toNat := rfl
    rw [hfreq]
    split
    · exact .raise _ _
    · exact .respond (s.writeFreq sym.toNat _) node code epoch 0#64 ⟨h.nodes, h.codes⟩
  | wrfreq sym val =>
    exact ⟨_, fun _ => rfl, sameEffect_refuseIfFaulted rfl
      (.respond (s.writeFreq sym.toNat val) node code epoch 0#64 ⟨h.nodes, h.codes⟩)⟩
  | rdfreq sym => exact ⟨_, fun _ => rfl, sameEffect_read h rfl⟩
  | build =>
    refine ⟨_, fun _ => rfl, sameEffect_refuseIfFaulted rfl ?_⟩
    have hleaves : leaves (s.withHidden node code epoch) = leaves s := rfl
    rw [hleaves]
    split
    · exact .raise _ _
    · rename_i hempty
      exact .respond s.afterBuild _ code epoch _ (Unseen.afterBuild (by simpa using hempty))
  | rdnode idx =>
    refine ⟨_, fun _ => rfl, sameEffect_require rfl fun _ => ?_⟩
    have hnnode : nnode (s.withHidden node code epoch) = nnode s := rfl
    rw [hnnode]
    split
    · rename_i hlt
      exact sameEffect_read h (congrArg nodeWord (h.nodes _ hlt))
    · exact .raise _ _
  | assign =>
    refine ⟨_, fun _ => rfl, sameEffect_refuseIfFaulted_require rfl rfl fun hvalid => ?_⟩
    rw [h.codeTable_eq hinv.tree hvalid]
    exact .respond s.afterAssign node (codeTable s) epoch 0#64 (h.afterAssign hinv.tree hvalid)
  | rdclen sym =>
    refine ⟨_, fun _ => rfl, sameEffect_require rfl fun hvalid => sameEffect_read h ?_⟩
    simp only [readCodeLen, h.codes hvalid sym]
  | rdcode sym w =>
    refine ⟨_, fun _ => rfl, sameEffect_require rfl fun hvalid => sameEffect_read h ?_⟩
    simp only [readCodeBits, h.codes hvalid sym]
  | encstart =>
    exact ⟨_, fun _ => rfl, sameEffect_refuseIfFaulted_require rfl rfl fun _ =>
      .respond s.clearWriter.setEncActive node code epoch 0#64 ⟨h.nodes, h.codes⟩⟩
  | enc sym =>
    refine ⟨_, fun _ => rfl, sameEffect_refuseIfFaulted_require rfl rfl fun hactive => ?_⟩
    have hencbits : (s.withHidden node code epoch).encbits = s.encbits := rfl
    dsimp only
    rw [h.codes (hinv.flags.enc hactive) sym, hencbits, putBits_withHidden]
    split
    · exact .raise _ _
    · split
      · exact .raise _ _
      · exact .respond _ _ _ _ _ (h.of_keeps (keepsTree_putBits s _) (keepsCodes_putBits s _) (fun _ => rfl) fun _ => rfl)
  | encend =>
    refine ⟨_, fun _ => rfl, sameEffect_refuseIfFaulted_require rfl rfl fun _ => ?_⟩
    rw [flush_withHidden]
    exact .respond s.flush.emptyAcc.clearEncActive node code epoch s.encbits
      (h.of_keeps (keepsTree_closeEncoder s) (keepsCodes_closeEncoder s) (fun _ => rfl) fun _ => rfl)
  | decstart =>
    exact ⟨_, fun _ => rfl, sameEffect_refuseIfFaulted_require rfl rfl fun _ =>
      .respond (s.setCur s.root).setDecActive node code epoch 0#64 ⟨h.nodes, h.codes⟩⟩
  | dec byte nb =>
    refine ⟨_, fun _ => rfl, sameEffect_refuseIfFaulted_require rfl rfl fun hactive => ?_⟩
    have hcur : (s.withHidden node code epoch).cur = s.cur := rfl
    rw [hcur, h.decRun_eq hinv.tree (hinv.flags.dec hactive) 0 (hinv.decoder.cur hactive)]
    split
    · exact .raise _ _
    · exact .respond ((s.setCur _).emitSyms _) node code epoch _ ⟨h.nodes, h.codes⟩
  | decend =>
    refine ⟨_, fun _ => rfl, sameEffect_refuseIfFaulted_require rfl rfl fun _ => ?_⟩
    have hcur : (s.withHidden node code epoch).cur = s.cur := rfl
    have hroot : (s.withHidden node code epoch).root = s.root := rfl
    rw [hcur, hroot]
    split
    · exact .respond s.clearDecActive node code epoch 0#64 ⟨h.nodes, h.codes⟩
    · exact .raise _ _

/-- Two runs of a command end alike. -/
theorem exec_sameObservable (h : Unseen s node code epoch) (hinv : Inv s) (i : Instr) :
    ∃ s' t', exec i s = .next s' ∧ exec i (s.withHidden node code epoch) = .next t' ∧ SameObservable s' t' := by
  have haccept : Unseen s.accept node code epoch := ⟨h.nodes, h.codes⟩
  obtain ⟨action, hexec, heffect⟩ := exec_eq_afterCommand_sameEffect haccept hinv.accept i
  exact ⟨_, _, hexec _, hexec _, sameObservable_afterCommand h heffect⟩

/-- Two runs of a host action end alike: of a command word, legal or not, and of hardware reset. -/
theorem hostAction_sameObservable (h : Unseen s node code epoch) (hinv : Inv s) (a : HostAction) :
    ∃ s' t', hostAction a s = .next s' ∧ hostAction a (s.withHidden node code epoch) = .next t' ∧ SameObservable s' t' := by
  cases a with
  | hardwareReset => exact ⟨_, _, rfl, rfl, (Unseen.doReset s epoch).sameObservable⟩
  | command w =>
    cases hdecode : decode w with
    | ok i =>
      simp only [hostAction, presentWord_of_ok hdecode]
      exact exec_sameObservable h hinv i
    | error e =>
      simp only [hostAction, presentWord_of_error hdecode]
      exact ⟨_, _, rfl, rfl, sameObservable_afterCommand h (.raise _ _)⟩

end Sys2Proof.Machine

open Sys2Proof Sys2Proof.Machine

/-- Settles O58: two such states are one state with other unseen contents of NODE and CODE, and a step idles on both or takes the
same host action, which runs alike on both. -/
theorem unspecifiedEntriesAreUnobservable : Obligations.UnspecifiedEntriesAreUnobservable := by
  intro s t hs ht hsame
  obtain ⟨node, code, epoch, rfl, h⟩ := hsame.eq_withHidden hs ht
  cases hhost : s.host with
  | nil => exact ⟨s, _, by simp [step, stepHost, hhost], by simp [step, stepHost, hsame.host, hhost], hsame⟩
  | cons a rest =>
    obtain ⟨s', t', hs', ht', hsame'⟩ :=
      hostAction_sameObservable (s := s.setHost rest) ⟨h.nodes, h.codes⟩ (hs.setHost rest) a
    refine ⟨s', t', ?_, ?_, hsame'⟩
    · rw [step, stepHost, hhost]
      exact hs'
    · rw [step, stepHost, hsame.host, hhost]
      exact ht'

end

section
/-! PROOFS. The read commands of the tree and of the code table (41_tree_builder.md R123, 42_code_assigner.md R140, R141): each
answers the word of 20_memory.md R66 in every mode, and changes nothing. -/

namespace Sys2Proof.Machine

/-! ### A command that only answers -/

/-- Accepting and answering a command is one count and one response. -/
theorem answered_accept_respond (s : State) (r : Response) : Answered s (s.accept.respond r) r := ⟨rfl, rfl, rfl, rfl⟩

section
variable {s : State} {flag : State → Bool} {action : State → Effect}

/-- A command whose flag is set and whose action answers at the accepted state itself does nothing else. -/
theorem afterCommand_require_read {d : Word} (opcode : BitVec 8) (hflag : flag s.accept = true)
    (hread : action s.accept = .respond s.accept d) :
    afterCommand (require flag opcode action) s = s.accept.respond ⟨.ok, d⟩ := by
  rw [afterCommand_require opcode action hflag, afterCommand_of_respond hread]

/-- A command whose flag is set and whose action raises fails with the error raised. -/
theorem failed_of_require_raise {e : Error} {arg : BitVec 16} (opcode : BitVec 8) (hflag : flag s.accept = true)
    (hraise : action s.accept = .raise e arg) : Failed s (afterCommand (require flag opcode action) s) e arg := by
  rw [afterCommand_require opcode action hflag]
  exact failed_of_raise hraise

end

/-! ### What each read command does, its flag set -/

theorem exec_rdnode_of_lt {s : State} {node : NodeIdx} (hvalid : s.treeValid = true) (hlt : node.toNat < nnode s) :
    exec (.rdnode node) s = .next (s.accept.respond ⟨.ok, nodeWord (nodeAt s node.toNat)⟩) :=
  congrArg Host.Outcome.next (afterCommand_require_read _ hvalid (if_pos hlt))

/-- The range check of R123. -/
theorem exec_rdnode_failed_of_le {s : State} {node : NodeIdx} (hvalid : s.treeValid = true) (hle : nnode s ≤ node.toNat) :
    ∃ t, exec (.rdnode node) s = .next t ∧ Failed s t .rangeError (node.setWidth 16) :=
  ⟨_, rfl, failed_of_require_raise _ hvalid (if_neg (Nat.not_lt.2 hle))⟩

theorem exec_rdclen_of_codesValid {s : State} (sym : Symbol) (hvalid : s.codesValid = true) :
    exec (.rdclen sym) s = .next (s.accept.respond ⟨.ok, readCodeLen s sym⟩) :=
  congrArg Host.Outcome.next (afterCommand_require_read _ hvalid rfl)

theorem exec_rdcode_of_codesValid {s : State} (sym : Symbol) (w : BitVec 2) (hvalid : s.codesValid = true) :
    exec (.rdcode sym w) s = .next (s.accept.respond ⟨.ok, readCodeBits s sym w⟩) :=
  congrArg Host.Outcome.next (afterCommand_require_read _ hvalid rfl)

/-! ### The words answered (R66) -/

theorem nodeWord_toNat_of_leaf {d : Node} (h : d.leaf = true) :
    (nodeWord d).toNat = d.freq.toNat + 2 ^ 40 * d.sym.toNat + 2 ^ 49 * d.right.toNat + 2 ^ 58 := by
  simp [nodeWord_toNat, h]

theorem nodeWord_toNat_of_inner {d : Node} (h : d.leaf = false) :
    (nodeWord d).toNat = d.freq.toNat + 2 ^ 40 * d.left.toNat + 2 ^ 49 * d.right.toNat := by
  simp [nodeWord_toNat, h]

/-- A code has 255 positions, so that position 255, the last of word 3, reads 0. -/
theorem readCodeBits_getLsbD_of_lt (s : State) (sym : Symbol) (w : BitVec 2) {j : Nat} (hj : j < 64) :
    (readCodeBits s sym w).getLsbD j =
      if 64 * w.toNat + j ≤ 254 then (codeAt s sym.toNat).bits.getLsbD (64 * w.toNat + j) else false := by
  rw [readCodeBits_getLsbD, decide_eq_true hj, Bool.true_and]
  split
  · rfl
  · exact BitVec.getLsbD_of_ge _ _ (by omega)

end Sys2Proof.Machine

open Sys2Proof Sys2Proof.Machine

/-- Settles O33, by the range check: below NNODE the node's word is answered, by the kind of node, and at or above it the check
raises. -/
theorem rdnodeAnswersTheNodeOrRangeError : Obligations.RdnodeAnswersTheNodeOrRangeError := by
  intro s node hvalid
  constructor
  · intro hlt
    exact ⟨_, _, exec_rdnode_of_lt hvalid hlt, answered_accept_respond s _, keepsAllButErrors_accept_respond s _,
      keepsErrors_accept_respond s _, nodeWord_toNat_of_leaf, nodeWord_toNat_of_inner⟩
  · exact exec_rdnode_failed_of_le hvalid

/-- Settles O40: with CODES_VALID set RDCLEN only answers, and the word's two fields are the entry's. -/
theorem rdclenAnswersLengthAndValidity : Obligations.RdclenAnswersLengthAndValidity := by
  intro s sym hvalid
  exact ⟨_, _, exec_rdclen_of_codesValid sym hvalid, answered_accept_respond s _, readCodeLen_toNat s sym,
    keepsAllButErrors_accept_respond s _, keepsErrors_accept_respond s _⟩

/-- Settles O41: with CODES_VALID set RDCODE only answers, and the word's bits are the code's positions. -/
theorem rdcodeAnswersSixtyFourCodePositions : Obligations.RdcodeAnswersSixtyFourCodePositions := by
  intro s sym w hvalid
  exact ⟨_, _, exec_rdcode_of_codesValid sym w hvalid, answered_accept_respond s _,
    fun _ hj => readCodeBits_getLsbD_of_lt s sym w hj, keepsAllButErrors_accept_respond s _, keepsErrors_accept_respond s _⟩

end

section
/-! PROOFS. Command words (30_encoding.md R80 to R84): the must-be-zero bits of a format and the mask table, what the decoder does
with a word, said once, and its agreement with the encoder. -/

namespace Sys2Proof

/-! ### The high bits of a field -/

section
variable {n k m : Nat} {x : BitVec n}

/-- Widening an operand to its field leaves the bits above it zero. -/
theorem extractLsb'_setWidth_high (y : BitVec k) (h : k + m ≤ n) : (y.setWidth n).extractLsb' k m = 0#m := by
  rw [BitVec.extractLsb'_setWidth_of_le h]
  ext i hi
  simp

theorem extractLsb'_setWidth_low (y : BitVec k) (h : k ≤ n) : (y.setWidth n).extractLsb' 0 k = y := by
  rw [BitVec.extractLsb'_setWidth_of_le (by omega), BitVec.extractLsb'_eq_self]

theorem extractLsb'_high_eq_zero_iff (hn : n = k + m) : x.extractLsb' k m = 0#m ↔ ∀ i, k ≤ i → x.getLsbD i = false := by
  constructor
  · intro h i hi
    by_cases him : i - k < m
    · simpa [him, show k + (i - k) = i by omega] using congrArg (fun y => y.getLsbD (i - k)) h
    · exact BitVec.getLsbD_of_ge _ _ (by omega)
  · intro h
    ext i hi
    simpa using h (k + i) (by omega)

/-- A field whose high bits are zero is its operand widened. -/
theorem setWidth_extractLsb'_low (hn : n = k + m) (h : x.extractLsb' k m = 0#m) : (x.extractLsb' 0 k).setWidth n = x := by
  apply BitVec.eq_of_getLsbD_eq
  intro i hi
  by_cases hik : i < k
  · simp [hi, hik]
  · simp [hik, (extractLsb'_high_eq_zero_iff hn).1 h i (by omega)]

/-- A mask of the bits from position `k` on sees exactly the high bits. -/
theorem and_highMask_eq_zero {mask : BitVec n} (hn : n = k + m) (hmask : mask = BitVec.allOnes n <<< k) :
    x &&& mask = 0#n ↔ x.extractLsb' k m = 0#m := by
  rw [hmask, extractLsb'_high_eq_zero_iff hn]
  constructor
  · intro h i hi
    by_cases hin : i < n
    · have hbit := congrArg (fun y => y.getLsbD i) h
      simpa [hin, show ¬ i < k by omega] using hbit
    · exact BitVec.getLsbD_of_ge _ _ (by omega)
  · intro h
    apply BitVec.eq_of_getLsbD_eq
    intro i hi
    by_cases hik : i < k
    · simp [hik]
    · simp [h i (by omega)]

end

/-! ### The mask table -/

variable {w : Word}

theorem fields_inj {a a' b b' : BitVec 8} {c c' : BitVec 16} {d d' : BitVec 32} :
    a ++ b ++ c ++ d = a' ++ b' ++ c' ++ d' ↔ a = a' ∧ b = b' ∧ c = c' ∧ d = d' := by
  constructor
  · intro h
    exact ⟨by simpa using congrArg fieldOp h, by simpa using congrArg fieldAux h, by simpa using congrArg fieldIdx h,
      by simpa using congrArg fieldImm h⟩
  · rintro ⟨rfl, rfl, rfl, rfl⟩
    rfl

/-- A mask over the whole opcode compares a word field by field with a pattern that is an opcode alone. -/
theorem and_fields_eq_iff (w : Word) (op maskAux : BitVec 8) (maskIdx : BitVec 16) (maskImm : BitVec 32) :
    w &&& (0xFF#8 ++ maskAux ++ maskIdx ++ maskImm) = op ++ 0#8 ++ 0#16 ++ 0#32 ↔
      fieldOp w = op ∧ fieldAux w &&& maskAux = 0#8 ∧ fieldIdx w &&& maskIdx = 0#16 ∧ fieldImm w &&& maskImm = 0#32 := by
  have hop : fieldOp w &&& 0xFF#8 = fieldOp w := BitVec.and_allOnes
  conv_lhs => rw [← word_eq_fields w]
  rw [BitVec.and_append, BitVec.and_append, BitVec.and_append, fields_inj, hop]

/-- The must-be-zero bits of a format are zero (R81): what the format's check reads. -/
def Format.zeros (w : Word) : Format → Bool
  | .n  => fieldAux w == 0 && fieldIdx w == 0 && fieldImm w == 0
  | .s  => fieldAux w == 0 && (fieldIdx w).extractLsb' 8 8 == 0 && fieldImm w == 0
  | .si => fieldAux w == 0 && (fieldIdx w).extractLsb' 8 8 == 0
  | .x  => fieldAux w == 0 && (fieldIdx w).extractLsb' 9 7 == 0 && fieldImm w == 0
  | .c  => fieldAux w == 0 && (fieldIdx w).extractLsb' 3 13 == 0 && fieldImm w == 0
  | .sw => (fieldAux w).extractLsb' 2 6 == 0 && (fieldIdx w).extractLsb' 8 8 == 0 && fieldImm w == 0
  | .d  => (fieldAux w).extractLsb' 3 5 == 0 && (fieldIdx w).extractLsb' 8 8 == 0 && fieldImm w == 0

/-- The mask of a format is the opcode and the must-be-zero bits (R81). -/
theorem Format.and_mask_eq_iff (f : Format) (w : Word) (op : BitVec 8) :
    w &&& f.mask = op ++ 0#8 ++ 0#16 ++ 0#32 ↔ fieldOp w = op ∧ f.zeros w = true := by
  have haux (x : BitVec 8) : x &&& 0xFF#8 = x := BitVec.and_allOnes
  have himm (x : BitVec 32) : x &&& 0xFFFFFFFF#32 = x := BitVec.and_allOnes
  have hsym (x : BitVec 16) : x &&& 0xFF00#16 = 0#16 ↔ x.extractLsb' 8 8 = 0#8 := and_highMask_eq_zero rfl rfl
  cases f with
  | n =>
    have hidx (x : BitVec 16) : x &&& 0xFFFF#16 = x := BitVec.and_allOnes
    refine (and_fields_eq_iff w op 0xFF#8 0xFFFF#16 0xFFFFFFFF#32).trans ?_
    simp [Format.zeros, haux, hidx, himm, and_assoc]
  | s =>
    refine (and_fields_eq_iff w op 0xFF#8 0xFF00#16 0xFFFFFFFF#32).trans ?_
    simp [Format.zeros, haux, hsym, himm, and_assoc]
  | si =>
    refine (and_fields_eq_iff w op 0xFF#8 0xFF00#16 0#32).trans ?_
    simp [Format.zeros, haux, hsym]
  | x =>
    have hnode (x : BitVec 16) : x &&& 0xFE00#16 = 0#16 ↔ x.extractLsb' 9 7 = 0#7 := and_highMask_eq_zero rfl rfl
    refine (and_fields_eq_iff w op 0xFF#8 0xFE00#16 0xFFFFFFFF#32).trans ?_
    simp [Format.zeros, haux, hnode, himm, and_assoc]
  | c =>
    have hcsr (x : BitVec 16) : x &&& 0xFFF8#16 = 0#16 ↔ x.extractLsb' 3 13 = 0#13 := and_highMask_eq_zero rfl rfl
    refine (and_fields_eq_iff w op 0xFF#8 0xFFF8#16 0xFFFFFFFF#32).trans ?_
    simp [Format.zeros, haux, hcsr, himm, and_assoc]
  | sw =>
    have hpart (x : BitVec 8) : x &&& 0xFC#8 = 0#8 ↔ x.extractLsb' 2 6 = 0#6 := and_highMask_eq_zero rfl rfl
    refine (and_fields_eq_iff w op 0xFC#8 0xFF00#16 0xFFFFFFFF#32).trans ?_
    simp [Format.zeros, hpart, hsym, himm, and_assoc]
  | d =>
    have hbits (x : BitVec 8) : x &&& 0xF8#8 = 0#8 ↔ x.extractLsb' 3 5 = 0#5 := and_highMask_eq_zero rfl rfl
    refine (and_fields_eq_iff w op 0xF8#8 0xFF00#16 0xFFFFFFFF#32).trans ?_
    simp [Format.zeros, hbits, hsym, himm, and_assoc]

/-- A row's pattern is its opcode and zeros (R82). -/
theorem pattern_eq_fields : ∀ r ∈ opcodeTable, r.pattern = fieldOp r.pattern ++ 0#8 ++ 0#16 ++ 0#32 := by decide

/-- A word matches a row exactly when it has the row's opcode and zeros where the row's format must have them. -/
theorem matches_iff {r : OpRow} (hr : r ∈ opcodeTable) (w : Word) :
    w &&& r.format.mask = r.pattern ↔ fieldOp w = fieldOp r.pattern ∧ r.format.zeros w = true := by
  rw [pattern_eq_fields r hr, Format.and_mask_eq_iff, fieldOp_append]

/-- No two rows share an opcode. -/
theorem row_eq_of_opcode_eq : ∀ r ∈ opcodeTable, ∀ r' ∈ opcodeTable, fieldOp r.pattern = fieldOp r'.pattern → r = r' := by decide

/-- No two rows share a mnemonic. -/
theorem row_eq_of_mnemonic_eq : ∀ r ∈ opcodeTable, ∀ r' ∈ opcodeTable, r.mnemonic = r'.mnemonic → r = r' := by decide

/-! ### Encoding what was decoded -/

/-- A command is encoded as `w` when the fields agree. -/
theorem encode_eq_of_fields {i : Instr} (hop : opcodeOf i = fieldOp w) (haux : auxOf i = fieldAux w)
    (hidx : idxOf i = fieldIdx w) (himm : immOf i = fieldImm w) : encode i = w := by
  rw [encode, hop, haux, hidx, himm, word_eq_fields]

/-- A command without operands. -/
theorem encode_of_noOperand {i : Instr} (hz : (fieldAux w == 0 && fieldIdx w == 0 && fieldImm w == 0) = true)
    (hop : opcodeOf i = fieldOp w) (haux : auxOf i = 0#8) (hidx : idxOf i = 0#16) (himm : immOf i = 0#32) : encode i = w := by
  obtain ⟨⟨ha, hi⟩, hm⟩ : (fieldAux w = 0#8 ∧ fieldIdx w = 0#16) ∧ fieldImm w = 0#32 := by simpa using hz
  exact encode_eq_of_fields hop (haux.trans ha.symm) (hidx.trans hi.symm) (himm.trans hm.symm)

/-- A command with one operand, the low `k` bits of `idx`. -/
theorem encode_of_idxOperand {i : Instr} {k m : Nat} (hk : 16 = k + m)
    (hz : (fieldAux w == 0 && (fieldIdx w).extractLsb' k m == 0 && fieldImm w == 0) = true) (hop : opcodeOf i = fieldOp w)
    (haux : auxOf i = 0#8) (hidx : idxOf i = ((fieldIdx w).extractLsb' 0 k).setWidth 16) (himm : immOf i = 0#32) :
    encode i = w := by
  obtain ⟨⟨ha, hi⟩, hm⟩ : (fieldAux w = 0#8 ∧ (fieldIdx w).extractLsb' k m = 0#m) ∧ fieldImm w = 0#32 := by simpa using hz
  exact encode_eq_of_fields hop (haux.trans ha.symm) (hidx.trans (setWidth_extractLsb'_low hk hi)) (himm.trans hm.symm)

/-- A command with a symbol in `idx` and the whole of `imm`. -/
theorem encode_of_immOperand {i : Instr} (hz : (fieldAux w == 0 && (fieldIdx w).extractLsb' 8 8 == 0) = true)
    (hop : opcodeOf i = fieldOp w) (haux : auxOf i = 0#8) (hidx : idxOf i = ((fieldIdx w).extractLsb' 0 8).setWidth 16)
    (himm : immOf i = fieldImm w) : encode i = w := by
  obtain ⟨ha, hi⟩ : fieldAux w = 0#8 ∧ (fieldIdx w).extractLsb' 8 8 = 0#8 := by simpa using hz
  exact encode_eq_of_fields hop (haux.trans ha.symm) (hidx.trans (setWidth_extractLsb'_low rfl hi)) himm

/-- A command with a byte in `idx` and the low `k` bits of `aux`. -/
theorem encode_of_auxOperand {i : Instr} {k m : Nat} (hk : 8 = k + m)
    (hz : ((fieldAux w).extractLsb' k m == 0 && (fieldIdx w).extractLsb' 8 8 == 0 && fieldImm w == 0) = true)
    (hop : opcodeOf i = fieldOp w) (haux : auxOf i = ((fieldAux w).extractLsb' 0 k).setWidth 8)
    (hidx : idxOf i = ((fieldIdx w).extractLsb' 0 8).setWidth 16) (himm : immOf i = 0#32) : encode i = w := by
  obtain ⟨⟨ha, hi⟩, hm⟩ : ((fieldAux w).extractLsb' k m = 0#m ∧ (fieldIdx w).extractLsb' 8 8 = 0#8) ∧ fieldImm w = 0#32 := by
    simpa using hz
  exact encode_eq_of_fields hop (haux.trans (setWidth_extractLsb'_low hk ha)) (hidx.trans (setWidth_extractLsb'_low rfl hi))
    (himm.trans hm.symm)

/-! ### What the decoder does with a word -/

/-- The decoder's answer `res` to `w` is the check of row `r` on the command `i`, which is the row's, and whose word is `w` if
the check passes. -/
structure ReadsUnder (w : Word) (res : Except DecodeError Instr) (r : OpRow) (i : Instr) : Prop where
  mem      : r ∈ opcodeTable
  opcode   : fieldOp w = fieldOp r.pattern
  mnemonic : mnemonicOf i = r.mnemonic
  result   : res = checkZero w (r.format.zeros w) i
  word     : r.format.zeros w = true → encode i = w

/-- Row `k` reads `w` as `i` when `i` has the opcode of the row and of the word, and the row's check is the decoder's answer. -/
theorem readsUnder_row (k : Fin 18) {res : Except DecodeError Instr} {i : Instr}
    (hresult : res = checkZero w (opcodeTable[k].format.zeros w) i) (hop : (fieldOp w).toNat = (opcodeOf i).toNat)
    (hrow : (opcodeOf i).toNat = (fieldOp opcodeTable[k].pattern).toNat) (hmnemonic : mnemonicOf i = opcodeTable[k].mnemonic)
    (hword : opcodeTable[k].format.zeros w = true → opcodeOf i = fieldOp w → encode i = w) : ∃ r i, ReadsUnder w res r i :=
  ⟨opcodeTable[k], i, List.getElem_mem _, BitVec.eq_of_toNat_eq (hop.trans hrow), hmnemonic, hresult,
    fun hzeros => hword hzeros (BitVec.eq_of_toNat_eq hop.symm)⟩

/-- The opcodes of R82. -/
theorem opcode_mem : ∀ r ∈ opcodeTable, (fieldOp r.pattern).toNat ∈
    [0x01, 0x02, 0x03, 0x10, 0x11, 0x12, 0x13, 0x20, 0x21, 0x30, 0x31, 0x32, 0x40, 0x41, 0x42, 0x50, 0x51, 0x52] := by decide

/-- A word is read under one row, or has the opcode of none: what R83's procedure can do. -/
theorem decode_cases (w : Word) :
    (∃ r i, ReadsUnder w (decode w) r i) ∨
    ((∀ r ∈ opcodeTable, fieldOp w ≠ fieldOp r.pattern) ∧ decode w = .error (.undefinedOpcode (fieldOp w))) := by
  unfold decode
  split
  case h_1 h => exact .inl (readsUnder_row 0 rfl h rfl rfl (encode_of_noOperand · · rfl rfl rfl))
  case h_2 h => exact .inl (readsUnder_row 1 rfl h rfl rfl (encode_of_noOperand · · rfl rfl rfl))
  case h_3 h => exact .inl (readsUnder_row 2 rfl h rfl rfl (encode_of_idxOperand rfl · · rfl rfl rfl))
  case h_4 h => exact .inl (readsUnder_row 3 rfl h rfl rfl (encode_of_noOperand · · rfl rfl rfl))
  case h_5 h => exact .inl (readsUnder_row 4 rfl h rfl rfl (encode_of_idxOperand rfl · · rfl rfl rfl))
  case h_6 h => exact .inl (readsUnder_row 5 rfl h rfl rfl (encode_of_immOperand · · rfl rfl rfl))
  case h_7 h => exact .inl (readsUnder_row 6 rfl h rfl rfl (encode_of_idxOperand rfl · · rfl rfl rfl))
  case h_8 h => exact .inl (readsUnder_row 7 rfl h rfl rfl (encode_of_noOperand · · rfl rfl rfl))
  case h_9 h => exact .inl (readsUnder_row 8 rfl h rfl rfl (encode_of_idxOperand rfl · · rfl rfl rfl))
  case h_10 h => exact .inl (readsUnder_row 9 rfl h rfl rfl (encode_of_noOperand · · rfl rfl rfl))
  case h_11 h => exact .inl (readsUnder_row 10 rfl h rfl rfl (encode_of_idxOperand rfl · · rfl rfl rfl))
  case h_12 h => exact .inl (readsUnder_row 11 rfl h rfl rfl (encode_of_auxOperand rfl · · rfl rfl rfl))
  case h_13 h => exact .inl (readsUnder_row 12 rfl h rfl rfl (encode_of_noOperand · · rfl rfl rfl))
  case h_14 h => exact .inl (readsUnder_row 13 rfl h rfl rfl (encode_of_idxOperand rfl · · rfl rfl rfl))
  case h_15 h => exact .inl (readsUnder_row 14 rfl h rfl rfl (encode_of_noOperand · · rfl rfl rfl))
  case h_16 h => exact .inl (readsUnder_row 15 rfl h rfl rfl (encode_of_noOperand · · rfl rfl rfl))
  case h_17 h => exact .inl (readsUnder_row 16 rfl h rfl rfl (encode_of_auxOperand rfl · · rfl rfl rfl))
  case h_18 h => exact .inl (readsUnder_row 17 rfl h rfl rfl (encode_of_noOperand · · rfl rfl rfl))
  case h_19 =>
    refine .inr ⟨fun r hr hop => ?_, rfl⟩
    have hmem := opcode_mem r hr
    rw [← hop] at hmem
    simp_all

variable {i : Instr}

/-- A word that decodes matches the row of its command, and is the command's word. -/
theorem exists_row_of_decode_ok (h : decode w = .ok i) :
    ∃ r ∈ opcodeTable, mnemonicOf i = r.mnemonic ∧ w &&& r.format.mask = r.pattern ∧ encode i = w := by
  obtain ⟨r, j, hreads⟩ | ⟨-, herror⟩ := decode_cases w
  · obtain ⟨hzeros, rfl⟩ := checkZero_eq_ok.1 (hreads.result.symm.trans h)
    exact ⟨r, hreads.mem, hreads.mnemonic, (matches_iff hreads.mem w).2 ⟨hreads.opcode, hzeros⟩, hreads.word hzeros⟩
  · rw [herror] at h
    cases h

/-- A word that matches a row decodes to a command of that row. -/
theorem exists_decode_ok_of_matches {r : OpRow} (hr : r ∈ opcodeTable) (h : w &&& r.format.mask = r.pattern) :
    ∃ i, decode w = .ok i ∧ mnemonicOf i = r.mnemonic := by
  obtain ⟨hop, hzeros⟩ := (matches_iff hr w).1 h
  obtain ⟨r', i, hreads⟩ | ⟨hnone, -⟩ := decode_cases w
  · obtain rfl := row_eq_of_opcode_eq r hr r' hreads.mem (hop.symm.trans hreads.opcode)
    exact ⟨i, hreads.result.trans (checkZero_eq_ok.2 ⟨hzeros, rfl⟩), hreads.mnemonic⟩
  · exact absurd hop (hnone r hr)

/-- A word is an undefined opcode exactly when no row has its opcode (R84). -/
theorem decode_undefined_iff (w : Word) :
    (∃ op, decode w = .error (.undefinedOpcode op)) ↔ ∀ r ∈ opcodeTable, fieldOp w ≠ fieldOp r.pattern := by
  obtain ⟨r, i, hreads⟩ | ⟨hnone, herror⟩ := decode_cases w
  · constructor
    · rintro ⟨op, hop⟩
      exact absurd (hreads.result.symm.trans hop) (checkZero_ne_undefined op)
    · exact fun hnone => absurd hreads.opcode (hnone r hreads.mem)
  · exact ⟨fun _ => hnone, fun _ => ⟨_, herror⟩⟩

/-- The decoder undoes the encoder: the opcode selects the format, the bits above each operand are zero, and the operand is the
low bits of its field. -/
theorem decode_encode (i : Instr) : decode (encode i) = .ok i := by
  rw [decode, fieldOp_encode]
  cases i with
  | reset | clrerr | clrfreq | build | assign | encstart | encend | decstart | decend =>
    simp [opcodeOf, formatN, checkZero, auxOf, idxOf, immOf]
  | cnt sym | rdfreq sym | rdclen sym | enc sym =>
    simp [opcodeOf, formatS, checkZero, auxOf, idxOf, immOf, extractLsb'_setWidth_high, extractLsb'_setWidth_low]
  | wrfreq sym val =>
    simp [opcodeOf, formatSI, checkZero, auxOf, idxOf, immOf, extractLsb'_setWidth_high, extractLsb'_setWidth_low]
  | rdnode node =>
    simp [opcodeOf, formatX, checkZero, auxOf, idxOf, immOf, extractLsb'_setWidth_high, extractLsb'_setWidth_low]
  | rdcsr csr =>
    simp [opcodeOf, formatC, checkZero, auxOf, idxOf, immOf, extractLsb'_setWidth_high, extractLsb'_setWidth_low]
  | rdcode sym part =>
    simp [opcodeOf, formatSW, checkZero, auxOf, idxOf, immOf, extractLsb'_setWidth_high, extractLsb'_setWidth_low]
  | dec byte nb =>
    simp [opcodeOf, formatD, checkZero, auxOf, idxOf, immOf, extractLsb'_setWidth_high, extractLsb'_setWidth_low]

end Sys2Proof

open Sys2Proof Sys2Proof.Machine

/-- Settles O1, by the command: its word has its opcode, and the operands read back from their fields. -/
theorem decodingAnEncodedCommandGivesItBack : Obligations.DecodingAnEncodedCommandGivesItBack := decode_encode

/-- Settles O2: what the decoder reads of a word, encoded, is the word, since the bits it does not read are zero. -/
theorem decodedWordIsTheWordOfItsCommand : Obligations.DecodedWordIsTheWordOfItsCommand := by
  intro w i h
  obtain ⟨-, -, -, -, hword⟩ := exists_row_of_decode_ok h
  exact hword

/-- Settles O3: a match is decoded under its row, and a command's own row is the one with its mnemonic. -/
theorem decodingAgreesWithTheMaskTable : Obligations.DecodingAgreesWithTheMaskTable := by
  intro w r hr
  constructor
  · exact exists_decode_ok_of_matches hr
  · rintro ⟨i, hdecode, hmnemonic⟩
    obtain ⟨r', hr', hmnemonic', hmatch, -⟩ := exists_row_of_decode_ok hdecode
    obtain rfl := row_eq_of_mnemonic_eq r hr r' hr' (hmnemonic.symm.trans hmnemonic')
    exact hmatch

/-- Settles O4: a match is decoded and what is decoded matches; an undefined opcode is the one case that no row reads. -/
theorem rejectedWordsAreThoseOutsideTheTable : Obligations.RejectedWordsAreThoseOutsideTheTable := by
  intro w
  refine ⟨⟨?_, ?_⟩, decode_undefined_iff w⟩
  · rintro ⟨e, herror⟩ r hr hmatch
    obtain ⟨i, hok, -⟩ := exists_decode_ok_of_matches hr hmatch
    rw [herror] at hok
    cases hok
  · intro hnone
    cases hdecode : decode w with
    | ok i =>
      obtain ⟨r, hr, -, hmatch, -⟩ := exists_row_of_decode_ok hdecode
      exact absurd hmatch (hnone r hr)
    | error e => exact ⟨e, rfl⟩

/-- Settles O5: each of the eleven words is decoded. -/
theorem sampleWordsDecode : Obligations.SampleWordsDecode := by
  unfold Obligations.SampleWordsDecode
  decide

/-- Settles O10: the step presents the word, and an illegal word is a command whose action raises. -/
theorem illegalWordRaisesIllegalCommand : Obligations.IllegalWordRaisesIllegalCommand := by
  intro s w rest e hhost hdecode
  exact ⟨_, (step_of_host_command hhost).trans (presentWord_of_error hdecode _), failed_of_raise rfl⟩

end

section
/-! PROOFS. The assembler of 30_encoding.md R87 and the pseudo-instruction `decbits` of R88. -/

namespace Sys2Proof

/-! ### Lines -/

/-- A line in range that names a command assembles to the command's word. -/
theorem assemble_of_toInstr {a : Asm} {i : Instr} (hwf : a.wellFormed = true) (hi : a.toInstr = some i) :
    assemble a = some (encode i) := by
  unfold assemble
  rw [if_pos hwf, hi]
  cases a with
  | word v => cases hi
  | _ => rfl

theorem assemble_of_not_wellFormed {a : Asm} (hwf : a.wellFormed = false) : assemble a = none := by
  simp [assemble, hwf]

theorem assemble_word {v : Nat} (hv : v < 2 ^ 64) : assemble (.word v) = some (BitVec.ofNat 64 v) := by
  exact if_pos (decide_eq_true hv)

/-- `.word` is the one line that names no command. -/
theorem toInstr_cases (a : Asm) : (∃ v, a = .word v) ∨ ∃ i, a.toInstr = some i := by
  cases a with
  | word v => exact .inl ⟨v, rfl⟩
  | _ => exact .inr ⟨_, rfl⟩

/-! ### Bit strings as numbers -/

theorem bitsToNat_concat (l : List Bool) (b : Bool) : bitsToNat (l ++ [b]) = Nat.bit b (bitsToNat l) := by
  rw [bitsToNat, List.foldl_append, Nat.bit_val]
  rfl

/-- The last character of a bit string is bit 0 of its number (R88). -/
theorem testBit_bitsToNat (l : List Bool) (j : Nat) : (bitsToNat l).testBit j = l.reverse.getD j false := by
  induction l using List.reverseRecOn generalizing j with
  | nil => simp [bitsToNat]
  | append_singleton l b ih =>
    rw [bitsToNat_concat]
    cases j with
    | zero => simp
    | succ j => simp [Nat.testBit_bit_succ, ih]

theorem bitsToNat_lt (l : List Bool) : bitsToNat l < 2 ^ l.length := by
  apply Nat.lt_pow_two_of_testBit
  intro j hj
  simp [testBit_bitsToNat, hj]

/-! ### `decbits` -/

namespace Machine

/-- The byte and the bit count of a group's `dec` line (R88). -/
def groupOperands (group : List Bool) : Byte × BitVec 3 :=
  (BitVec.ofNat 8 (bitsToNat (group ++ List.replicate (8 - group.length) false)), BitVec.ofNat 3 (group.length - 1))

theorem toInstr_decGroup (group : List Bool) :
    (decGroup group).toInstr = some (.dec (groupOperands group).1 (groupOperands group).2) := rfl

variable {group : List Bool}

theorem wellFormed_decGroup (hpos : 1 ≤ group.length) (hle : group.length ≤ 8) : (decGroup group).wellFormed = true := by
  have hlt := bitsToNat_lt (group ++ List.replicate (8 - group.length) false)
  have hlength : (group ++ List.replicate (8 - group.length) false).length = 8 := by simp; omega
  rw [hlength] at hlt
  simpa [decGroup, Asm.wellFormed, hpos, hle] using hlt

/-- The `dec` of a group consumes the group: the bits it delivers stand first in the byte (R172). -/
theorem decBits_groupOperands (hpos : 1 ≤ group.length) (hle : group.length ≤ 8) :
    decBits (groupOperands group).1 (groupOperands group).2 = group := by
  apply List.ext_getElem
  · simp [groupOperands]
    omega
  · intro i h1 h2
    simp only [decBits, groupOperands, List.getElem_map, List.getElem_range, BitVec.getLsbD_ofNat, testBit_bitsToNat]
    have hpadded : 8 - group.length ≤ 7 - i := by omega
    have hback : group.length - 1 - (7 - i - (8 - group.length)) = i := by omega
    rw [decide_eq_true (by omega), Bool.true_and, List.reverse_append, List.reverse_replicate, List.getD_eq_getElem?_getD,
      List.getElem?_append_right (by simpa using hpadded), List.length_replicate, List.getElem?_reverse (by omega), hback,
      List.getElem?_eq_getElem h2, Option.getD_some]

/-- Cut into groups of 8 from a group begun, a bit string is consumed whole. -/
theorem decbitsFrom_delivers (bits pending : List Bool) (hpending : pending.length ≤ 7) :
    ∃ groups : List (List Bool), decbitsFrom pending bits = groups.map decGroup ∧ groups.flatten = pending ++ bits ∧
      ∀ g ∈ groups, 1 ≤ g.length ∧ g.length ≤ 8 := by
  induction bits generalizing pending with
  | nil =>
    by_cases hempty : pending = []
    · exact ⟨[], by simp [decbitsFrom, hempty], by simp [hempty], by simp⟩
    · have hpos := List.length_pos_iff.2 hempty
      exact ⟨[pending], by simp [decbitsFrom, hempty], by simp, by simp; omega⟩
  | cons b rest ih =>
    by_cases hfull : pending.length = 7
    · obtain ⟨groups, hlines, hbits, hlength⟩ := ih [] (by simp)
      exact ⟨(pending ++ [b]) :: groups, by simp [decbitsFrom, hfull, hlines], by simp [hbits], by simpa [hfull] using hlength⟩
    · obtain ⟨groups, hlines, hbits, hlength⟩ := ih (pending ++ [b]) (by simp; omega)
      exact ⟨groups, by simp [decbitsFrom, hfull, hlines], by simp [hbits], hlength⟩

end Machine

end Sys2Proof

open Sys2Proof Sys2Proof.Machine

/-- Settles O6, by whether the line is `.word`: any other line in range is the word of its command, which decodes by O1. -/
theorem assemblerRejectsOperandsOutOfRange : Obligations.AssemblerRejectsOperandsOutOfRange := by
  intro a
  refine ⟨assemble_of_not_wellFormed, fun hwf => ?_⟩
  obtain ⟨v, rfl⟩ | ⟨i, hi⟩ := toInstr_cases a
  · have hv : v < 2 ^ 64 := by simpa [Asm.wellFormed] using hwf
    refine ⟨_, assemble_word hv, ?_, ?_⟩
    · rintro _ ⟨⟩
      exact Nat.mod_eq_of_lt hv
    · rintro i ⟨⟩
  · refine ⟨_, assemble_of_toInstr hwf hi, ?_, ?_⟩
    · rintro v rfl
      cases hi
    · intro j hj
      rw [hi] at hj
      cases hj
      exact decode_encode i

/-- Settles O8: the groups that `decbits` cuts are the bit string, and each is one `dec` line that consumes it. -/
theorem decbitsDeliversExactlyItsBits : Obligations.DecbitsDeliversExactlyItsBits := by
  intro bits
  obtain ⟨groups, hlines, hbits, hlength⟩ := decbitsFrom_delivers bits [] (by simp)
  refine ⟨groups.map groupOperands, ?_, ?_, ?_⟩
  · simp [expand, hlines, toInstr_decGroup]
  · intro a ha
    rw [expand, hlines] at ha
    obtain ⟨g, hg, rfl⟩ := List.mem_map.1 ha
    obtain ⟨hpos, hle⟩ := hlength g hg
    exact wellFormed_decGroup hpos hle
  · calc (groups.map groupOperands).flatMap (fun d => decBits d.1 d.2)
        = groups.flatMap id := by
          rw [List.flatMap_map]
          exact List.flatMap_congr fun g hg => decBits_groupOperands (hlength g hg).1 (hlength g hg).2
      _ = bits := by simpa using hbits

end

section
/-! PROOFS. The frequency table (40_frequency.md): what each of its four commands does outside FAULTED mode, and what a sequence of
CNT leaves (R104). -/

namespace Sys2Proof.Machine

variable {s t u : State} {sym : Symbol}

/-! ### A command that writes FREQ only -/

/-- The state with other contents of FREQ, as CLRFREQ, WRFREQ and CNT leave it: `clearFreq` and `writeFreq` unfold to it. -/
def State.withFreq (s : State) (m : Memory Count) : State := { s with freq := m }

theorem answered_withFreq (s : State) (m : Memory Count) (r : Response) :
    Answered s ((s.accept.withFreq m).respond r) r := ⟨rfl, rfl, rfl, rfl⟩

theorem keeps_withFreq (s : State) (m : Memory Count) (r : Response) :
    KeepsTree s ((s.accept.withFreq m).respond r) ∧ KeepsCodes s ((s.accept.withFreq m).respond r) ∧
      KeepsEncoder s ((s.accept.withFreq m).respond r) ∧ KeepsDecoder s ((s.accept.withFreq m).respond r) ∧
      KeepsErrors s ((s.accept.withFreq m).respond r) :=
  ⟨⟨rfl, rfl, rfl, fun _ => rfl⟩, ⟨rfl, fun _ => rfl⟩, ⟨rfl, rfl, rfl, rfl, rfl⟩, ⟨rfl, rfl, rfl⟩, ⟨rfl, rfl, rfl, rfl⟩⟩

/-! ### What each command does -/

theorem exec_clrfreq_of_normal (hnormal : s.err = false) :
    exec .clrfreq s = .next (s.accept.clearFreq.respond ⟨.ok, 0#64⟩) :=
  congrArg Host.Outcome.next (afterCommand_of_respond (refuseIfFaulted_accept _ hnormal))

theorem exec_wrfreq_of_normal (sym : Symbol) (val : Count) (hnormal : s.err = false) :
    exec (.wrfreq sym val) s = .next ((s.accept.writeFreq sym.toNat val).respond ⟨.ok, 0#64⟩) :=
  congrArg Host.Outcome.next (afterCommand_of_respond (refuseIfFaulted_accept _ hnormal))

theorem exec_rdfreq (sym : Symbol) (s : State) : exec (.rdfreq sym) s = .next (s.accept.respond ⟨.ok, readFreq s sym⟩) := rfl

/-- FREQ with one more occurrence of a symbol (R102). -/
def State.countOne (s : State) (sym : Symbol) : State := s.writeFreq sym.toNat (freqAt s sym.toNat + 1#32)

theorem exec_cnt_of_lt (hnormal : s.err = false) (hlt : (freqAt s sym.toNat).toNat < 2 ^ 32 - 1) :
    exec (.cnt sym) s = .next ((s.accept.countOne sym).respond ⟨.ok, 0#64⟩) := by
  have hne : freqAt s.accept sym.toNat ≠ Config.countMax := fun h => hlt.ne (congrArg BitVec.toNat h)
  exact congrArg Host.Outcome.next (afterCommand_of_respond ((refuseIfFaulted_accept _ hnormal).trans (if_neg hne)))

theorem exec_cnt_failed_of_max (hnormal : s.err = false) (hmax : (freqAt s sym.toNat).toNat = 2 ^ 32 - 1) :
    ∃ t, exec (.cnt sym) s = .next t ∧ Failed s t .overflow (sym.setWidth 16) := by
  have heq : freqAt s.accept sym.toNat = Config.countMax := BitVec.eq_of_toNat_eq hmax
  exact ⟨_, rfl, failed_of_raise ((refuseIfFaulted_accept _ hnormal).trans (if_pos heq))⟩

theorem freqAt_countOne_of_ne (s : State) {a : Nat} (h : a ≠ sym.toNat) : freqAt (s.countOne sym) a = freqAt s a :=
  freqAt_writeFreq_of_ne s _ h

/-- Below the maximum a count goes up without wrapping, so that it is not 0 and the write needs no canonical form. -/
theorem freqAt_countOne_same (hlt : (freqAt s sym.toNat).toNat < 2 ^ 32 - 1) :
    (freqAt (s.countOne sym) sym.toNat).toNat = (freqAt s sym.toNat).toNat + 1 := by
  have hsucc : (freqAt s sym.toNat + 1#32).toNat = (freqAt s sym.toNat).toNat + 1 :=
    BitVec.toNat_add_of_lt (by simp only [BitVec.toNat_ofNat]; omega)
  have hne : freqAt s sym.toNat + 1#32 ≠ 0#32 := fun h => by simp [h] at hsucc
  rw [State.countOne, freqAt_writeFreq_nonzero s _ hne, hsucc]

theorem freqAt_countOne (hlt : (freqAt s sym.toNat).toNat < 2 ^ 32 - 1) (a : Nat) :
    (freqAt (s.countOne sym) a).toNat = (freqAt s a).toNat + if sym.toNat = a then 1 else 0 := by
  by_cases h : sym.toNat = a
  · subst h
    rw [if_pos rfl, freqAt_countOne_same hlt]
  · rw [if_neg h, freqAt_countOne_of_ne s (Ne.symm h), Nat.add_zero]

/-! ### The response log of a run -/

/-- Every command, RESET included, gives one response (R85). -/
theorem exec_responses (i : Instr) (s : State) : ∃ t r, exec i s = .next t ∧ t.responses = s.responses ++ [r] := by
  by_cases hi : i = .reset
  · subst hi
    exact ⟨_, _, exec_reset s, rfl⟩
  · obtain ⟨t, r, hexec, hanswered, -⟩ := exec_answered hi s
    exact ⟨t, r, hexec, hanswered.responses⟩

/-- Commands run to completion, and what was answered before stays in the log. -/
theorem runCommands_total (l : List Instr) (s : State) : ∃ t, runCommands l s = some t ∧ s.responses <+: t.responses := by
  induction l generalizing s with
  | nil => exact ⟨s, rfl, List.prefix_rfl⟩
  | cons i rest ih =>
    obtain ⟨u, r, hexec, hresponses⟩ := exec_responses i s
    obtain ⟨t, hrun, hprefix⟩ := ih u
    have hfirst : s.responses <+: u.responses := ⟨[r], hresponses.symm⟩
    exact ⟨t, (runCommands_cons rest hexec).trans hrun, hfirst.trans hprefix⟩

theorem responses_prefix_of_runCommands {l : List Instr} (h : runCommands l s = some t) : s.responses <+: t.responses := by
  obtain ⟨t', hrun, hprefix⟩ := runCommands_total l s
  obtain rfl := Option.some.inj (hrun.symm.trans h)
  exact hprefix

theorem allOk_iff {l : List Response} (h : t.responses = s.responses ++ l) : AllOk s t ↔ ∀ r ∈ l, r.status = .ok := by
  constructor
  · rintro ⟨l', hl', hok⟩
    rwa [List.append_cancel_left (h.symm.trans hl')]
  · exact fun hok => ⟨l, h, hok⟩

/-- A run is all OK when its first response is and the rest of it is. -/
theorem allOk_iff_of_answered {r : Response} {l : List Instr} (hu : Answered s u r) (ht : runCommands l u = some t) :
    AllOk s t ↔ r.status = .ok ∧ AllOk u t := by
  obtain ⟨rest, hrest⟩ := responses_prefix_of_runCommands ht
  have hs : t.responses = s.responses ++ r :: rest := by rw [← hrest, hu.responses, List.append_assoc, List.singleton_append]
  rw [allOk_iff hs, allOk_iff hrest.symm, List.forall_mem_cons]

/-! ### A sequence of CNT -/

/-- The first CNT of a sequence, below the maximum, counts its symbol, and leaves the rest to decide on the run. -/
theorem runCommands_cnt_cons {rest : List Symbol} (hnormal : s.err = false) (hlt : (freqAt s sym.toNat).toNat < 2 ^ 32 - 1)
    (hrun : runCommands ((sym :: rest).map .cnt) s = some t) :
    ∃ u, u.err = false ∧ (∀ a, (freqAt u a).toNat = (freqAt s a).toNat + if sym.toNat = a then 1 else 0) ∧
      runCommands (rest.map .cnt) u = some t ∧ (AllOk s t ↔ AllOk u t) := by
  rw [List.map_cons, runCommands_cons _ (exec_cnt_of_lt hnormal hlt)] at hrun
  refine ⟨(s.accept.countOne sym).respond ⟨.ok, 0#64⟩, hnormal, freqAt_countOne (s := s.accept) hlt, hrun, ?_⟩
  rw [allOk_iff_of_answered (answered_withFreq s _ _) hrun]
  exact and_iff_right rfl

/-- While every CNT succeeds, each count goes up by the symbol's occurrences: one that overflows is answered with an error. -/
theorem freqAt_of_allOk_cnt (l : List Symbol) (hnormal : s.err = false) (hrun : runCommands (l.map .cnt) s = some t)
    (hok : AllOk s t) (a : Nat) : (freqAt t a).toNat = (freqAt s a).toNat + (l.map BitVec.toNat).count a := by
  induction l generalizing s with
  | nil =>
    obtain rfl := Option.some.inj hrun
    rfl
  | cons sym rest ih =>
    have hle := (freqAt s sym.toNat).isLt
    obtain hlt | hmax : (freqAt s sym.toNat).toNat < 2 ^ 32 - 1 ∨ (freqAt s sym.toNat).toNat = 2 ^ 32 - 1 := by omega
    · obtain ⟨u, hu, hfreq, hrest, hiff⟩ := runCommands_cnt_cons hnormal hlt hrun
      rw [ih hu hrest (hiff.1 hok), hfreq a, List.map_cons, List.count_cons, Nat.add_right_comm, Nat.add_assoc]
      simp only [beq_iff_eq]
    · obtain ⟨u, hexec, hfailed⟩ := exec_cnt_failed_of_max hnormal hmax
      rw [List.map_cons, runCommands_cons _ hexec] at hrun
      obtain ⟨hstatus, -⟩ := (allOk_iff_of_answered hfailed.answered hrun).1 hok
      cases hstatus

/-- No CNT of a sequence too short to fill any counter overflows. -/
theorem allOk_cnt_of_length (l : List Symbol) (hnormal : s.err = false) (hroom : ∀ a, (freqAt s a).toNat + l.length < 2 ^ 32)
    (hrun : runCommands (l.map .cnt) s = some t) : AllOk s t := by
  induction l generalizing s with
  | nil =>
    obtain rfl := Option.some.inj hrun
    exact ⟨[], by simp, by simp⟩
  | cons sym rest ih =>
    simp only [List.length_cons] at hroom
    have hlt : (freqAt s sym.toNat).toNat < 2 ^ 32 - 1 := by have := hroom sym.toNat; omega
    obtain ⟨u, hu, hfreq, hrest, hiff⟩ := runCommands_cnt_cons hnormal hlt hrun
    refine hiff.2 (ih hu (fun a => ?_) hrest)
    have := hroom a
    rw [hfreq a]
    split <;> omega

/-- Each member of a list of numbers below `n` is counted once in the counts of 0 to `n` − 1. -/
theorem sum_count_range {l : List Nat} {n : Nat} (hlt : ∀ a ∈ l, a < n) : ((List.range n).map l.count).sum = l.length :=
  calc ((List.range n).map l.count).sum
    _ = ∑ a ∈ Finset.range n, l.count a := rfl
    _ = ∑ a ∈ Finset.range n, (l : Multiset Nat).count a := by simp only [Multiset.coe_count]
    _ = l.length := Multiset.sum_count_eq_card fun a ha => Finset.mem_range.2 (hlt a ha)

end Sys2Proof.Machine

open Sys2Proof Sys2Proof.Machine

/-- Settles O20: CLRFREQ leaves the state with an empty FREQ. -/
theorem clrfreqClearsTheTableOnly : Obligations.ClrfreqClearsTheTableOnly := by
  intro s hnormal
  exact ⟨_, exec_clrfreq_of_normal hnormal, answered_withFreq s _ _, fun _ => rfl, keeps_withFreq s _ _⟩

/-- Settles O21: WRFREQ leaves the state with another FREQ, which reads the count where it was written. -/
theorem wrfreqWritesOneEntry : Obligations.WrfreqWritesOneEntry := by
  intro s sym val hnormal hwf
  exact ⟨_, exec_wrfreq_of_normal sym val hnormal, answered_withFreq s _ _, freqAt_writeFreq_same hwf _ val,
    fun _ ha => freqAt_writeFreq_of_ne s.accept val ha, keeps_withFreq s _ _⟩

/-- Settles O22, by whether the count is below the maximum. -/
theorem cntCountsOneOccurrence : Obligations.CntCountsOneOccurrence := by
  intro s sym hnormal
  constructor
  · intro hlt
    exact ⟨_, exec_cnt_of_lt hnormal hlt, answered_withFreq s _ _, freqAt_countOne_same (s := s.accept) hlt,
      fun _ ha => freqAt_countOne_of_ne s.accept ha, keeps_withFreq s _ _⟩
  · exact exec_cnt_failed_of_max hnormal

/-- Settles O23: RDFREQ only answers, in every mode, and the word is the count. -/
theorem rdfreqAnswersTheCount : Obligations.RdfreqAnswersTheCount := by
  intro s sym
  exact ⟨_, _, exec_rdfreq sym s, answered_accept_respond s _, readFreq_toNat s sym, keepsAllButErrors_accept_respond s _,
    keepsErrors_accept_respond s _⟩

/-- Settles O24, by induction on the sequence: from a cleared table the counts are the occurrences, whose sum is the length, and
none reaches 2^32 before the length does. -/
theorem countingLeavesTheOccurrences : Obligations.CountingLeavesTheOccurrences := by
  intro s l hnormal hclear
  obtain ⟨t, hrun, -⟩ := runCommands_total (l.map .cnt) s
  refine ⟨t, hrun, fun hok => ?_, fun hlen => allOk_cnt_of_length l hnormal (fun a => by simpa [hclear a] using hlen) hrun⟩
  have hcount : ∀ a, (freqAt t a).toNat = (l.map BitVec.toNat).count a := fun a => by
    simpa [hclear a] using freqAt_of_allOk_cnt l hnormal hrun hok a
  have hlt : ∀ a ∈ l.map BitVec.toNat, a < Config.nSymMax := by
    intro a ha
    obtain ⟨sym, -, rfl⟩ := List.mem_map.1 ha
    exact sym.isLt
  constructor
  · intro a
    rw [hcount, List.count_map_of_injective l BitVec.toNat fun _ _ => BitVec.eq_of_toNat_eq]
  · rw [freqSum, funext hcount, sum_count_range hlt, List.length_map]

end

section
/-! PROOFS. BUILD (41_tree_builder.md R110 to R122): the state it ends in, and that each merge takes the two least members of the
queue (R113, R114), so that successive sums never decrease (R116). -/

namespace Sys2Proof.Machine

variable {s : State}

/-! ### What BUILD does outside FAULTED mode -/

/-- The state in which a successful BUILD ends: the tree stored, its TREEINFO word answered (R110). -/
def State.built (s : State) : State :=
  s.accept.afterBuild.respond ⟨.ok, treeInfo s.accept.afterBuild.nsym s.accept.afterBuild.root⟩

@[simp] theorem presentSymbols_accept (s : State) : presentSymbols s.accept = presentSymbols s := rfl

theorem exec_build_of_present (hnormal : s.err = false) (hpresent : presentSymbols s ≠ []) :
    exec .build s = .next s.built := by
  have hleaves : ¬ (leaves s.accept).isEmpty = true := by simpa using hpresent
  exact congrArg Host.Outcome.next (afterCommand_of_respond ((refuseIfFaulted_accept _ hnormal).trans (if_neg hleaves)))

theorem exec_build_failed_of_empty (hnormal : s.err = false) (hempty : presentSymbols s = []) :
    ∃ t, exec .build s = .next t ∧ Failed s t .emptyInput 0#16 := by
  have hleaves : (leaves s.accept).isEmpty = true := by simpa using hempty
  exact ⟨_, rfl, failed_of_raise ((refuseIfFaulted_accept _ hnormal).trans (if_pos hleaves))⟩

/-- Accepting and answering the command touch nothing of the tree. -/
theorem keepsTree_built (s : State) : KeepsTree s.accept.afterBuild s.built := ⟨rfl, rfl, rfl, fun _ => rfl⟩

theorem treeInv_built (hpresent : presentSymbols s ≠ []) : TreeInv s.built :=
  (treeInv_afterBuild (s := s.accept) hpresent).of_keeps (keepsTree_built s)

theorem nsym_built (s : State) : s.built.nsym.toNat = (presentSymbols s).length := nsym_afterBuild s.accept

theorem root_built (hpresent : presentSymbols s ≠ []) : s.built.root.toNat = 2 * (presentSymbols s).length - 2 := by
  obtain ⟨-, -, hroot, -⟩ := (treeInv_built hpresent).present rfl
  rwa [nsym_built] at hroot

theorem arenaWf_built (hpresent : presentSymbols s ≠ []) : ArenaWf s.built (presentSymbols s).length :=
  (arenaWf_afterBuild (s := s.accept) hpresent).of_nodes fun _ => rfl

/-- Node k is the leaf of the k-th present symbol (R111). -/
theorem nodeAt_built_leaf {k : Nat} (hk : k < (presentSymbols s).length) :
    nodeAt s.built k = leafNode (presentSymbols s)[k] (freqAt s (presentSymbols s)[k]) :=
  nodeAt_afterBuild_leaf (s := s.accept) hk

/-- The nodes of the new tree are those of the leaves' tree, which is made of FREQ alone. -/
theorem nodeAt_built (hpresent : presentSymbols s ≠ []) {i : Nat} (hi : i < 2 * (presentSymbols s).length - 1) :
    nodeAt s.built i = nodesOf (buildTree (leaves s)).nodes i :=
  nodeAt_afterBuild (s := s.accept) (hi.trans_eq (treeWf_leaves hpresent).length.symm)

/-- The nodes above the new tree stay (R110). -/
theorem nodeAt_built_of_le (hpresent : presentSymbols s ≠ []) {i : Nat} (hi : 2 * (presentSymbols s).length - 1 ≤ i) :
    nodeAt s.built i = nodeAt s i := by
  have hlength := (treeWf_leaves hpresent).length
  exact (nodeAt_storeTree s.accept (leaves s).length (buildTree (leaves s)) i).trans (dif_neg (by omega))

theorem leafNode_sym_toNat {a : Nat} (ha : a < 256) (count : Count) : (leafNode a count).sym.toNat = a := Nat.mod_eq_of_lt ha

theorem leafNode_freq_toNat (a : Nat) (count : Count) : (leafNode a count).freq.toNat = count.toNat := by
  have := count.isLt
  simp only [leafNode, BitVec.toNat_setWidth]
  omega

/-- Leaf k has the k-th present symbol. -/
theorem sym_built {k : Nat} (hk : k < (presentSymbols s).length) :
    (nodeAt s.built k).sym.toNat = (presentSymbols s)[k] := by
  rw [nodeAt_built_leaf hk]
  exact leafNode_sym_toNat (mem_presentSymbols.1 (List.getElem_mem hk)).1 _

/-- Leaf k has the count of the k-th present symbol. -/
theorem freq_built {k : Nat} (hk : k < (presentSymbols s).length) :
    (nodeAt s.built k).freq.toNat = (freqAt s (presentSymbols s)[k]).toNat := by
  rw [nodeAt_built_leaf hk, leafNode_freq_toNat]

/-- A symbol is present exactly when one of the leaves is its leaf (R111). -/
theorem present_iff_leaf (s : State) (a : Symbol) :
    freqAt s a.toNat ≠ 0#32 ↔ ∃ k, k < (presentSymbols s).length ∧ (nodeAt s.built k).sym = a := by
  have hmem : a.toNat ∈ presentSymbols s ↔ freqAt s a.toNat ≠ 0#32 := mem_presentSymbols.trans (and_iff_right a.isLt)
  rw [← hmem, List.mem_iff_getElem]
  constructor
  · rintro ⟨k, hk, hsym⟩
    exact ⟨k, hk, BitVec.eq_of_toNat_eq ((sym_built hk).trans hsym)⟩
  · rintro ⟨k, hk, rfl⟩
    exact ⟨k, hk, (sym_built hk).symm⟩

/-- The answer is the TREEINFO word of the n leaves and of the root 2n − 2 (R110, R115). -/
theorem answered_built (s : State) :
    Answered s s.built ⟨.ok, treeInfo s.accept.afterBuild.nsym s.accept.afterBuild.root⟩ := ⟨rfl, rfl, rfl, rfl⟩

theorem treeInfo_built (hpresent : presentSymbols s ≠ []) :
    (treeInfo s.accept.afterBuild.nsym s.accept.afterBuild.root).toNat =
      (presentSymbols s).length + 2 ^ 16 * (2 * (presentSymbols s).length - 2) := by
  rw [treeInfo_toNat, ← (keepsTree_built s).nsym, ← (keepsTree_built s).root, nsym_built, root_built hpresent]

/-- Equal counts make equal leaves (R122). -/
theorem leaves_congr {s' : State} (hfreq : ∀ a, a < 256 → freqAt s a = freqAt s' a) : leaves s = leaves s' := by
  have hsymbols : presentSymbols s = presentSymbols s' :=
    List.filter_congr fun a ha => by rw [hfreq a (List.mem_range.1 ha)]
  rw [leaves, leaves, hsymbols]
  exact List.map_congr_left fun a ha => by rw [hfreq a (mem_presentSymbols.1 ha).1]

/-! ### One merge takes the two least members -/

/-- The queue `pq` consists of its two least members, `a` before `b`, and `rest` (R113). -/
structure TwoLeast (a b : Key) (rest pq : List Key) : Prop where
  perm  : (a :: b :: rest).Perm pq
  order : a.precedes b = true
  least : ∀ x ∈ rest, b.precedes x = true

/-- What extractMin takes, and what it leaves. -/
theorem extractMin_spec {pq rest : List Key} {a : Key} (hnodup : (pq.map Key.idx).Nodup) (h : extractMin pq = some (a, rest)) :
    (a :: rest).Perm pq ∧ ∀ x ∈ rest, a.precedes x = true := by
  cases pq with
  | nil => cases h
  | cons k l =>
    have heq : extractMinFrom k l = (a, rest) := Option.some.inj h
    have hperm := extractMinFrom_perm k l
    have hleast := extractMinFrom_least k l hnodup
    rw [heq] at hperm hleast
    exact ⟨hperm, hleast⟩

/-- One turn of the loop merges the two least members of the queue. -/
theorem MergeInv.exists_merge {n fuel : Nat} {arena : List Node} {pq : List Key} (h : MergeInv n arena pq)
    (hlen : pq.length = fuel + 1 + 1) :
    ∃ a b rest, TwoLeast a b rest pq ∧ rest.length = fuel ∧
      mergeLoop (fuel + 1) arena pq = mergeLoop fuel (arena ++ [mergeNode a b]) (⟨a.freq + b.freq, arena.length⟩ :: rest) := by
  match pq, hlen with
  | k :: x :: l, hlen =>
    obtain ⟨a, b, rest, hfirst, hsecond, hperm, hloop⟩ := mergeLoop_step fuel arena k x l
    obtain ⟨hperm₁, hleast₁⟩ := extractMin_spec h.idx_nodup hfirst
    have hnodup := (List.nodup_cons.1 ((hperm₁.map Key.idx).nodup_iff.2 h.idx_nodup)).2
    obtain ⟨hperm₂, hleast₂⟩ := extractMin_spec hnodup hsecond
    have horder := hleast₁ b (hperm₂.mem_iff.1 List.mem_cons_self)
    refine ⟨a, b, rest, ⟨hperm, horder, hleast₂⟩, ?_, hloop⟩
    have := hperm.length_eq
    simp only [List.length_cons] at this hlen
    omega

/-! ### The queue, read off the nodes -/

/-- `InQueueAt` of a list's nodes: node `j` is in the queue when node `k` is made. -/
def QueuedAt (f : Nat → Node) (n k j : Nat) : Prop :=
  j < k ∧ ∀ m, n ≤ m → m < k → (f m).left.toNat ≠ j ∧ (f m).right.toNat ≠ j

theorem inQueueAt_iff_queuedAt (s : State) (n k j : Nat) : InQueueAt s n k j ↔ QueuedAt (nodeAt s) n k j := Iff.rfl

theorem QueuedAt.congr {f g : Nat → Node} {n k j : Nat} (hfg : ∀ i, i < k → g i = f i) : QueuedAt g n k j ↔ QueuedAt f n k j :=
  and_congr_right fun _ => forall₃_congr fun m _ hm => by rw [hfg m hm]

/-- `NodePrecedes` of a list's nodes. -/
def FreqPrecedes (f : Nat → Node) (i j : Nat) : Prop :=
  (f i).freq.toNat < (f j).freq.toNat ∨ ((f i).freq.toNat = (f j).freq.toNat ∧ i < j)

theorem nodePrecedes_iff_freqPrecedes (s : State) (i j : Nat) : NodePrecedes s i j ↔ FreqPrecedes (nodeAt s) i j := Iff.rfl

theorem FreqPrecedes.le {f : Nat → Node} {i j : Nat} (h : FreqPrecedes f i j) : (f i).freq.toNat ≤ (f j).freq.toNat :=
  h.elim le_of_lt fun heq => heq.1.le

/-- The children of node `k` are the two least of the queue at its time, the least on the left (R114). -/
structure TakesLeast (f : Nat → Node) (n k : Nat) : Prop where
  left  : QueuedAt f n k (f k).left.toNat
  right : QueuedAt f n k (f k).right.toNat
  order : FreqPrecedes f (f k).left.toNat (f k).right.toNat
  least : ∀ j, QueuedAt f n k j → j ≠ (f k).left.toNat → j ≠ (f k).right.toNat → FreqPrecedes f (f k).right.toNat j

/-- That reads no node above `k`. -/
theorem TakesLeast.congr {f g : Nat → Node} {n k : Nat} (h : TakesLeast f n k) (hfg : ∀ i, i ≤ k → g i = f i) :
    TakesLeast g n k := by
  have hqueue : ∀ j, QueuedAt g n k j ↔ QueuedAt f n k j := fun j => QueuedAt.congr fun i hi => hfg i hi.le
  have hprec : ∀ i j, i < k → j < k → FreqPrecedes f i j → FreqPrecedes g i j := fun i j hi hj hij => by
    rwa [FreqPrecedes, hfg i hi.le, hfg j hj.le]
  refine ⟨?_, ?_, ?_, ?_⟩ <;> simp only [hfg k le_rfl, hqueue]
  · exact h.left
  · exact h.right
  · exact hprec _ _ h.left.1 h.right.1 h.order
  · exact fun j hj hl hr => hprec _ _ h.right.1 hj.1 (h.least j hj hl hr)

theorem mem_childList_drop {n j : Nat} {arena : List Node} : j ∈ childList (arena.drop n) ↔
    ∃ m, n ≤ m ∧ m < arena.length ∧ ((nodesOf arena m).left.toNat = j ∨ (nodesOf arena m).right.toNat = j) := by
  simp only [childList, List.mem_flatMap, List.mem_pair]
  constructor
  · rintro ⟨d, hd, hj⟩
    obtain ⟨i, hi, rfl⟩ := List.mem_iff_getElem.1 hd
    have hlen := List.length_drop (i := n) (l := arena)
    refine ⟨n + i, by omega, by omega, ?_⟩
    rw [nodesOf_eq_getElem (by omega), ← List.getElem_drop (h := hi)]
    exact hj.imp Eq.symm Eq.symm
  · rintro ⟨m, hn, hm, hj⟩
    rw [nodesOf_eq_getElem hm] at hj
    exact ⟨arena[m], List.mem_drop_iff_getElem.2 ⟨m - n, by omega, by congr 1; omega⟩, hj.imp Eq.symm Eq.symm⟩

/-- Between two merges the queue's members are the nodes that are no child yet (R112, R114). -/
theorem MergeInv.queuedAt_iff {n : Nat} {arena : List Node} {pq : List Key} (h : MergeInv n arena pq) (j : Nat) :
    QueuedAt (nodesOf arena) n arena.length j ↔ j ∈ pq.map Key.idx := by
  have hmem := h.once.mem_iff (a := j)
  rw [List.mem_append, List.mem_range] at hmem
  have hdisjoint := (List.nodup_append'.1 (h.once.nodup_iff.2 List.nodup_range)).2.2
  have hchild : (∀ m, n ≤ m → m < arena.length → (nodesOf arena m).left.toNat ≠ j ∧ (nodesOf arena m).right.toNat ≠ j) ↔
      j ∉ childList (arena.drop n) := by
    rw [mem_childList_drop]
    push Not
    rfl
  rw [QueuedAt, hchild]
  exact ⟨fun hq => (hmem.2 hq.1).resolve_left hq.2, fun hq => ⟨hmem.1 (.inr hq), fun hc => hdisjoint hc hq⟩⟩

/-- Members in the queue's order are nodes in that order. -/
theorem MergeInv.freqPrecedes {n : Nat} {arena : List Node} {pq : List Key} (h : MergeInv n arena pq) {a b : Key}
    (ha : a ∈ pq) (hb : b ∈ pq) (hab : a.precedes b = true) : FreqPrecedes (nodesOf arena) a.idx b.idx := by
  rw [FreqPrecedes, h.keys a ha, h.keys b hb]
  exact (Key.precedes_iff a b).1 hab

/-- The node of the two least members takes the two least (R114). -/
theorem MergeInv.takesLeast_merge {n : Nat} {arena : List Node} {pq rest : List Key} {a b : Key} (h : MergeInv n arena pq)
    (hmin : TwoLeast a b rest pq) : TakesLeast (nodesOf (arena ++ [mergeNode a b])) n arena.length := by
  have ha : a ∈ pq := hmin.perm.mem_iff.1 (by simp)
  have hb : b ∈ pq := hmin.perm.mem_iff.1 (by simp)
  have hlt := h.length_lt ha
  have hold : ∀ i, i < arena.length → nodesOf (arena ++ [mergeNode a b]) i = nodesOf arena i :=
    fun i hi => nodesOf_append_of_lt hi _
  have hqueue : ∀ j, QueuedAt (nodesOf (arena ++ [mergeNode a b])) n arena.length j ↔ j ∈ pq.map Key.idx :=
    fun j => (QueuedAt.congr hold).trans (h.queuedAt_iff j)
  have hprec : ∀ x ∈ pq, ∀ y ∈ pq, x.precedes y = true → FreqPrecedes (nodesOf (arena ++ [mergeNode a b])) x.idx y.idx := by
    intro x hx y hy hxy
    rw [FreqPrecedes, hold _ (h.idx_lt hx), hold _ (h.idx_lt hy)]
    exact h.freqPrecedes hx hy hxy
  have hleft : (mergeNode a b).left.toNat = a.idx := Nat.mod_eq_of_lt ((h.idx_lt ha).trans hlt)
  have hright : (mergeNode a b).right.toNat = b.idx := Nat.mod_eq_of_lt ((h.idx_lt hb).trans hlt)
  refine ⟨?_, ?_, ?_, ?_⟩ <;> simp only [nodesOf_append_length, hleft, hright, hqueue]
  · exact List.mem_map_of_mem ha
  · exact List.mem_map_of_mem hb
  · exact hprec a ha b hb hmin.order
  · intro j hj hja hjb
    obtain ⟨x, hx, rfl⟩ := List.mem_map.1 hj
    rcases List.mem_cons.1 (hmin.perm.mem_iff.2 hx) with rfl | hx'
    · exact absurd rfl hja
    · rcases List.mem_cons.1 hx' with rfl | hx'
      · exact absurd rfl hjb
      · exact hprec b hb x hx (hmin.least x hx')

/-- So does every node of the loop. -/
theorem MergeInv.takesLeast_loop {n fuel : Nat} {arena : List Node} {pq : List Key} (h : MergeInv n arena pq)
    (hlen : pq.length = fuel + 1) (htakes : ∀ k, n ≤ k → k < arena.length → TakesLeast (nodesOf arena) n k) :
    ∀ k, n ≤ k → k < (mergeLoop fuel arena pq).1.length → TakesLeast (nodesOf (mergeLoop fuel arena pq).1) n k := by
  induction fuel generalizing arena pq with
  | zero => exact htakes
  | succ fuel ih =>
    obtain ⟨a, b, rest, hmin, hrest, hloop⟩ := h.exists_merge hlen
    rw [hloop]
    refine ih (h.merge hmin.perm) (by simp [hrest]) fun k hn hk => ?_
    rcases Nat.lt_or_ge k arena.length with hold | hnew
    · exact (htakes k hn hold).congr fun i hi => nodesOf_append_of_lt (hi.trans_lt hold) _
    · obtain rfl : k = arena.length := by simp at hk; omega
      exact h.takesLeast_merge hmin

/-- Every internal node of the tree of a list of leaves takes the two least. -/
theorem takesLeast_buildTree {l : List Node} (hne : l ≠ []) (hlen : l.length ≤ 256)
    (htotal : (l.map fun d => d.freq.toNat).sum < 2 ^ 40) {k : Nat} (hn : l.length ≤ k) (hk : k < 2 * l.length - 1) :
    TakesLeast (nodesOf (buildTree l).nodes) l.length k := by
  have hpos := List.length_pos_of_ne_nil hne
  have hkeys : (keysFrom 0 l).length = l.length - 1 + 1 := by rw [keysFrom_length]; omega
  exact (mergeInv_start hne hlen htotal).takesLeast_loop hkeys (fun _ h1 h2 => absurd h2 (not_lt.2 h1)) k hn
    (hk.trans_eq (buildTree_nodes l hne).1.symm)

/-- Each merge of BUILD takes the two least members of the queue (R114). -/
theorem takesLeast_built (hpresent : presentSymbols s ≠ []) {k : Nat} (hn : (presentSymbols s).length ≤ k)
    (hk : k < 2 * (presentSymbols s).length - 1) : TakesLeast (nodeAt s.built) (presentSymbols s).length k := by
  have hlen := leaves_length s
  have htree := takesLeast_buildTree (leaves_ne_nil hpresent) (by have := presentSymbols_length_le s; omega) (leaves_total_lt s)
    (k := k) (by omega) (by omega)
  rw [hlen] at htree
  exact htree.congr fun i hi => nodeAt_built hpresent (hi.trans_lt hk)

/-! ### Successive sums never decrease -/

/-- What is queued when node `k + 1` is made is node `k`, or no less than the greater child of node `k`. -/
theorem TakesLeast.le_of_queuedAt_succ {f : Nat → Node} {n k j : Nat} (h : TakesLeast f n k) (hn : n ≤ k)
    (hj : QueuedAt f n (k + 1) j) : j = k ∨ (f (f k).right.toNat).freq.toNat ≤ (f j).freq.toNat := by
  obtain ⟨hlt, hchild⟩ := hj
  rcases Nat.lt_succ_iff_lt_or_eq.1 hlt with hlt | heq
  · have hqueued : QueuedAt f n k j := ⟨hlt, fun m h1 h2 => hchild m h1 (Nat.lt_succ_of_lt h2)⟩
    obtain ⟨hl, hr⟩ := hchild k hn (Nat.lt_succ_self k)
    exact .inr (h.least j hqueued hl.symm hr.symm).le
  · exact .inl heq

/-- Both children of node `k + 1` are node `k` or no less than the greater child of node `k` (R116). -/
theorem TakesLeast.freq_le_succ {f : Nat → Node} {n k : Nat} (h : TakesLeast f n k) (h' : TakesLeast f n (k + 1)) (hn : n ≤ k)
    (hsum : (f k).freq.toNat = (f (f k).left.toNat).freq.toNat + (f (f k).right.toNat).freq.toNat)
    (hsum' : (f (k + 1)).freq.toNat = (f (f (k + 1)).left.toNat).freq.toNat + (f (f (k + 1)).right.toNat).freq.toNat) :
    (f k).freq.toNat ≤ (f (k + 1)).freq.toNat := by
  have hchildren := h.order.le
  rcases h.le_of_queuedAt_succ hn h'.left with hl | hl
  · rw [hsum', hl]
    exact Nat.le_add_right _ _
  · rcases h.le_of_queuedAt_succ hn h'.right with hr | hr
    · rw [hsum', hr]
      exact Nat.le_add_left _ _
    · omega

end Sys2Proof.Machine

open Sys2Proof Sys2Proof.Machine

/-- Settles O27, by the invariant of the merge loop that every node made takes the two least of the queue at its time. -/
theorem buildMergesTheTwoLeastOfTheQueue : Obligations.BuildMergesTheTwoLeastOfTheQueue := by
  intro s hnormal hpresent
  refine ⟨_, exec_build_of_present hnormal hpresent, ?_⟩
  rw [nsym_built]
  intro k hn hk
  obtain ⟨hleaf, hsym, -, -, -, hfreq⟩ := (arenaWf_built hpresent).inner k hn hk
  obtain ⟨hleft, hright, horder, hleast⟩ := takesLeast_built hpresent hn hk
  simp only [inQueueAt_iff_queuedAt, nodePrecedes_iff_freqPrecedes]
  exact ⟨hleaf, hsym, hleft, hright, horder, hleast, hfreq⟩

/-- Settles O28: the tree stored is well formed, and its leaves are those of the present symbols. -/
theorem builtArenaIsWellFormed : Obligations.BuiltArenaIsWellFormed := by
  rintro s hnormal ⟨a, ha⟩
  have hpresent : presentSymbols s ≠ [] := List.ne_nil_of_mem (mem_presentSymbols.2 ⟨a.isLt, ha⟩)
  obtain ⟨hpos, hle, hroot, harena⟩ := (treeInv_built hpresent).present rfl
  exact ⟨_, exec_build_of_present hnormal hpresent, rfl, hpos, hle, hroot, harena, by
    rw [nsym_built]
    exact present_iff_leaf s⟩

/-- Settles O26: the state in which BUILD ends, field by field. -/
theorem buildMakesTheLeavesAndTheRoot : Obligations.BuildMakesTheLeavesAndTheRoot := by
  intro s hnormal hpresent
  refine ⟨_, _, exec_build_of_present hnormal hpresent, answered_built s, treeInfo_built hpresent, nsym_built s,
    root_built hpresent, fun k hk => ?_, rfl, rfl, rfl, rfl, fun i hi => nodeAt_built_of_le hpresent hi, fun _ => rfl,
    fun _ => rfl, ⟨rfl, rfl, rfl, rfl⟩, rfl, rfl, rfl, rfl, rfl, rfl⟩
  refine ⟨?_, sym_built hk, freq_built hk, ?_, ?_⟩ <;> rw [nodeAt_built_leaf hk] <;> rfl

/-- Settles O31: equal counts make equal leaves, and the tree is made of the leaves. -/
theorem buildIsAFunctionOfTheFrequencies : Obligations.BuildIsAFunctionOfTheFrequencies := by
  intro s s' hnormal hnormal' hfreq hpresent
  have hleaves := leaves_congr hfreq
  have hlen : (presentSymbols s).length = (presentSymbols s').length := by rw [← leaves_length, hleaves, leaves_length]
  have hpresent' : presentSymbols s' ≠ [] := List.ne_nil_of_length_pos (hlen ▸ List.length_pos_of_ne_nil hpresent)
  refine ⟨_, _, exec_build_of_present hnormal hpresent, exec_build_of_present hnormal' hpresent', ?_, ?_, fun i hi => ?_⟩
  · exact BitVec.eq_of_toNat_eq (by rw [nsym_built, nsym_built, hlen])
  · exact BitVec.eq_of_toNat_eq (by rw [root_built hpresent, root_built hpresent', hlen])
  · rw [nnode_of_valid rfl, nsym_built] at hi
    rw [nodeAt_built hpresent hi, nodeAt_built hpresent' (hlen ▸ hi), hleaves]

/-- Settles O30: no symbol is present, so the action raises. -/
theorem buildOnAnEmptyTableFails : Obligations.BuildOnAnEmptyTableFails := by
  intro s hnormal hzero
  refine exec_build_failed_of_empty hnormal (List.eq_nil_iff_forall_not_mem.2 fun a ha => ?_)
  obtain ⟨hlt, hne⟩ := mem_presentSymbols.1 ha
  exact hne (hzero a hlt)

end

section
/-! PROOFS. Frequencies in the tree (41_tree_builder.md R116, R121): the sums over the nodes of a well-formed arena, and the depths
of its nodes, which are the code lengths. -/

namespace Sys2Proof.Machine

variable {s : State} {n : Nat}

/-! ### Sums over the children -/

/-- The children of the internal nodes are the nodes below the root, each once (R117 item 3). -/
theorem ArenaWf.childIndices_perm (h : ArenaWf s n) : (childIndices s n).Perm (List.range (2 * n - 2)) := by
  rw [List.perm_iff_count]
  intro j
  rw [List.count_range]
  split
  · exact h.once j ‹_›
  · rw [List.count_eq_zero]
    intro hmem
    obtain ⟨m, hm, hj⟩ := List.mem_flatMap.1 hmem
    have hm := List.mem_range.1 hm
    obtain ⟨-, -, hleft, hright, -⟩ := h.inner (n + m) (by omega) (by omega)
    rcases List.mem_pair.1 hj with rfl | rfl <;> omega

/-- A sum over both children of every internal node is the sum over the nodes below the root. -/
theorem ArenaWf.sum_children (h : ArenaWf s n) (F : Nat → Nat) :
    ∑ m ∈ Finset.range (n - 1), (F (nodeAt s (n + m)).left.toNat + F (nodeAt s (n + m)).right.toNat) =
      ∑ j ∈ Finset.range (2 * n - 2), F j := by
  have hsum := (h.childIndices_perm.map F).sum_eq
  rw [childIndices, List.map_flatMap, List.flatMap, List.sum_flatten, List.map_map] at hsum
  exact hsum

/-- A sum over all nodes, by leaves and internal nodes, and by the root and the nodes below it. -/
theorem sum_nodes (hn : 1 ≤ n) (F : Nat → Nat) :
    ∑ k ∈ Finset.range n, F k + ∑ m ∈ Finset.range (n - 1), F (n + m) =
      ∑ j ∈ Finset.range (2 * n - 2), F j + F (2 * n - 2) := by
  rw [← Finset.sum_range_add, ← Finset.sum_range_succ]
  congr 2
  omega

/-- The root holds the sum of the leaves' frequencies (R116). -/
theorem ArenaWf.root_freq (h : ArenaWf s n) (hn : 1 ≤ n) :
    (nodeAt s (2 * n - 2)).freq.toNat = ∑ k ∈ Finset.range n, (nodeAt s k).freq.toNat := by
  have hchildren := h.sum_children fun j => (nodeAt s j).freq.toNat
  have hmerges : ∑ m ∈ Finset.range (n - 1), (nodeAt s (n + m)).freq.toNat =
      ∑ j ∈ Finset.range (2 * n - 2), (nodeAt s j).freq.toNat := by
    rw [← hchildren]
    refine Finset.sum_congr rfl fun m hm => ?_
    have hm := Finset.mem_range.1 hm
    obtain ⟨-, -, -, -, -, hfreq⟩ := h.inner (n + m) (by omega) (by omega)
    exact hfreq
  have hnodes := sum_nodes hn fun j => (nodeAt s j).freq.toNat
  omega

/-! ### Depths -/

/-- `d` is the depth of every node: 0 at the root, and one more at each child than at its parent (R121). -/
structure IsDepth (s : State) (n : Nat) (d : Nat → Nat) : Prop where
  root  : d (2 * n - 2) = 0
  child : ∀ k b, n ≤ k → k < 2 * n - 1 → d (childOf (nodeAt s k) b).toNat = d k + 1

/-- The number of steps from `j` up to `top`, given the parent of each node below it. -/
def stepsUp (parent : Nat → Nat) (top j : Nat) : Nat :=
  if j < parent j ∧ parent j ≤ top then stepsUp parent top (parent j) + 1 else 0
termination_by top - j

theorem mem_children_of_childOf (d : Node) (b : Bool) : (childOf d b).toNat ∈ [d.left.toNat, d.right.toNat] := by
  cases b <;> simp [childOf]

/-- Two internal nodes have no child in common (R117 item 3). -/
theorem ArenaWf.childOf_ne_of_lt (h : ArenaWf s n) {k l : Nat} (b c : Bool) (hn : n ≤ k) (hkl : k < l) (hl : l < 2 * n - 1) :
    (childOf (nodeAt s k) b).toNat ≠ (childOf (nodeAt s l) c).toNat := by
  have hdisjoint := (List.nodup_flatMap.1 (h.childIndices_perm.nodup_iff.2 List.nodup_range)).2
  have hkl' := List.pairwise_iff_getElem.1 hdisjoint (k - n) (l - n) (by simp; omega) (by simp; omega) (by omega)
  simp only [Function.onFun, List.getElem_range, Nat.add_sub_cancel' hn, Nat.add_sub_cancel' (hn.trans hkl.le)] at hkl'
  exact fun heq => hkl' (mem_children_of_childOf _ b) (heq ▸ mem_children_of_childOf _ c)

theorem ArenaWf.parent_unique (h : ArenaWf s n) {k l : Nat} {b c : Bool} (hk : n ≤ k ∧ k < 2 * n - 1)
    (hl : n ≤ l ∧ l < 2 * n - 1) (heq : (childOf (nodeAt s k) b).toNat = (childOf (nodeAt s l) c).toNat) : k = l := by
  rcases Nat.lt_trichotomy k l with hlt | rfl | hlt
  · exact absurd heq (h.childOf_ne_of_lt b c hk.1 hlt hl.2)
  · rfl
  · exact absurd heq.symm (h.childOf_ne_of_lt c b hl.1 hlt hk.2)

theorem ArenaWf.exists_depth (h : ArenaWf s n) : ∃ d, IsDepth s n d := by
  choose! parent bit hle hlt hleaf hchild using fun j (hj : j < 2 * n - 2) => h.exists_parent hj
  refine ⟨stepsUp parent (2 * n - 2), by rw [stepsUp, if_neg (by omega)], fun k b hn hk => ?_⟩
  have hbelow := h.child_lt hk (h.inner k hn hk).1 b
  have hlow : (childOf (nodeAt s k) b).toNat < 2 * n - 2 := by omega
  have hparent : parent (childOf (nodeAt s k) b).toNat = k :=
    h.parent_unique ⟨hle _ hlow, hlt _ hlow⟩ ⟨hn, hk⟩ (hchild _ hlow)
  rw [stepsUp, hparent, if_pos (by omega)]

/-- A walk adds its length to the depth. -/
theorem IsDepth.of_walkDown {d : Nat → Nat} (hd : IsDepth s n d) (h : ArenaWf s n) {i k : NodeIdx} {p : List Bool}
    (hi : i.toNat < 2 * n - 1) (hwalk : walkDown s i p = some k) : d k.toNat = d i.toNat + p.length := by
  induction p generalizing i with
  | nil =>
    obtain rfl : i = k := Option.some.inj hwalk
    rfl
  | cons b p ih =>
    cases hleaf : (nodeAt s i.toNat).leaf with
    | true => simp [walkDown, hleaf] at hwalk
    | false =>
      have hn : n ≤ i.toNat := not_lt.1 fun hlt => by simp [(h.leaf_iff hi).2 hlt] at hleaf
      rw [walkDown_cons hleaf] at hwalk
      rw [ih ((h.child_lt hi hleaf b).trans hi) hwalk, hd.child _ b hn hi, List.length_cons]
      omega

/-- The leaves' frequencies, each times its depth, sum to the internal nodes' frequencies: each adds its own once to the depth
of all that is below it (R121). -/
theorem IsDepth.weighted_sum {d : Nat → Nat} (hd : IsDepth s n d) (h : ArenaWf s n) (hn : 1 ≤ n) :
    ∑ k ∈ Finset.range n, (nodeAt s k).freq.toNat * d k = ∑ m ∈ Finset.range (n - 1), (nodeAt s (n + m)).freq.toNat := by
  have hchildren : ∑ m ∈ Finset.range (n - 1), (nodeAt s (n + m)).freq.toNat * (d (n + m) + 1) =
      ∑ j ∈ Finset.range (2 * n - 2), (nodeAt s j).freq.toNat * d j := by
    rw [← h.sum_children fun j => (nodeAt s j).freq.toNat * d j]
    refine Finset.sum_congr rfl fun m hm => ?_
    have hm := Finset.mem_range.1 hm
    obtain ⟨-, -, -, -, -, hfreq⟩ := h.inner (n + m) (by omega) (by omega)
    have hleft : d (nodeAt s (n + m)).left.toNat = d (n + m) + 1 := hd.child _ false (by omega) (by omega)
    have hright : d (nodeAt s (n + m)).right.toNat = d (n + m) + 1 := hd.child _ true (by omega) (by omega)
    rw [hleft, hright, hfreq, Nat.add_mul]
  have hnodes := sum_nodes hn fun j => (nodeAt s j).freq.toNat * d j
  simp only [Nat.mul_add, Nat.mul_one, Finset.sum_add_distrib] at hchildren
  simp only [hd.root, Nat.mul_zero] at hnodes
  omega

/-- With two leaves or more the length of a leaf's code is its depth (R131). -/
theorem IsDepth.code_length {d : Nat → Nat} (hd : IsDepth s n d) (htree : TreeInv s) (hvalid : s.treeValid = true)
    (hcodes : CodesOfTree s) (hnsym : s.nsym.toNat = n) (hmany : 2 ≤ n) {k : Nat} (hk : k < n) :
    (codeAt s (nodeAt s k).sym.toNat).len.toNat = d k := by
  obtain ⟨-, hle, hroot, harena⟩ := htree.present hvalid
  rw [hnsym] at hle hroot harena
  have hpath := hcodes.paths k (hnsym.symm ▸ hk)
  have hne : s.nsym ≠ 1#9 := fun heq => by simp [heq] at hnsym; omega
  rw [IsLeafCode, if_neg hne] at hpath
  have hdepth := hd.of_walkDown harena (by omega) hpath
  have hk9 : (BitVec.ofNat 9 k).toNat = k := Nat.mod_eq_of_lt (by omega)
  rw [hk9, hroot, hd.root, Nat.zero_add, codeString, codeBits_length] at hdepth
  exact hdepth.symm

/-! ### Sums over the present symbols -/

/-- A sum over the present symbols, by their leaves. -/
theorem sum_presentSymbols {g : Nat → Nat} {F : Nat → Nat}
    (h : ∀ k (hk : k < (presentSymbols s).length), g (presentSymbols s)[k] = F k) :
    ((presentSymbols s).map g).sum = ∑ k ∈ Finset.range (presentSymbols s).length, F k := by
  have hmap : (presentSymbols s).map g = (List.range (presentSymbols s).length).map F :=
    List.ext_getElem (by simp) fun k h1 _ => by simpa using h k (by simpa using h1)
  rw [hmap]
  rfl

/-- Absent symbols add nothing to the total. -/
theorem freqSum_eq_sum_presentSymbols (s : State) : freqSum s = ((presentSymbols s).map fun a => (freqAt s a).toNat).sum := by
  have key : ∀ l : List Nat, (l.map fun a => (freqAt s a).toNat).sum =
      ((l.filter fun a => freqAt s a != 0#32).map fun a => (freqAt s a).toNat).sum := by
    intro l
    induction l with
    | nil => rfl
    | cons a l ih => by_cases ha : freqAt s a = 0#32 <;> simp [ha, ih]
  exact key _

/-- The root of the built tree holds the total count (R116). -/
theorem root_freq_built (hpresent : presentSymbols s ≠ []) : (nodeAt s.built s.built.root.toNat).freq.toNat = freqSum s := by
  rw [root_built hpresent, (arenaWf_built hpresent).root_freq (List.length_pos_of_ne_nil hpresent),
    freqSum_eq_sum_presentSymbols, sum_presentSymbols fun k hk => (freq_built hk).symm]

/-! ### BUILD, then ASSIGN -/

theorem exec_assign_of_valid (hnormal : s.err = false) (hvalid : s.treeValid = true) :
    exec .assign s = .next (s.accept.afterAssign.respond ⟨.ok, 0#64⟩) :=
  congrArg Host.Outcome.next (afterCommand_of_respond
    ((refuseIfFaulted_accept _ hnormal).trans (require_of_set (s := s.accept) _ _ hvalid)))

/-- The state in which BUILD and ASSIGN end. -/
def State.builtAndAssigned (s : State) : State := s.built.accept.afterAssign.respond ⟨.ok, 0#64⟩

theorem runCommands_build_assign (hnormal : s.err = false) (hpresent : presentSymbols s ≠ []) :
    runCommands [.build, .assign] s = some s.builtAndAssigned := by
  rw [runCommands_cons _ (exec_build_of_present hnormal hpresent),
    runCommands_cons _ (exec_assign_of_valid (s := s.built) hnormal rfl)]
  rfl

theorem allOk_builtAndAssigned (s : State) : AllOk s s.builtAndAssigned :=
  ⟨[⟨.ok, treeInfo s.accept.afterBuild.nsym s.accept.afterBuild.root⟩, ⟨.ok, 0#64⟩], List.append_assoc _ _ _,
    fun r hr => by rcases List.mem_pair.1 hr with rfl | rfl <;> rfl⟩

/-- ASSIGN keeps the tree. -/
theorem keepsTree_builtAndAssigned (s : State) : KeepsTree s.built s.builtAndAssigned := ⟨rfl, rfl, rfl, fun _ => rfl⟩

/-- The code table is that of the built tree (R130). -/
theorem codesOfTree_builtAndAssigned (hpresent : presentSymbols s ≠ []) : CodesOfTree s.builtAndAssigned :=
  (codesOfTree_afterAssign ((treeInv_built hpresent).of_keeps (t := s.built.accept) ⟨rfl, rfl, rfl, fun _ => rfl⟩) rfl).of_keeps
    ⟨rfl, rfl, rfl, fun _ => rfl⟩ ⟨rfl, fun _ => rfl⟩

/-- The total of count times code length is the sum of the merges (R121, R156). -/
theorem weighted_length_builtAndAssigned (hmany : 2 ≤ (presentSymbols s).length) :
    ((presentSymbols s).map fun a => (freqAt s a).toNat * (codeAt s.builtAndAssigned a).len.toNat).sum =
      ∑ m ∈ Finset.range ((presentSymbols s).length - 1), (nodeAt s.built ((presentSymbols s).length + m)).freq.toNat := by
  have hpresent : presentSymbols s ≠ [] := List.ne_nil_of_length_pos (by omega)
  have hkeeps := keepsTree_builtAndAssigned s
  have harena := (arenaWf_built hpresent).of_nodes hkeeps.nodes
  obtain ⟨d, hd⟩ := harena.exists_depth
  have hlength : ∀ k, k < (presentSymbols s).length →
      (codeAt s.builtAndAssigned (nodeAt s.built k).sym.toNat).len.toNat = d k :=
    fun k hk => hd.code_length ((treeInv_built hpresent).of_keeps hkeeps) rfl (codesOfTree_builtAndAssigned hpresent)
      (nsym_built s) hmany hk
  rw [sum_presentSymbols (F := fun k => (nodeAt s.built k).freq.toNat * d k) fun k hk => by
    rw [freq_built hk, ← hlength k hk, sym_built hk]]
  exact hd.weighted_sum harena (by omega)

end Sys2Proof.Machine

open Sys2Proof Sys2Proof.Machine

/-- Settles O29: the root's sum, from the sums over children and over all nodes; the growth, from the order of the merges. -/
theorem mergeSumsGrowToTheTotal : Obligations.MergeSumsGrowToTheTotal := by
  intro s hnormal hpresent
  refine ⟨_, exec_build_of_present hnormal hpresent, root_freq_built hpresent, ?_⟩
  rw [nsym_built]
  intro k hn hk
  obtain ⟨-, -, -, -, -, hsum⟩ := (arenaWf_built hpresent).inner k hn (by omega)
  obtain ⟨-, -, -, -, -, hsum'⟩ := (arenaWf_built hpresent).inner (k + 1) (by omega) hk
  exact (takesLeast_built hpresent hn (by omega)).freq_le_succ (takesLeast_built hpresent (by omega) hk) hn hsum hsum'

/-- Settles O42: the code lengths are the leaves' depths, and each merged frequency is counted once for every leaf below it. -/
theorem weightedLengthIsTheSumOfTheMerges : Obligations.WeightedLengthIsTheSumOfTheMerges := by
  intro s hnormal hmany
  have hpresent : presentSymbols s ≠ [] := List.ne_nil_of_length_pos (by omega)
  refine ⟨_, runCommands_build_assign hnormal hpresent, allOk_builtAndAssigned s, ?_⟩
  rw [weighted_length_builtAndAssigned hmany, (keepsTree_builtAndAssigned s).nsym, nsym_built]
  rfl

end

section
/-! PROOFS. The optimality of BUILD's tree (41_tree_builder.md R121). Merging the two least weights until one is left costs no more
than any lengths that satisfy Kraft's inequality: exchanging lengths gives the two least weights the two greatest, these can be
made equal, and then the two weights count as one. -/

namespace Sys2Proof.Machine

variable {s : State}

/-! ### Lengths -/

/-- The total of weight times length, of (weight, length) pairs. -/
def totalLength (P : Multiset (Nat × Nat)) : Nat := (P.map fun p => p.1 * p.2).sum

/-- The Kraft sum of (weight, length) pairs. -/
noncomputable def kraftSum (P : Multiset (Nat × Nat)) : ℝ := (P.map fun p => (1 / 2 : ℝ) ^ p.2).sum

@[simp] theorem totalLength_cons (p : Nat × Nat) (P : Multiset (Nat × Nat)) :
    totalLength (p ::ₘ P) = p.1 * p.2 + totalLength P := by
  simp [totalLength]

@[simp] theorem kraftSum_cons (p : Nat × Nat) (P : Multiset (Nat × Nat)) : kraftSum (p ::ₘ P) = (1 / 2) ^ p.2 + kraftSum P := by
  simp [kraftSum]

theorem kraftSum_nonneg (P : Multiset (Nat × Nat)) : 0 ≤ kraftSum P := by
  refine Multiset.sum_nonneg fun x hx => ?_
  obtain ⟨p, -, rfl⟩ := Multiset.mem_map.1 hx
  positivity

/-- A Kraft sum of lengths of at most `l` is a whole number times 2^−l. -/
theorem kraftSum_eq_mul_pow {P : Multiset (Nat × Nat)} {l : Nat} (hle : ∀ p ∈ P, p.2 ≤ l) :
    ∃ N : Nat, kraftSum P = N * (1 / 2) ^ l := by
  induction P using Multiset.induction with
  | empty => exact ⟨0, by simp [kraftSum]⟩
  | cons p P ih =>
    obtain ⟨N, hN⟩ := ih fun q hq => hle q (Multiset.mem_cons_of_mem hq)
    obtain ⟨m, rfl⟩ := Nat.exists_eq_add_of_le (hle p (Multiset.mem_cons_self p P))
    have hpow : (1 / 2 : ℝ) ^ p.2 = 2 ^ m * (1 / 2) ^ (p.2 + m) := by
      rw [pow_add, mul_left_comm, ← mul_pow]
      simp
    refine ⟨2 ^ m + N, ?_⟩
    rw [kraftSum_cons, hN, hpow]
    push_cast
    ring

/-- The longest of the lengths can be cut to the second longest `l`: the others sum to a whole number times 2^−l that is less than
1, so that there is room for one more 2^−l. -/
theorem kraft_of_cut {P : Multiset (Nat × Nat)} {l l' : Nat} (hle : ∀ p ∈ P, p.2 ≤ l)
    (hkraft : (1 / 2 : ℝ) ^ l + (1 / 2) ^ l' + kraftSum P ≤ 1) : 2 * (1 / 2 : ℝ) ^ l + kraftSum P ≤ 1 := by
  obtain ⟨N, hN⟩ := kraftSum_eq_mul_pow hle
  have hl : (2 : ℝ) ^ l * (1 / 2) ^ l = 1 := by rw [← mul_pow]; simp
  have hpos : (0 : ℝ) < (1 / 2) ^ l := by positivity
  have hpos' : (0 : ℝ) < (1 / 2) ^ l' := by positivity
  have hlt : (N + 1 : ℝ) * (1 / 2) ^ l < 2 ^ l * (1 / 2) ^ l := by rw [hl, add_mul, ← hN]; linarith
  have hnat : N + 1 < 2 ^ l := by exact_mod_cast lt_of_mul_lt_mul_right hlt hpos.le
  have hsucc : (N + 2 : ℝ) ≤ 2 ^ l := by exact_mod_cast hnat
  have hmul := mul_le_mul_of_nonneg_right hsucc hpos.le
  rw [hl, add_mul, ← hN] at hmul
  linarith

/-- Exchanging lengths gives a least weight the greatest length, and no other a greater one than before. -/
theorem exists_exchange (a la : Nat) (P : Multiset (Nat × Nat)) (hleast : ∀ p ∈ P, a ≤ p.1) :
    ∃ l Q, Q.map Prod.fst = P.map Prod.fst ∧ (∀ q ∈ Q, q.2 ≤ l) ∧ (∀ B, (∀ p ∈ P, p.2 ≤ B) → ∀ q ∈ Q, q.2 ≤ B) ∧
      kraftSum ((a, l) ::ₘ Q) = kraftSum ((a, la) ::ₘ P) ∧ totalLength ((a, l) ::ₘ Q) ≤ totalLength ((a, la) ::ₘ P) := by
  induction P using Multiset.induction with
  | empty => exact ⟨la, 0, rfl, by simp, by simp, rfl, le_rfl⟩
  | cons p P ih =>
    obtain ⟨l, Q, hfst, hmax, hbound, hkraft, htotal⟩ := ih fun q hq => hleast q (Multiset.mem_cons_of_mem hq)
    have hap := hleast p (Multiset.mem_cons_self p P)
    simp only [kraftSum_cons, totalLength_cons] at hkraft htotal ⊢
    rcases Nat.le_total p.2 l with hpl | hlp
    · refine ⟨l, p ::ₘ Q, by simp [hfst], by simpa [hpl] using hmax, fun B hB => ?_, ?_, ?_⟩
      · simp only [Multiset.forall_mem_cons] at hB ⊢
        exact ⟨hB.1, hbound B hB.2⟩
      · rw [kraftSum_cons]
        linarith
      · rw [totalLength_cons]
        omega
    · refine ⟨p.2, (p.1, l) ::ₘ Q, by simp [hfst], ?_, fun B hB => ?_, ?_, ?_⟩
      · simp only [Multiset.forall_mem_cons]
        exact ⟨hlp, fun q hq => (hmax q hq).trans hlp⟩
      · simp only [Multiset.forall_mem_cons] at hB ⊢
        exact ⟨hlp.trans hB.1, hbound B hB.2⟩
      · rw [kraftSum_cons]
        linarith
      · have hswap : a * p.2 + p.1 * l ≤ a * l + p.1 * p.2 := mul_add_mul_le_mul_add_mul hap hlp
        simp only [totalLength_cons]
        omega

/-- Two weights that are no greater than the others can be given one length, so that Kraft's inequality still holds and the total
is no greater. -/
theorem exists_equal_lengths {a b la lb : Nat} {P : Multiset (Nat × Nat)} (hleast : ∀ p ∈ P, a ≤ p.1 ∧ b ≤ p.1)
    (hkraft : kraftSum ((a, la) ::ₘ (b, lb) ::ₘ P) ≤ 1) :
    ∃ l Q, Q.map Prod.fst = P.map Prod.fst ∧ kraftSum ((a, l) ::ₘ (b, l) ::ₘ Q) ≤ 1 ∧
      totalLength ((a, l) ::ₘ (b, l) ::ₘ Q) ≤ totalLength ((a, la) ::ₘ (b, lb) ::ₘ P) := by
  obtain ⟨lb', Q, hfst, hmax, -, hk, ht⟩ := exists_exchange b lb P fun p hp => (hleast p hp).2
  have hleast' : ∀ q ∈ Q, a ≤ q.1 := by
    intro q hq
    obtain ⟨p, hp, heq⟩ := Multiset.mem_map.1 (hfst ▸ Multiset.mem_map_of_mem Prod.fst hq)
    exact heq ▸ (hleast p hp).1
  obtain ⟨la', R, hfst', hmax', hbound, hk', ht'⟩ := exists_exchange a la Q hleast'
  have hmax'' := hbound lb' hmax
  simp only [kraftSum_cons, totalLength_cons] at hkraft hk hk' ht ht' ⊢
  refine ⟨min la' lb', R, hfst'.trans hfst, ?_, ?_⟩
  · have hcut : 2 * (1 / 2 : ℝ) ^ min la' lb' + kraftSum R ≤ 1 := by
      refine kraft_of_cut (l' := max la' lb') (fun q hq => le_min (hmax' q hq) (hmax'' q hq)) ?_
      rcases le_total la' lb' with h | h
      · rw [min_eq_left h, max_eq_right h]
        linarith
      · rw [min_eq_right h, max_eq_left h]
        linarith
    linarith
  · have h1 := Nat.mul_le_mul_left a (min_le_left la' lb')
    have h2 := Nat.mul_le_mul_left b (min_le_right la' lb')
    omega

/-- A weight of the pairs is that of one of them. -/
theorem exists_cons_of_map_fst {P : Multiset (Nat × Nat)} {w : Nat} {W : Multiset Nat} (h : P.map Prod.fst = w ::ₘ W) :
    ∃ l Q, P = (w, l) ::ₘ Q ∧ Q.map Prod.fst = W := by
  obtain ⟨⟨w, l⟩, hmem, rfl, hrest⟩ := (Multiset.map_eq_cons _ _ _ _).2 h
  exact ⟨l, _, (Multiset.cons_erase hmem).symm, hrest⟩

/-! ### The cost of merging -/

/-- Merging two least weights until one is left adds up to `c`. -/
inductive MergeCost : Multiset Nat → Nat → Prop
  | single (w : Nat) : MergeCost {w} 0
  | merge (a b : Nat) (W : Multiset Nat) (c : Nat) (least : ∀ w ∈ W, a ≤ w ∧ b ≤ w) (more : MergeCost ((a + b) ::ₘ W) c) :
      MergeCost (a ::ₘ b ::ₘ W) (a + b + c)

/-- No lengths that satisfy Kraft's inequality have a smaller total than the merges (R121). -/
theorem MergeCost.le_totalLength {W : Multiset Nat} {c : Nat} (h : MergeCost W c) {P : Multiset (Nat × Nat)}
    (hweights : P.map Prod.fst = W) (hkraft : kraftSum P ≤ 1) : c ≤ totalLength P := by
  induction h generalizing P with
  | single w => exact Nat.zero_le _
  | merge a b W c least more ih =>
    obtain ⟨la, P₁, rfl, hweights₁⟩ := exists_cons_of_map_fst hweights
    obtain ⟨lb, P₂, rfl, hweights₂⟩ := exists_cons_of_map_fst hweights₁
    have hleast : ∀ p ∈ P₂, a ≤ p.1 ∧ b ≤ p.1 := fun p hp => least p.1 (hweights₂ ▸ Multiset.mem_map_of_mem Prod.fst hp)
    obtain ⟨l, Q, hfst, hk, ht⟩ := exists_equal_lengths hleast hkraft
    have hpos : 0 < l := by
      by_contra h0
      obtain rfl : l = 0 := by omega
      have : 0 ≤ kraftSum Q := kraftSum_nonneg Q
      simp only [kraftSum_cons, pow_zero] at hk
      linarith
    obtain ⟨m, rfl⟩ := Nat.exists_eq_add_of_le' hpos
    have hmerged := ih (P := (a + b, m) ::ₘ Q) (by rw [Multiset.map_cons, hfst, hweights₂]) (by
      simp only [kraftSum_cons, pow_succ] at hk ⊢
      linarith)
    refine le_trans ?_ ht
    simp only [totalLength_cons] at hmerged ⊢
    linarith

/-! ### The merge loop -/

/-- The frequencies of a list of nodes. -/
def freqs (l : List Node) : List Nat := l.map fun d => d.freq.toNat

theorem sum_freqs_cons (d : Node) (l : List Node) : (freqs (d :: l)).sum = d.freq.toNat + (freqs l).sum := List.sum_cons

theorem Key.freq_le_of_precedes {a b : Key} (h : a.precedes b = true) : a.freq.toNat ≤ b.freq.toNat :=
  ((Key.precedes_iff a b).1 h).elim le_of_lt fun heq => heq.1.le

/-- The two removed members have least weights. -/
theorem TwoLeast.freq_le {a b : Key} {rest pq : List Key} (h : TwoLeast a b rest pq) :
    ∀ w ∈ ((rest.map fun k => k.freq.toNat : List Nat) : Multiset Nat), a.freq.toNat ≤ w ∧ b.freq.toNat ≤ w := by
  intro w hw
  obtain ⟨x, hx, rfl⟩ := List.mem_map.1 (Multiset.mem_coe.1 hw)
  have hab := Key.freq_le_of_precedes h.order
  have hbx := Key.freq_le_of_precedes (h.least x hx)
  exact ⟨hab.trans hbx, hbx⟩

/-- The loop merges two least weights until one is left, and each sum is the frequency of a node made (R114). -/
theorem MergeInv.mergeCost_loop {n fuel : Nat} {arena : List Node} {pq : List Key} (h : MergeInv n arena pq)
    (hlen : pq.length = fuel + 1) :
    ∃ made, (mergeLoop fuel arena pq).1 = arena ++ made ∧
      MergeCost (pq.map fun k => k.freq.toNat : List Nat) (freqs made).sum := by
  induction fuel generalizing arena pq with
  | zero =>
    obtain ⟨k, rfl⟩ := List.length_eq_one_iff.1 hlen
    exact ⟨[], (List.append_nil _).symm, MergeCost.single k.freq.toNat⟩
  | succ fuel ih =>
    obtain ⟨a, b, rest, hmin, hrest, hloop⟩ := h.exists_merge hlen
    obtain ⟨made, hmade, hcost⟩ := ih (h.merge hmin.perm) (by simp [hrest])
    have hweights := hmin.perm.map fun k => k.freq.toNat
    have htotal := h.total
    simp only [← hweights.sum_eq, List.map_cons, List.sum_cons] at htotal
    have hsum : (mergeNode a b).freq.toNat = a.freq.toNat + b.freq.toNat := BitVec.toNat_add_of_lt (by omega)
    refine ⟨mergeNode a b :: made, by rw [hloop, hmade, List.append_assoc, List.singleton_append], ?_⟩
    rw [← Multiset.coe_eq_coe.2 hweights, sum_freqs_cons, hsum]
    exact MergeCost.merge _ _ _ _ hmin.freq_le (hsum ▸ hcost)

/-- The nodes that BUILD makes are the internal nodes. -/
theorem freqs_of_made (hpresent : presentSymbols s ≠ []) {made : List Node} (hmade : (buildTree (leaves s)).nodes = leaves s ++ made) :
    freqs made = (List.range ((presentSymbols s).length - 1)).map
      fun m => (nodeAt s.built ((presentSymbols s).length + m)).freq.toNat := by
  have hlen := leaves_length s
  have hnodes := (treeWf_leaves hpresent).length
  rw [hmade, List.length_append] at hnodes
  have hcount : made.length = (presentSymbols s).length - 1 := by omega
  refine List.ext_getElem (by simp [freqs, hcount]) fun m h1 _ => ?_
  have hm : m < made.length := by simpa [freqs] using h1
  simp only [freqs, List.getElem_map, List.getElem_range]
  rw [nodeAt_built hpresent (by omega), hmade, nodesOf_eq_getElem (by simp; omega), List.getElem_append_right (by omega)]
  simp

/-- BUILD's internal nodes hold the cost of merging the counts of the present symbols (R114, R121). -/
theorem mergeCost_built (hpresent : presentSymbols s ≠ []) :
    MergeCost ((presentSymbols s).map fun a => (freqAt s a).toNat : List Nat)
      (∑ m ∈ Finset.range ((presentSymbols s).length - 1), (nodeAt s.built ((presentSymbols s).length + m)).freq.toNat) := by
  have hne := leaves_ne_nil hpresent
  have hlen := leaves_length s
  have hle := presentSymbols_length_le s
  have hpos := List.length_pos_of_ne_nil hpresent
  obtain ⟨made, hnodes, hcost⟩ := (mergeInv_start hne (by omega) (leaves_total_lt s)).mergeCost_loop
    (fuel := (leaves s).length - 1) (by rw [keysFrom_length]; omega)
  have hweights : (leaves s).map (fun d => d.freq.toNat) = (presentSymbols s).map fun a => (freqAt s a).toNat := by
    rw [leaves, List.map_map]
    exact List.map_congr_left fun a _ => leafNode_freq_toNat a _
  rw [keysFrom_freq_toNat, hweights, freqs_of_made hpresent hnodes] at hcost
  exact hcost

/-! ### Kraft's inequality -/

/-- Nonempty strings none of which begins another are uniquely decodable: equal concatenations begin with equal strings. -/
theorem uniquelyDecodable_of_prefixFree {S : Set (List Bool)} (hnil : [] ∉ S)
    (hprefix : ∀ v ∈ S, ∀ w ∈ S, v <+: w → v = w) : InformationTheory.UniquelyDecodable S := by
  intro L
  induction L with
  | nil =>
    intro M _ hM heq
    cases M with
    | nil => rfl
    | cons w M =>
      obtain ⟨rfl, -⟩ := List.append_eq_nil_iff.1 heq.symm
      exact absurd (hM [] List.mem_cons_self) hnil
  | cons v L ih =>
    intro M hL hM heq
    obtain ⟨hv, hL'⟩ := List.forall_mem_cons.1 hL
    cases M with
    | nil =>
      obtain ⟨rfl, -⟩ := List.append_eq_nil_iff.1 heq
      exact absurd hv hnil
    | cons w M =>
      obtain ⟨hw, hM'⟩ := List.forall_mem_cons.1 hM
      have hcat : v ++ L.flatten = w ++ M.flatten := heq
      have hvw : v = w := by
        have hwhole : w <+: v ++ L.flatten := hcat ▸ List.prefix_append w M.flatten
        rcases List.prefix_or_prefix_of_prefix (List.prefix_append v L.flatten) hwhole with h | h
        · exact hprefix v hv w hw h
        · exact (hprefix w hw v hv h).symm
      subst hvw
      rw [ih M hL' hM' (List.append_cancel_left hcat)]

/-- Kraft's inequality for codes of two symbols or more, none of which begins another: none of them is empty. -/
theorem kraft_of_prefixFree {l : List Nat} (hnodup : l.Nodup) (hmany : 2 ≤ l.length) {f : Nat → List Bool}
    (hprefix : ∀ a ∈ l, ∀ b ∈ l, a ≠ b → ¬ f a <+: f b) : (l.map fun a => (1 / 2 : ℝ) ^ (f a).length).sum ≤ 1 := by
  have heq : ∀ a ∈ l, ∀ b ∈ l, f a <+: f b → a = b := fun a ha b hb h => by_contra fun hne => hprefix a ha b hb hne h
  have hinj : Set.InjOn f l.toFinset := fun a ha b hb hab =>
    heq a (by simpa using ha) b (by simpa using hb) (hab ▸ List.prefix_rfl)
  have hnil : [] ∉ (l.toFinset.image f : Set (List Bool)) := by
    simp only [Finset.mem_coe, Finset.mem_image, List.mem_toFinset]
    rintro ⟨a, ha, hfa⟩
    have hall : ∀ b ∈ l, b = a := fun b hb => (heq a ha b hb (hfa ▸ List.nil_prefix)).symm
    have hsame : l[0] = l[1] := (hall _ (List.getElem_mem _)).trans (hall _ (List.getElem_mem _)).symm
    exact absurd (hnodup.getElem_inj_iff.1 hsame) (by decide)
  have hdecodable := uniquelyDecodable_of_prefixFree hnil (by
    simp only [Finset.mem_coe, Finset.mem_image, List.mem_toFinset]
    rintro _ ⟨a, ha, rfl⟩ _ ⟨b, hb, rfl⟩ h
    rw [heq a ha b hb h])
  have hkraft := InformationTheory.kraft_mcmillan_inequality hdecodable
  rw [Finset.sum_image hinj, List.sum_toFinset _ hnodup] at hkraft
  simpa using hkraft

end Sys2Proof.Machine

open Sys2Proof Sys2Proof.Machine

/-- Settles O43: the total is the cost of the merges, which bounds from below any lengths that satisfy Kraft's inequality, and
those of the other code do. -/
theorem codesAreOptimal : Obligations.CodesAreOptimal := by
  intro s f hnormal hmany hprefix
  have hpresent : presentSymbols s ≠ [] := List.ne_nil_of_length_pos (by omega)
  refine ⟨_, runCommands_build_assign hnormal hpresent, allOk_builtAndAssigned s, ?_⟩
  rw [weighted_length_builtAndAssigned hmany]
  have hnodup : (presentSymbols s).Nodup := (presentSymbols_sorted s).imp Nat.ne_of_lt
  have hle := (mergeCost_built hpresent).le_totalLength
    (P := ((presentSymbols s).map fun a => ((freqAt s a).toNat, (f a).length) : List (Nat × Nat)))
    (by simp [Function.comp_def]) (by simpa [kraftSum, Function.comp_def] using kraft_of_prefixFree hnodup hmany hprefix)
  simpa [totalLength, Function.comp_def] using hle

end

section
/-! PROOFS. The codes of the tree (42_code_assigner.md R130 to R137, 44_decoder.md R176): the code of a symbol is the one path
from the root to its leaf, and the walk of the decoder follows it. -/

namespace Sys2Proof.Machine

variable {s t : State} {n : Nat}

/-! ### Walks in two parts -/

theorem walkDown_of_leaf {i k : NodeIdx} {p : List Bool} (hleaf : (nodeAt s i.toNat).leaf = true) :
    walkDown s i p = some k ↔ p = [] ∧ i = k := by
  cases p with
  | nil => simp [walkDown]
  | cons b p => simp [walkDown, hleaf]

theorem walkDown_append_eq_some_iff {i k : NodeIdx} {p q : List Bool} :
    walkDown s i (p ++ q) = some k ↔ ∃ j, walkDown s i p = some j ∧ walkDown s j q = some k := by
  induction p generalizing i with
  | nil => simp [walkDown]
  | cons b p ih =>
    cases hleaf : (nodeAt s i.toNat).leaf with
    | true => simp [walkDown, hleaf]
    | false =>
      rw [List.cons_append, walkDown_cons hleaf, walkDown_cons hleaf]
      exact ih

theorem walkDown_singleton_eq_some_iff {i k : NodeIdx} {b : Bool} :
    walkDown s i [b] = some k ↔ (nodeAt s i.toNat).leaf = false ∧ childOf (nodeAt s i.toNat) b = k := by
  cases hleaf : (nodeAt s i.toNat).leaf <;> simp [walkDown, hleaf]

/-- No walk goes on from a leaf: one that begins with bits that lead to a leaf has no bits more. -/
theorem LeadsTo.append_eq_some {i j : NodeIdx} {p q : List Bool} {a : Nat} (h : LeadsTo s i p a)
    (hwalk : walkDown s i (p ++ q) = some j) : q = [] ∧ (nodeAt s j.toNat).leaf = true ∧ (nodeAt s j.toNat).sym.toNat = a := by
  obtain ⟨k, hp, hleaf, hsym⟩ := h
  obtain ⟨k', hp', hq⟩ := walkDown_append_eq_some_iff.1 hwalk
  obtain rfl : k = k' := Option.some.inj (hp.symm.trans hp')
  obtain ⟨rfl, rfl⟩ := (walkDown_of_leaf hleaf).1 hq
  exact ⟨rfl, hleaf, hsym⟩

/-- A walk to a node, and bits that lead from it to a leaf. -/
theorem LeadsTo.of_walkDown {i j : NodeIdx} {p q : List Bool} {a : Nat} (hwalk : walkDown s i p = some j)
    (h : LeadsTo s j q a) : LeadsTo s i (p ++ q) a := by
  obtain ⟨k, hq, hleaf, hsym⟩ := h
  exact ⟨k, walkDown_append_eq_some_iff.2 ⟨j, hwalk, hq⟩, hleaf, hsym⟩

/-- Where bits lead is read in the tree alone. -/
theorem leadsTo_iff_of_keeps (keeps : KeepsTree s t) {i : NodeIdx} {p : List Bool} {a : Nat} :
    LeadsTo t i p a ↔ LeadsTo s i p a := by
  simp only [LeadsTo, walkDown_congr keeps.nodes, keeps.nodes]

/-! ### Every bit sequence meets a leaf or stops above one -/

/-- A walk meets a leaf within its bits, or stops at an internal node. -/
theorem leadsTo_prefix_or_inner (s : State) (bits : List Bool) (i : NodeIdx) :
    (∃ p, ∃ a : Symbol, p <+: bits ∧ LeadsTo s i p a.toNat) ∨
      ∃ j, walkDown s i bits = some j ∧ (nodeAt s j.toNat).leaf = false := by
  induction bits generalizing i with
  | nil =>
    cases hleaf : (nodeAt s i.toNat).leaf with
    | true => exact .inl ⟨[], _, List.nil_prefix, (leadsTo_of_leaf hleaf).2 ⟨rfl, rfl⟩⟩
    | false => exact .inr ⟨i, rfl, hleaf⟩
  | cons b bits ih =>
    cases hleaf : (nodeAt s i.toNat).leaf with
    | true => exact .inl ⟨[], _, List.nil_prefix, (leadsTo_of_leaf hleaf).2 ⟨rfl, rfl⟩⟩
    | false =>
      rcases ih (childOf (nodeAt s i.toNat) b) with ⟨p, a, hp, hleads⟩ | ⟨j, hwalk, hj⟩
      · exact .inl ⟨b :: p, a, List.cons_prefix_cons.2 ⟨rfl, hp⟩, (leadsTo_cons hleaf).2 hleads⟩
      · exact .inr ⟨j, (walkDown_cons hleaf b bits).trans hwalk, hj⟩

/-- There is a leaf below every node of a well-formed arena. -/
theorem ArenaWf.exists_leadsTo_below (h : ArenaWf s n) {j : NodeIdx} (hj : j.toNat < 2 * n - 1) :
    ∃ p, ∃ a : Symbol, LeadsTo s j p a.toNat := by
  induction hm : j.toNat using Nat.strong_induction_on generalizing j with
  | _ m ih =>
    subst hm
    cases hleaf : (nodeAt s j.toNat).leaf with
    | true => exact ⟨[], _, (leadsTo_of_leaf hleaf).2 ⟨rfl, rfl⟩⟩
    | false =>
      have hlt := h.child_lt hj hleaf false
      obtain ⟨p, a, hleads⟩ := ih _ hlt (hlt.trans hj) rfl
      exact ⟨false :: p, a, (leadsTo_cons hleaf).2 hleads⟩

/-! ### One path to each node -/

theorem ArenaWf.le_of_inner (h : ArenaWf s n) {k : Nat} (hk : k < 2 * n - 1) (hleaf : (nodeAt s k).leaf = false) : n ≤ k :=
  not_lt.1 fun hlt => by simp [(h.leaf_iff hk).2 hlt] at hleaf

theorem childOf_eq_iff {d : Node} (h : d.left ≠ d.right) {b c : Bool} : childOf d b = childOf d c ↔ b = c := by
  cases b <;> cases c <;> simp [childOf, h, h.symm]

/-- A node is a child of one node, on one side (R117 items 2 and 3). -/
theorem ArenaWf.childOf_inj (h : ArenaWf s n) {k l : Nat} {b c : Bool} (hk : k < 2 * n - 1) (hl : l < 2 * n - 1)
    (hkleaf : (nodeAt s k).leaf = false) (hlleaf : (nodeAt s l).leaf = false)
    (heq : childOf (nodeAt s k) b = childOf (nodeAt s l) c) : k = l ∧ b = c := by
  have hn := h.le_of_inner hk hkleaf
  obtain rfl := h.parent_unique ⟨hn, hk⟩ ⟨h.le_of_inner hl hlleaf, hl⟩ (congrArg BitVec.toNat heq)
  obtain ⟨-, -, -, -, hne, -⟩ := h.inner k hn hk
  exact ⟨rfl, (childOf_eq_iff hne).1 heq⟩

/-- A walk goes down by one index at least for every bit. -/
theorem ArenaWf.walkDown_add_length_le (h : ArenaWf s n) {i k : NodeIdx} {p : List Bool} (hi : i.toNat < 2 * n - 1)
    (hwalk : walkDown s i p = some k) : k.toNat + p.length ≤ i.toNat := by
  induction p generalizing i with
  | nil =>
    obtain rfl : i = k := Option.some.inj hwalk
    exact le_rfl
  | cons b p ih =>
    cases hleaf : (nodeAt s i.toNat).leaf with
    | true => simp [walkDown, hleaf] at hwalk
    | false =>
      rw [walkDown_cons hleaf] at hwalk
      have hlt := h.child_lt hi hleaf b
      have := ih (hlt.trans hi) hwalk
      rw [List.length_cons]
      omega

/-- The path from a node down to another is unique (R131). -/
theorem ArenaWf.walkDown_inj (h : ArenaWf s n) {i k : NodeIdx} {p q : List Bool} (hi : i.toNat < 2 * n - 1)
    (hp : walkDown s i p = some k) (hq : walkDown s i q = some k) : p = q := by
  induction p using List.reverseRecOn generalizing k q with
  | nil =>
    obtain rfl : i = k := Option.some.inj hp
    have := h.walkDown_add_length_le hi hq
    exact (List.length_eq_zero_iff.1 (by omega)).symm
  | append_singleton p b ih =>
    rcases List.eq_nil_or_concat q with rfl | ⟨q, c, rfl⟩
    · obtain rfl : i = k := Option.some.inj hq
      have := h.walkDown_add_length_le hi hp
      simp at this
    · rw [List.concat_eq_append] at hq
      obtain ⟨j, hj, hjk⟩ := walkDown_append_eq_some_iff.1 hp
      obtain ⟨l, hl, hlk⟩ := walkDown_append_eq_some_iff.1 hq
      obtain ⟨hjleaf, hjk⟩ := walkDown_singleton_eq_some_iff.1 hjk
      obtain ⟨hlleaf, hlk⟩ := walkDown_singleton_eq_some_iff.1 hlk
      obtain ⟨hjl, rfl⟩ := h.childOf_inj (h.walkDown_lt hi hj) (h.walkDown_lt hi hl) hjleaf hlleaf (hjk.trans hlk.symm)
      obtain rfl := BitVec.eq_of_toNat_eq hjl
      rw [ih hj hl, List.concat_eq_append]

/-! ### The code table -/

/-- A symbol with a code is that of a leaf, and its code the leaf's (R131, R132). -/
theorem CodesOfTree.exists_leaf (h : CodesOfTree s) {a : Symbol} (ha : (codeAt s a.toNat).valid = true) :
    ∃ k, k < s.nsym.toNat ∧ (nodeAt s k).sym = a ∧ IsLeafCode s k (codeString s a) := by
  obtain ⟨k, hk, rfl⟩ := (h.domain a).1 ha
  exact ⟨k, hk, rfl, h.paths k hk⟩

/-- An entry with a code is the stored form of its string (R8). -/
theorem CodesOfTree.codeAt_eq_storeCode (h : CodesOfTree s) {a : Symbol} (ha : (codeAt s a.toNat).valid = true) :
    codeAt s a.toNat = storeCode (codeString s a) := by
  have hbits := h.stored a ha
  have hlen : (codeString s a).length = (codeAt s a.toNat).len.toNat := codeBits_length _
  generalize codeAt s a.toNat = e at ha hbits hlen
  obtain ⟨valid, len, bits⟩ := e
  obtain rfl : valid = true := ha
  obtain rfl : bits = _ := hbits
  rw [storeCode, hlen, BitVec.ofNat_toNat, BitVec.setWidth_eq]

/-- The code of a single leaf is "0" (R132). -/
theorem CodesOfTree.codeString_of_single (h : CodesOfTree s) (hone : s.nsym.toNat = 1) {a : Symbol}
    (ha : (codeAt s a.toNat).valid = true) : codeString s a = [false] := by
  obtain ⟨k, -, -, hcode⟩ := h.exists_leaf ha
  rwa [IsLeafCode, if_pos (BitVec.eq_of_toNat_eq hone)] at hcode

/-- A current code table is that of a valid, well-formed tree (R35). -/
theorem Inv.tree_of_codesValid (h : Inv s) (hcodes : s.codesValid = true) :
    1 ≤ s.nsym.toNat ∧ s.nsym.toNat ≤ 256 ∧ s.root.toNat = 2 * s.nsym.toNat - 2 ∧ ArenaWf s s.nsym.toNat :=
  h.tree.present (h.flags.codes hcodes)

section

variable (h : Inv s) (hcodes : s.codesValid = true) (hmany : 2 ≤ s.nsym.toNat)
include h hcodes hmany

/-- The root of two leaves or more is an internal node. -/
theorem Inv.root_inner : (nodeAt s s.root.toNat).leaf = false := by
  obtain ⟨-, -, hroot, harena⟩ := h.tree_of_codesValid hcodes
  exact (harena.inner s.root.toNat (by omega) (by omega)).1

/-- With two leaves or more, bits lead from the root to a leaf exactly when they are the code of its symbol (R131). -/
theorem Inv.leadsTo_root_iff {a : Symbol} {p : List Bool} :
    LeadsTo s s.root p a.toNat ↔ (codeAt s a.toNat).valid = true ∧ codeString s a = p := by
  obtain ⟨-, hle, hroot, harena⟩ := h.tree_of_codesValid hcodes
  have htable := h.codes hcodes
  have hne : s.nsym ≠ 1#9 := fun heq => by simp [heq] at hmany
  have hrootlt : s.root.toNat < 2 * s.nsym.toNat - 1 := by omega
  constructor
  · rintro ⟨k, hwalk, hleaf, hsym⟩
    obtain rfl := BitVec.eq_of_toNat_eq hsym
    have hk := (harena.leaf_iff (harena.walkDown_lt hrootlt hwalk)).1 hleaf
    have hpath := htable.paths _ hk
    rw [IsLeafCode, if_neg hne, BitVec.ofNat_toNat, BitVec.setWidth_eq] at hpath
    exact ⟨(htable.domain _).2 ⟨_, hk, rfl⟩, harena.walkDown_inj hrootlt hpath hwalk⟩
  · rintro ⟨ha, rfl⟩
    obtain ⟨k, hk, rfl, hcode⟩ := htable.exists_leaf ha
    rw [IsLeafCode, if_neg hne] at hcode
    have hk9 : (BitVec.ofNat 9 k).toNat = k := Nat.mod_eq_of_lt (by omega)
    exact ⟨_, hcode, by rw [hk9]; exact (harena.leaf k hk).1, by rw [hk9]⟩

theorem Inv.leadsTo_codeString {a : Symbol} (ha : (codeAt s a.toNat).valid = true) :
    LeadsTo s s.root (codeString s a) a.toNat :=
  (h.leadsTo_root_iff hcodes hmany).2 ⟨ha, rfl⟩

/-- A code of two leaves or more has at least one bit and at most n − 1 (R135, R136). -/
theorem Inv.codeString_length {a : Symbol} (ha : (codeAt s a.toNat).valid = true) :
    1 ≤ (codeString s a).length ∧ (codeString s a).length ≤ s.nsym.toNat - 1 := by
  obtain ⟨-, -, hroot, harena⟩ := h.tree_of_codesValid hcodes
  constructor
  · refine List.length_pos_of_ne_nil fun hnil => leadsTo_nil_of_inner (a := a.toNat) (h.root_inner hcodes hmany) ?_
    exact hnil ▸ h.leadsTo_codeString hcodes hmany ha
  · obtain ⟨k, hk, rfl, -⟩ := (h.codes hcodes).exists_leaf ha
    obtain ⟨p, hleads, hlen⟩ := harena.exists_leadsTo hroot hk
    obtain ⟨-, rfl⟩ := (h.leadsTo_root_iff hcodes hmany).1 hleads
    exact hlen

/-- A bit sequence begins with a code, or ends strictly inside one (R137). -/
theorem Inv.codeString_prefix_or_inside (bits : List Bool) :
    (∃ a : Symbol, (codeAt s a.toNat).valid = true ∧ codeString s a <+: bits) ∨
      ∃ (a : Symbol) (rest : List Bool), (codeAt s a.toNat).valid = true ∧ codeString s a = bits ++ rest ∧ rest ≠ [] := by
  obtain ⟨-, -, hroot, harena⟩ := h.tree_of_codesValid hcodes
  rcases leadsTo_prefix_or_inner s bits s.root with ⟨p, a, hp, hleads⟩ | ⟨j, hwalk, hj⟩
  · obtain ⟨ha, rfl⟩ := (h.leadsTo_root_iff hcodes hmany).1 hleads
    exact .inl ⟨a, ha, hp⟩
  · obtain ⟨rest, a, hrest⟩ := harena.exists_leadsTo_below (harena.walkDown_lt (by omega) hwalk)
    obtain ⟨ha, hcode⟩ := (h.leadsTo_root_iff hcodes hmany).1 (LeadsTo.of_walkDown hwalk hrest)
    refine .inr ⟨a, rest, ha, hcode, ?_⟩
    rintro rfl
    exact leadsTo_nil_of_inner hj hrest

end

/-- A code that another code begins with is the same symbol's (R134). -/
theorem Inv.eq_of_codeString_prefix (h : Inv s) (hcodes : s.codesValid = true) {a b : Symbol}
    (ha : (codeAt s a.toNat).valid = true) (hb : (codeAt s b.toNat).valid = true)
    (hprefix : codeString s a <+: codeString s b) : a = b := by
  rcases Nat.lt_or_ge s.nsym.toNat 2 with hsingle | hmany
  · obtain ⟨k, hk, rfl, -⟩ := (h.codes hcodes).exists_leaf ha
    obtain ⟨l, hl, rfl, -⟩ := (h.codes hcodes).exists_leaf hb
    obtain rfl : k = l := by omega
    rfl
  · obtain ⟨rest, hrest⟩ := hprefix
    obtain ⟨k, hwalk, -, hsym⟩ := h.leadsTo_codeString hcodes hmany hb
    obtain ⟨-, -, hsym'⟩ := (h.leadsTo_codeString hcodes hmany ha).append_eq_some (hrest ▸ hwalk)
    exact BitVec.eq_of_toNat_eq (hsym'.symm.trans hsym)

/-- So a bit sequence begins with at most one code. -/
theorem Inv.eq_of_codeStrings_prefix (h : Inv s) (hcodes : s.codesValid = true) {a b : Symbol} {bits : List Bool}
    (ha : (codeAt s a.toNat).valid = true) (hb : (codeAt s b.toNat).valid = true)
    (habits : codeString s a <+: bits) (hbbits : codeString s b <+: bits) : a = b := by
  rcases List.prefix_or_prefix_of_prefix habits hbbits with hab | hba
  · exact h.eq_of_codeString_prefix hcodes ha hb hab
  · exact (h.eq_of_codeString_prefix hcodes hb ha hba).symm

/-- A tree has one code table (R130, R244). -/
theorem codeAt_eq_of_keepsTree (hs : Inv s) (ht : Inv t) (hscodes : s.codesValid = true) (htcodes : t.codesValid = true)
    (keeps : KeepsTree s t) (a : Symbol) : codeAt t a.toNat = codeAt s a.toNat := by
  have hstable := hs.codes hscodes
  have httable := ht.codes htcodes
  have hvalid : (codeAt t a.toNat).valid = true ↔ (codeAt s a.toNat).valid = true := by
    rw [httable.domain, hstable.domain, keeps.nsym]
    simp only [keeps.nodes]
  cases hsa : (codeAt s a.toNat).valid with
  | false => rw [hstable.absent a hsa, httable.absent a (Bool.eq_false_iff.2 fun hta => by simp [hvalid.1 hta] at hsa)]
  | true =>
    have hta := hvalid.2 hsa
    rw [hstable.codeAt_eq_storeCode hsa, httable.codeAt_eq_storeCode hta]
    congr 1
    obtain ⟨hpos, -⟩ := hs.tree_of_codesValid hscodes
    rcases Nat.lt_or_ge s.nsym.toNat 2 with hsingle | hmany
    · have hone : s.nsym.toNat = 1 := by omega
      rw [hstable.codeString_of_single hone hsa, httable.codeString_of_single (keeps.nsym ▸ hone) hta]
    · have hleads := (leadsTo_iff_of_keeps keeps).2 (hs.leadsTo_codeString hscodes hmany hsa)
      rw [← keeps.root] at hleads
      exact ((ht.leadsTo_root_iff htcodes (keeps.nsym ▸ hmany)).1 hleads).2

/-! ### The decoder's walk -/

/-- Over bits that stop at an internal node the decoder emits nothing (R171). -/
theorem decodesTo_of_walkDown {i j : NodeIdx} {p : List Bool} (hwalk : walkDown s i p = some j)
    (hj : (nodeAt s j.toNat).leaf = false) : DecodesTo s i p [] j := by
  induction p generalizing i with
  | nil =>
    obtain rfl : i = j := Option.some.inj hwalk
    exact .stop i
  | cons b p ih =>
    cases hleaf : (nodeAt s i.toNat).leaf with
    | true => simp [walkDown, hleaf] at hwalk
    | false =>
      rw [walkDown_cons hleaf] at hwalk
      refine .inner i j b p [] ?_ (ih hwalk)
      cases hchild : (nodeAt s (childOf (nodeAt s i.toNat) b).toNat).leaf with
      | false => rfl
      | true =>
        obtain ⟨-, rfl⟩ := (walkDown_of_leaf hchild).1 hwalk
        exact hchild.symm.trans hj

/-- Over bits that lead to a leaf it emits the leaf's symbol and returns to the root (R171). -/
theorem LeadsTo.decodesTo {i : NodeIdx} {p : List Bool} {a : Symbol} (h : LeadsTo s i p a.toNat)
    (hi : (nodeAt s i.toNat).leaf = false) : DecodesTo s i p [a] s.root := by
  induction p generalizing i with
  | nil => exact absurd h (leadsTo_nil_of_inner hi)
  | cons b p ih =>
    have hchild := (leadsTo_cons hi).1 h
    cases hleaf : (nodeAt s (childOf (nodeAt s i.toNat) b).toNat).leaf with
    | true =>
      obtain ⟨rfl, hsym⟩ := (leadsTo_of_leaf hleaf).1 hchild
      obtain rfl := BitVec.eq_of_toNat_eq hsym
      exact .leaf i s.root b [] [] hleaf (.stop s.root)
    | false => exact .inner i s.root b p [a] hleaf (ih hchild hleaf)

end Sys2Proof.Machine

open Sys2Proof Sys2Proof.Machine

/-- Settles O34: ASSIGN's table is the tree's, and besides the prologue's fields only the table and its flag are written. -/
theorem assignLeavesTheCodesOfTheTree : Obligations.AssignLeavesTheCodesOfTheTree := by
  intro s hnormal hvalid htree
  have htree' : TreeInv s.accept := htree.of_keeps ⟨rfl, rfl, rfl, fun _ => rfl⟩
  have hcodes : CodesOfTree (s.accept.afterAssign.respond ⟨.ok, 0#64⟩) :=
    (codesOfTree_afterAssign htree' hvalid).of_keeps ⟨rfl, rfl, rfl, fun _ => rfl⟩ ⟨rfl, fun _ => rfl⟩
  exact ⟨_, exec_assign_of_valid hnormal hvalid, ⟨rfl, rfl, rfl, rfl⟩, rfl, hcodes, fun _ => rfl, ⟨rfl, rfl, rfl, fun _ => rfl⟩,
    ⟨rfl, rfl, rfl, rfl, rfl⟩, ⟨rfl, rfl, rfl⟩, ⟨rfl, rfl, rfl, rfl⟩⟩

/-- Settles O36: no walk goes on from a leaf. -/
theorem codesArePrefixFree : Obligations.CodesArePrefixFree := by
  intro s a b hinv hcodes hne ha hb hprefix
  exact hne (hinv.eq_of_codeString_prefix hcodes ha hb hprefix)

/-- Settles O38: a walk from the root meets a leaf, and the bits begin with its code, or it stops above one, whose code goes on;
that they begin with no other code is O36's lemma, and that n − 1 bits are enough is the bound on the lengths. -/
theorem everyBitSequenceMatchesOneCodeOrEndsInsideOne : Obligations.EveryBitSequenceMatchesOneCodeOrEndsInsideOne := by
  intro s bits hinv hcodes
  constructor
  · intro hmany
    rcases hinv.codeString_prefix_or_inside hcodes hmany bits with ⟨a, ha, hprefix⟩ | ⟨a, rest, ha, hcode, hrest⟩
    · exact ⟨.inl ⟨a, ⟨ha, hprefix⟩, fun b ⟨hb, hbprefix⟩ => hinv.eq_of_codeStrings_prefix hcodes hb ha hbprefix hprefix⟩,
        fun _ => ⟨a, ha, hprefix⟩⟩
    · have hinside : bits <+: codeString s a := ⟨rest, hcode.symm⟩
      have hlen : bits.length < (codeString s a).length := by
        rw [hcode, List.length_append]
        exact Nat.lt_add_of_pos_right (List.length_pos_of_ne_nil hrest)
      refine ⟨.inr ⟨fun b hb hprefix => ?_, a, ha, hinside⟩, fun hlong => ?_⟩
      · obtain rfl := hinv.eq_of_codeString_prefix hcodes hb ha (hprefix.trans hinside)
        exact absurd hprefix.length_le (not_le.2 hlen)
      · obtain ⟨-, hle⟩ := hinv.codeString_length hcodes hmany ha
        omega
  · intro hone a ha hprefix
    rw [(hinv.codes hcodes).codeString_of_single hone ha] at hprefix
    simp at hprefix

/-- Settles O53: the decoder walks the path to the leaf, on which all nodes before the last are internal. -/
theorem walkingACodeEmitsItsSymbol : Obligations.WalkingACodeEmitsItsSymbol := by
  intro s a hinv hcodes hmany ha
  have hleads := hinv.leadsTo_codeString hcodes hmany ha
  refine ⟨hleads.decodesTo (hinv.root_inner hcodes hmany), ?_⟩
  rintro pre ⟨rest, hrest⟩ hne
  obtain ⟨k, hwalk, -⟩ := hleads
  obtain ⟨j, hpre, hjk⟩ := walkDown_append_eq_some_iff.1 (hrest ▸ hwalk)
  refine ⟨j, decodesTo_of_walkDown hpre (Bool.eq_false_iff.2 fun hleaf => hne ?_)⟩
  obtain ⟨rfl, -⟩ := (walkDown_of_leaf hleaf).1 hjk
  rw [← hrest, List.append_nil]

/-- Settles O35: ASSIGN keeps the tree and the invariant, and a tree has one code table. -/
theorem repeatedAssignRewritesTheSameTable : Obligations.RepeatedAssignRewritesTheSameTable := by
  intro s hinv hnormal hcodes
  obtain ⟨t, hexec, -, htcodes, -, -, hkeeps, -⟩ := assignLeavesTheCodesOfTheTree s hnormal (hinv.flags.codes hcodes) hinv.tree
  exact ⟨t, hexec, htcodes, codeAt_eq_of_keepsTree hinv (inv_exec hinv hexec) hcodes htcodes hkeeps⟩

/-- Settles O37: the first leaf's symbol has a code, and a code is "0" or a path of at most n − 1 edges. -/
theorem codeLengthsAreBounded : Obligations.CodeLengthsAreBounded := by
  intro s hinv hcodes
  obtain ⟨hpos, -⟩ := hinv.tree_of_codesValid hcodes
  have htable := hinv.codes hcodes
  refine ⟨⟨_, (htable.domain _).2 ⟨0, hpos, rfl⟩⟩, fun a ha => ?_⟩
  rw [← codeBits_length, ← codeString]
  rcases Nat.lt_or_ge s.nsym.toNat 2 with hsingle | hmany
  · have hone : s.nsym.toNat = 1 := by omega
    rw [htable.codeString_of_single hone ha]
    exact ⟨le_rfl, fun hmany => absurd hmany (not_le.2 hsingle), fun _ => rfl⟩
  · obtain ⟨hlow, hhigh⟩ := hinv.codeString_length hcodes hmany ha
    exact ⟨hlow, fun _ => hhigh, fun hone => by omega⟩

end

section
/-! PROOFS. Encode sessions (43_encoder.md): what ENCSTART, ENC and ENCEND do outside FAULTED mode, and the bits that a session
writes (R155). -/

namespace Sys2Proof.Machine

variable {s t u : State}

/-! ### What a session leaves alone -/

/-- From `s` to `t` nothing but the encoder, CMDCNT and the response log has changed. -/
def KeepsOutsideEncoder (s t : State) : Prop :=
  KeepsFreq s t ∧ KeepsTree s t ∧ KeepsCodes s t ∧ KeepsDecoder s t ∧ KeepsErrors s t

theorem keepsOutsideEncoder_refl (s : State) : KeepsOutsideEncoder s s :=
  ⟨fun _ => rfl, KeepsTree.refl s, KeepsCodes.refl s, KeepsDecoder.refl s, KeepsErrors.refl s⟩

theorem KeepsOutsideEncoder.trans (h : KeepsOutsideEncoder s t) (h' : KeepsOutsideEncoder t u) : KeepsOutsideEncoder s u := by
  obtain ⟨freq, tree, codes, decoder, errors⟩ := h
  obtain ⟨freq', tree', codes', decoder', errors'⟩ := h'
  exact ⟨fun a => (freq' a).trans (freq a),
    ⟨tree'.treeValid.trans tree.treeValid, tree'.nsym.trans tree.nsym, tree'.root.trans tree.root,
      fun i => (tree'.nodes i).trans (tree.nodes i)⟩,
    ⟨codes'.codesValid.trans codes.codesValid, fun a => (codes'.codes a).trans (codes.codes a)⟩,
    ⟨decoder'.decActive.trans decoder.decActive, decoder'.cur.trans decoder.cur, decoder'.outs.trans decoder.outs⟩,
    ⟨errors'.err.trans errors.err, errors'.errcode.trans errors.errcode, errors'.errarg.trans errors.errarg,
      errors'.errcmd.trans errors.errcmd⟩⟩

/-- So symbols have the same codes. -/
theorem KeepsOutsideEncoder.codeAt_eq (h : KeepsOutsideEncoder s t) (a : Nat) : codeAt t a = codeAt s a := by
  obtain ⟨-, -, codes, -, -⟩ := h
  exact codes.codes a

theorem KeepsOutsideEncoder.encodedBits_eq (h : KeepsOutsideEncoder s t) (l : List Symbol) :
    encodedBits t l = encodedBits s l := by
  have hstring : codeString t = codeString s := funext fun a => congrArg codeBits (h.codeAt_eq a.toNat)
  rw [encodedBits, hstring, encodedBits]

theorem KeepsOutsideEncoder.normal (h : KeepsOutsideEncoder s t) (hnormal : s.err = false) : t.err = false := by
  obtain ⟨-, -, -, -, errors⟩ := h
  exact errors.err.trans hnormal

/-! ### ENCSTART and ENCEND -/

/-- The state in which ENCSTART ends. -/
def State.sessionOpened (s : State) : State := s.accept.clearWriter.setEncActive.respond ⟨.ok, 0#64⟩

theorem exec_encstart_of_codesValid (hnormal : s.err = false) (hcodes : s.codesValid = true) :
    exec .encstart s = .next s.sessionOpened :=
  congrArg Host.Outcome.next (afterCommand_of_respond
    ((refuseIfFaulted_accept _ hnormal).trans (require_of_set (s := s.accept) _ _ hcodes)))

theorem answered_sessionOpened (s : State) : Answered s s.sessionOpened ⟨.ok, 0#64⟩ := ⟨rfl, rfl, rfl, rfl⟩

theorem keepsOutsideEncoder_sessionOpened (s : State) : KeepsOutsideEncoder s s.sessionOpened :=
  ⟨fun _ => rfl, ⟨rfl, rfl, rfl, fun _ => rfl⟩, ⟨rfl, fun _ => rfl⟩, ⟨rfl, rfl, rfl⟩, ⟨rfl, rfl, rfl, rfl⟩⟩

/-- An empty writer meets R25, whatever the session before it left. -/
theorem encoderInv_sessionOpened (s : State) : EncoderInv s.sessionOpened := ⟨rfl, fun _ => rfl⟩

/-- The state in which ENCEND ends. -/
def State.sessionClosed (s : State) : State := s.accept.flush.emptyAcc.clearEncActive.respond ⟨.ok, s.encbits⟩

theorem exec_encend_of_active (hnormal : s.err = false) (hactive : s.encActive = true) :
    exec .encend s = .next s.sessionClosed :=
  congrArg Host.Outcome.next (afterCommand_of_respond
    ((refuseIfFaulted_accept _ hnormal).trans (require_of_set (s := s.accept) _ _ hactive)))

theorem answered_sessionClosed (s : State) : Answered s s.sessionClosed ⟨.ok, s.encbits⟩ := by
  refine ⟨?_, ?_, ?_, ?_⟩ <;> simp [State.sessionClosed]

theorem keepsOutsideEncoder_sessionClosed (s : State) : KeepsOutsideEncoder s s.sessionClosed := by
  refine ⟨fun a => ?_, ⟨?_, ?_, ?_, fun i => ?_⟩, ⟨?_, fun a => ?_⟩, ⟨?_, ?_, ?_⟩, ⟨?_, ?_, ?_, ?_⟩⟩ <;>
    simp [State.sessionClosed]

theorem encbits_sessionClosed (s : State) : s.sessionClosed.encbits = s.encbits := by simp [State.sessionClosed]

/-- ENCEND emits what `flush` emits. -/
theorem outb_sessionClosed (s : State) : s.sessionClosed.outb = s.outb ++ if s.nacc = 0#3 then [] else [s.acc] :=
  State.flush_outb s.accept

/-! ### The errors of ENC, in the order of the checks of R153 -/

theorem exec_enc_failed_of_invalid {sym : Symbol} (hnormal : s.err = false) (hactive : s.encActive = true)
    (hinvalid : (codeAt s sym.toNat).valid = false) :
    ∃ t, exec (.enc sym) s = .next t ∧ Failed s t .unknownSymbol (sym.setWidth 16) :=
  ⟨_, rfl, failed_of_raise ((refuseIfFaulted_accept _ hnormal).trans
    ((require_of_set (s := s.accept) _ _ hactive).trans (if_pos hinvalid)))⟩

theorem exec_enc_failed_of_full {sym : Symbol} (hnormal : s.err = false) (hactive : s.encActive = true)
    (hvalid : (codeAt s sym.toNat).valid = true) (hfull : 2 ^ 64 ≤ s.encbits.toNat + (codeAt s sym.toNat).len.toNat) :
    ∃ t, exec (.enc sym) s = .next t ∧ Failed s t .overflow 0x0100#16 := by
  have hknown : ¬ (codeAt s.accept sym.toNat).valid = false := by simp [hvalid]
  have hover : Config.encBitsMax < s.accept.encbits.toNat + (codeAt s.accept sym.toNat).len.toNat :=
    lt_of_lt_of_le (by decide) hfull
  exact ⟨_, rfl, failed_of_raise ((refuseIfFaulted_accept _ hnormal).trans
    ((require_of_set (s := s.accept) _ _ hactive).trans ((if_neg hknown).trans (if_pos hover))))⟩

/-! ### The padding -/

/-- A byte whose low bits are zero is the bits held in it and zeros (R154). -/
theorem byteBits_acc_eq (h : s.acc.toNat % 2 ^ (8 - s.nacc.toNat) = 0) :
    byteBits s.acc = pendingBits s ++ List.replicate (8 - s.nacc.toNat) false := by
  have hlt := s.nacc.isLt
  have hlow : ∀ j, j < 8 - s.nacc.toNat → s.acc.getLsbD j = false := by
    obtain ⟨q, hq⟩ := Nat.dvd_of_mod_eq_zero h
    intro j hj
    rw [BitVec.getLsbD, hq, Nat.testBit_two_pow_mul, decide_eq_false (not_le.2 hj), Bool.false_and]
  have hsplit : List.range 8 = List.range s.nacc.toNat ++ (List.range (8 - s.nacc.toNat)).map (s.nacc.toNat + ·) := by
    rw [← List.range_add, Nat.add_sub_cancel' (by omega)]
  rw [byteBits, hsplit, List.map_append, pendingBits, List.map_map]
  congr 1
  refine List.eq_replicate_iff.2 ⟨by simp, fun b hb => ?_⟩
  obtain ⟨i, hi, rfl⟩ := List.mem_map.1 hb
  have := List.mem_range.1 hi
  exact hlow (7 - (s.nacc.toNat + i)) (by omega)

/-- ENCEND pads the bits held to a byte, if there are any. -/
theorem exists_padding_sessionClosed (h : EncoderInv s) : ∃ bytes k, s.sessionClosed.outb = s.outb ++ bytes ∧ k < 8 ∧
    bytes.flatMap byteBits = pendingBits s ++ List.replicate k false := by
  rw [outb_sessionClosed]
  by_cases hempty : s.nacc = 0#3
  · exact ⟨[], 0, by rw [if_pos hempty], by decide, by simp [pendingBits, hempty]⟩
  · have hpos : 0 < s.nacc.toNat := Nat.pos_of_ne_zero fun hzero => hempty (BitVec.eq_of_toNat_eq hzero)
    exact ⟨[s.acc], 8 - s.nacc.toNat, by rw [if_neg hempty], by omega, by simpa using byteBits_acc_eq h.lowZero⟩

/-- Bytes that hold bits and fewer than eight zeros after them are as few as hold the bits. -/
theorem length_of_padded {bytes : List Byte} {bits : List Bool} {k : Nat} (hk : k < 8)
    (h : bytes.flatMap byteBits = bits ++ List.replicate k false) :
    bytes.length = (bits.length + 7) / 8 ∧ k = 8 * bytes.length - bits.length := by
  have hlen := congrArg List.length h
  rw [flatMap_byteBits_length, List.length_append, List.length_replicate] at hlen
  omega

/-! ### A sequence of ENC -/

theorem allOk_refl (s : State) : AllOk s s := ⟨[], by simp, by simp⟩

theorem AllOk.trans (h : AllOk s t) (h' : AllOk t u) : AllOk s u := by
  obtain ⟨l, hl, hok⟩ := h
  obtain ⟨l', hl', hok'⟩ := h'
  exact ⟨l ++ l', by rw [hl', hl, List.append_assoc], List.forall_mem_append.2 ⟨hok, hok'⟩⟩

theorem Answered.allOk {d : Word} (h : Answered s t ⟨.ok, d⟩) : AllOk s t := ⟨[⟨.ok, d⟩], h.responses, by simp⟩

/-- From `s` to `t`, inside a session, commands succeeded and wrote `bits` after the bits held, and did nothing else. -/
structure WritesBits (s t : State) (bits : List Bool) : Prop where
  allOk   : AllOk s t
  active  : t.encActive = true
  keeps   : KeepsOutsideEncoder s t
  encoder : EncoderInv t
  encbits : t.encbits.toNat = s.encbits.toNat + bits.length
  outb    : ∃ bytes, t.outb = s.outb ++ bytes ∧ bytes.flatMap byteBits ++ pendingBits t = pendingBits s ++ bits

theorem writesBits_nil (hactive : s.encActive = true) (h : EncoderInv s) : WritesBits s s [] :=
  ⟨allOk_refl s, hactive, keepsOutsideEncoder_refl s, h, rfl, [], by simp, by simp⟩

theorem WritesBits.trans {bits bits' : List Bool} (h : WritesBits s t bits) (h' : WritesBits t u bits') :
    WritesBits s u (bits ++ bits') := by
  refine ⟨h.allOk.trans h'.allOk, h'.active, h.keeps.trans h'.keeps, h'.encoder, ?_, ?_⟩
  · rw [h'.encbits, h.encbits, List.length_append, Nat.add_assoc]
  · obtain ⟨bytes, hout, hbits⟩ := h.outb
    obtain ⟨bytes', hout', hbits'⟩ := h'.outb
    refine ⟨bytes ++ bytes', by rw [hout', hout, List.append_assoc], ?_⟩
    rw [List.flatMap_append, List.append_assoc, hbits', ← List.append_assoc, hbits, List.append_assoc]

/-- ENC writes its symbol's code (R153). -/
theorem exec_enc_writesBits {sym : Symbol} (hnormal : s.err = false) (hactive : s.encActive = true)
    (hvalid : (codeAt s sym.toNat).valid = true) (hroom : s.encbits.toNat + (codeString s sym).length < 2 ^ 64)
    (h : EncoderInv s) : ∃ t, exec (.enc sym) s = .next t ∧ WritesBits s t (codeString s sym) := by
  have hlen : (codeString s sym).length = (codeAt s sym.toNat).len.toNat := codeBits_length _
  rw [hlen] at hroom
  obtain ⟨t, bytes, d, hexec, hanswered, -, hout, -, hbits, hencbits, -, hafter, hopen, hkeeps⟩ :=
    encAppendsTheCode s sym hnormal hactive hvalid (by omega) h
  exact ⟨t, hexec, hanswered.allOk, hopen, hkeeps, hafter, by rw [hencbits, hlen], bytes, hout, hbits⟩

/-- A sequence of ENC writes the codes one after the other: each leaves the codes of the symbols after it. -/
theorem runCommands_enc_writesBits (l : List Symbol) (hnormal : s.err = false) (hactive : s.encActive = true)
    (hvalid : ∀ a ∈ l, (codeAt s a.toNat).valid = true) (hroom : s.encbits.toNat + (encodedBits s l).length < 2 ^ 64)
    (h : EncoderInv s) : ∃ t, runCommands (l.map .enc) s = some t ∧ WritesBits s t (encodedBits s l) := by
  induction l generalizing s with
  | nil => exact ⟨s, rfl, writesBits_nil hactive h⟩
  | cons sym rest ih =>
    have hcons : encodedBits s (sym :: rest) = codeString s sym ++ encodedBits s rest := List.flatMap_cons
    obtain ⟨hsym, hrest⟩ := List.forall_mem_cons.1 hvalid
    rw [hcons, List.length_append] at hroom
    obtain ⟨u, hexec, hfirst⟩ := exec_enc_writesBits hnormal hactive hsym (by omega) h
    have hbits := hfirst.keeps.encodedBits_eq rest
    obtain ⟨t, hrun, hmore⟩ := ih (hfirst.keeps.normal hnormal) hfirst.active
      (fun a ha => by rw [hfirst.keeps.codeAt_eq]; exact hrest a ha) (by rw [hfirst.encbits, hbits]; omega) hfirst.encoder
    refine ⟨t, (runCommands_cons _ hexec).trans hrun, ?_⟩
    rw [hcons, ← hbits]
    exact hfirst.trans hmore

/-! ### A whole session -/

/-- From `s` to `t` an encode session ran that wrote `bits`: it appended `bytes` to OUTB, which are the bits and fewer than eight
zeros, and kept everything outside the encoder (R155). -/
structure EncodesBits (s t : State) (bits : List Bool) (bytes : List Byte) : Prop where
  allOk   : AllOk s t
  answer  : t.responses.getLast? = some ⟨.ok, BitVec.ofNat 64 bits.length⟩
  encbits : t.encbits = BitVec.ofNat 64 bits.length
  keeps   : KeepsOutsideEncoder s t
  outb    : t.outb = s.outb ++ bytes
  padded  : ∃ k, k < 8 ∧ bytes.flatMap byteBits = bits ++ List.replicate k false

/-- ENCEND after the bits of a session. -/
theorem WritesBits.encodesBits {bits : List Bool} (h : WritesBits s.sessionOpened t bits) :
    ∃ bytes, EncodesBits s t.sessionClosed bits bytes := by
  obtain ⟨bytes, hout, hbits⟩ := h.outb
  obtain ⟨last, k, hlast, hk, hpad⟩ := exists_padding_sessionClosed h.encoder
  have hencbits : t.encbits = BitVec.ofNat 64 bits.length := by
    have hcount : t.encbits.toNat = bits.length := h.encbits.trans (Nat.zero_add _)
    rw [← hcount, BitVec.ofNat_toNat, BitVec.setWidth_eq]
  refine ⟨bytes ++ last, (answered_sessionOpened s).allOk.trans (h.allOk.trans (answered_sessionClosed t).allOk), ?_,
    (encbits_sessionClosed t).trans hencbits,
    (keepsOutsideEncoder_sessionOpened s).trans (h.keeps.trans (keepsOutsideEncoder_sessionClosed t)), ?_, k, hk, ?_⟩
  · rw [(answered_sessionClosed t).responses, List.getLast?_concat, hencbits]
  · rw [hlast, hout, List.append_assoc]
    rfl
  · calc (bytes ++ last).flatMap byteBits
      _ = bytes.flatMap byteBits ++ pendingBits t ++ List.replicate k false := by
        rw [List.flatMap_append, hpad, List.append_assoc]
      _ = bits ++ List.replicate k false := by rw [hbits]; rfl

/-- An encode session of symbols that have codes, with room in ENCBITS, from any state with a current code table. -/
theorem runCommands_encodeSession {l : List Symbol} (hnormal : s.err = false) (hcodes : s.codesValid = true)
    (hvalid : ∀ a ∈ l, (codeAt s a.toNat).valid = true) (hroom : (encodedBits s l).length < 2 ^ 64) :
    ∃ t bytes, runCommands (encodeSession l) s = some t ∧ EncodesBits s t (encodedBits s l) bytes := by
  have hopen := keepsOutsideEncoder_sessionOpened s
  have hbits := hopen.encodedBits_eq l
  obtain ⟨t, hrun, hwrites⟩ := runCommands_enc_writesBits (s := s.sessionOpened) l hnormal rfl hvalid
    (by rw [hbits]; exact (Nat.zero_add _).trans_lt hroom) (encoderInv_sessionOpened s)
  rw [hbits] at hwrites
  have hend := exec_encend_of_active (hwrites.keeps.normal hnormal) hwrites.active
  obtain ⟨bytes, hsession⟩ := hwrites.encodesBits
  refine ⟨_, bytes, ?_, hsession⟩
  rw [encodeSession, List.cons_append, runCommands_cons _ (exec_encstart_of_codesValid hnormal hcodes), runCommands_append, hrun,
    Option.bind_some, runCommands_cons _ hend]
  rfl

end Sys2Proof.Machine

open Sys2Proof Sys2Proof.Machine

/-- Settles O44: ENCSTART clears the writer and sets ENC_ACTIVE, whatever they were. -/
theorem encstartOpensAnEmptySession : Obligations.EncstartOpensAnEmptySession := by
  intro s hnormal hcodes
  exact ⟨_, exec_encstart_of_codesValid hnormal hcodes, answered_sessionOpened s, rfl, rfl, rfl, rfl, rfl,
    keepsOutsideEncoder_sessionOpened s⟩

/-- Settles O46: the check of the symbol's code comes before that of ENCBITS. -/
theorem encErrorsInTheirOrder : Obligations.EncErrorsInTheirOrder := by
  intro s sym hnormal hactive
  exact ⟨exec_enc_failed_of_invalid hnormal hactive, exec_enc_failed_of_full hnormal hactive⟩

/-- Settles O47, by whether a bit is held. -/
theorem encendFlushesAndAnswersTheCount : Obligations.EncendFlushesAndAnswersTheCount := by
  intro s hnormal hactive
  have hout := outb_sessionClosed s
  refine ⟨_, exec_encend_of_active hnormal hactive, answered_sessionClosed s, rfl, rfl, rfl, encbits_sessionClosed s,
    fun hempty => ?_, fun hheld => ?_, keepsOutsideEncoder_sessionClosed s⟩
  · rw [hout, if_pos hempty, List.append_nil]
  · rw [hout, if_neg hheld]

/-- Settles O48, by induction on the sequence; the number of bytes and of padding bits follows from there being fewer than eight
padding bits. -/
theorem encodeSessionPacksTheConcatenatedCodes : Obligations.EncodeSessionPacksTheConcatenatedCodes := by
  intro s l _ hnormal hcodes hvalid hroom
  obtain ⟨t, bytes, hrun, hsession⟩ := runCommands_encodeSession hnormal hcodes hvalid hroom
  obtain ⟨k, hk, hbits⟩ := hsession.padded
  obtain ⟨hlen, rfl⟩ := length_of_padded hk hbits
  exact ⟨t, bytes, hrun, hsession.allOk, hsession.answer, hsession.outb, hlen, hbits⟩

end

section
/-! PROOFS. The decoder's commands (44_decoder.md R170 to R173): what DECSTART, DEC and DECEND do outside FAULTED mode, and the
bits of a DEC as the walk of R171. -/

namespace Sys2Proof.Machine

variable {s t : State}

/-! ### What a decode session leaves alone -/

/-- From `s` to `t` nothing but the decoder, CMDCNT and the response log has changed. -/
def KeepsOutsideDecoder (s t : State) : Prop :=
  KeepsFreq s t ∧ KeepsTree s t ∧ KeepsCodes s t ∧ KeepsEncoder s t ∧ KeepsErrors s t

theorem KeepsOutsideDecoder.tree (h : KeepsOutsideDecoder s t) : KeepsTree s t := by
  obtain ⟨-, tree, -⟩ := h
  exact tree

/-! ### The bits of a DEC -/

/-- A bit of the walk reads the tree alone (R171). -/
theorem decStep_of_keeps (keeps : KeepsTree s t) (cur : NodeIdx) (b : Bool) : decStep t cur b = decStep s cur b := by
  simp only [decStep, keeps.root, keeps.nodes]

theorem decRun_of_keeps (keeps : KeepsTree s t) (i : Nat) (cur : NodeIdx) (bits : List Bool) :
    decRun t i cur bits = decRun s i cur bits := by
  induction bits generalizing i cur with
  | nil => rfl
  | cons b rest ih => simp only [decRun, decStep_of_keeps keeps, ih]

/-- Accepting the command leaves the tree that the loop reads. -/
@[simp] theorem decRun_accept (s : State) (i : Nat) (cur : NodeIdx) (bits : List Bool) :
    decRun s.accept i cur bits = decRun s i cur bits :=
  decRun_of_keeps (s := s) (t := s.accept) ⟨rfl, rfl, rfl, fun _ => rfl⟩ i cur bits

/-- The bits of a loop that does not fail: the first one moves the walker, and the rest go on from there. -/
theorem decRun_cons_eq_done_iff {i : Nat} {cur c : NodeIdx} {b : Bool} {rest : List Bool} {syms : List Symbol} :
    decRun s i cur (b :: rest) = .done c syms ↔
      ∃ m more, decStep s cur b = some m ∧ decRun s (i + 1) m.cur rest = .done c more ∧ m.emit.toList ++ more = syms := by
  cases hstep : decStep s cur b with
  | none => simp [decRun, hstep]
  | some m =>
    rw [decRun_cons i cur b rest hstep]
    cases hrest : decRun s (i + 1) m.cur rest with
    | failed j => simp [hrest]
    | done d more => simp [hrest, and_assoc]

/-- Bits in two parts, as `decRun_append` has them: a loop over both that does not fail is a loop over each. -/
theorem decRun_append_eq_done {i : Nat} {cur d : NodeIdx} {bits rest : List Bool} {syms : List Symbol}
    (h : decRun s i cur (bits ++ rest) = .done d syms) :
    ∃ c first more, decRun s i cur bits = .done c first ∧ decRun s 0 c rest = .done d more ∧ first ++ more = syms := by
  induction bits generalizing i cur syms with
  | nil => exact ⟨cur, [], syms, rfl, decRun_done_of_done h 0, rfl⟩
  | cons b bits ih =>
    obtain ⟨m, tail, hstep, htail, rfl⟩ := decRun_cons_eq_done_iff.1 h
    obtain ⟨c, first, more, hfirst, hmore, rfl⟩ := ih htail
    exact ⟨c, _, more, decRun_cons_eq_done_iff.2 ⟨m, first, hstep, hfirst, rfl⟩, hmore, List.append_assoc _ _ _⟩

/-- With two leaves or more the loop is the walk of R171. -/
theorem decRun_eq_done_iff_decodesTo (hroot : (nodeAt s s.root.toNat).leaf = false) (i : Nat) {cur c : NodeIdx}
    {bits : List Bool} {syms : List Symbol} : decRun s i cur bits = .done c syms ↔ DecodesTo s cur bits syms c := by
  induction bits generalizing i cur syms with
  | nil =>
    constructor
    · intro h
      cases h
      exact .stop _
    · intro h
      cases h
      rfl
  | cons b rest ih =>
    rw [decRun_cons_eq_done_iff, decStep_inner hroot]
    cases hleaf : (nodeAt s (childOf (nodeAt s cur.toNat) b).toNat).leaf with
    | true =>
      constructor
      · rintro ⟨m, more, hm, hmore, rfl⟩
        cases hm
        exact .leaf cur c b rest more hleaf ((ih (i + 1)).1 hmore)
      · intro h
        cases h with
        | inner _ _ _ _ _ inside _ => exact absurd (hleaf.symm.trans inside) (by decide)
        | leaf _ _ _ _ more _ hmore => exact ⟨_, more, rfl, (ih (i + 1)).2 hmore, rfl⟩
    | false =>
      constructor
      · rintro ⟨m, more, hm, hmore, rfl⟩
        cases hm
        exact .inner cur c b rest more hleaf ((ih (i + 1)).1 hmore)
      · intro h
        cases h with
        | inner _ _ _ _ _ _ hmore => exact ⟨_, syms, rfl, (ih (i + 1)).2 hmore, rfl⟩
        | leaf _ _ _ _ _ atLeaf _ => exact absurd (hleaf.symm.trans atLeaf) (by decide)

/-- With a single leaf, 0 bits emit its symbol each and leave the walker where it is. -/
theorem decRun_single_zeros (hroot : (nodeAt s s.root.toNat).leaf = true) (i : Nat) (cur : NodeIdx) (k : Nat) :
    decRun s i cur (List.replicate k false) = .done cur (List.replicate k (nodeAt s s.root.toNat).sym) := by
  induction k generalizing i with
  | zero => rfl
  | succ k ih => exact decRun_cons_eq_done_iff.2 ⟨_, _, decStep_single hroot cur false, ih (i + 1), rfl⟩

/-- With a single leaf the loop fails at the first 1 bit. -/
theorem decRun_single_failed (hroot : (nodeAt s s.root.toNat).leaf = true) (i : Nat) (cur : NodeIdx) (k : Nat)
    (rest : List Bool) : decRun s i cur (List.replicate k false ++ true :: rest) = .failed (i + k) := by
  induction k generalizing i with
  | zero => simp [decRun, decStep_single hroot]
  | succ k ih =>
    rw [List.replicate_succ, List.cons_append, decRun_cons i cur false _ (decStep_single hroot cur false), ih (i + 1),
      Nat.add_right_comm, Nat.add_assoc]

/-! ### The bits that DEC takes from its byte -/

theorem decBits_eq_zeros {byte : Byte} {nb : BitVec 3} (h : ∀ i, i ≤ nb.toNat → byte.getLsbD (7 - i) = false) :
    decBits byte nb = List.replicate (nb.toNat + 1) false := by
  refine List.eq_replicate_iff.2 ⟨decBits_length byte nb, fun b hb => ?_⟩
  obtain ⟨i, hi, rfl⟩ := List.mem_map.1 hb
  exact h i (Nat.le_of_lt_succ (List.mem_range.1 hi))

/-- The bits of a byte whose first 1 bit stands at position `i`. -/
theorem decBits_eq_zeros_append_one {byte : Byte} {nb : BitVec 3} {i : Nat} (hi : i ≤ nb.toNat)
    (hone : byte.getLsbD (7 - i) = true) (hzeros : ∀ j, j < i → byte.getLsbD (7 - j) = false) :
    ∃ rest, decBits byte nb = List.replicate i false ++ true :: rest := by
  have hlt : i < (decBits byte nb).length := by rw [decBits_length]; omega
  have htake : (decBits byte nb).take i = List.replicate i false := by
    refine List.eq_replicate_iff.2 ⟨List.length_take_of_le hlt.le, fun b hb => ?_⟩
    obtain ⟨j, hj, rfl⟩ := List.mem_take_iff_getElem.1 hb
    simpa [decBits] using hzeros j (by omega)
  have hget : (decBits byte nb)[i] = true := by simpa [decBits] using hone
  exact ⟨(decBits byte nb).drop (i + 1), by rw [← htake, ← hget, ← List.drop_eq_getElem_cons hlt, List.take_append_drop]⟩

/-! ### DECSTART -/

/-- The state in which DECSTART ends. -/
def State.walkerOpened (s : State) : State := (s.accept.setCur s.root).setDecActive.respond ⟨.ok, 0#64⟩

theorem exec_decstart_of_valid (hnormal : s.err = false) (hvalid : s.treeValid = true) :
    exec .decstart s = .next s.walkerOpened :=
  congrArg Host.Outcome.next (afterCommand_of_respond
    ((refuseIfFaulted_accept _ hnormal).trans (require_of_set (s := s.accept) _ _ hvalid)))

theorem answered_walkerOpened (s : State) : Answered s s.walkerOpened ⟨.ok, 0#64⟩ := ⟨rfl, rfl, rfl, rfl⟩

theorem keepsOutsideDecoder_walkerOpened (s : State) : KeepsOutsideDecoder s s.walkerOpened :=
  ⟨fun _ => rfl, ⟨rfl, rfl, rfl, fun _ => rfl⟩, ⟨rfl, fun _ => rfl⟩, ⟨rfl, rfl, rfl, rfl, rfl⟩, ⟨rfl, rfl, rfl, rfl⟩⟩

/-! ### DEC -/

/-- The state in which a DEC ends that takes the walker to `c` and emits `syms`. -/
def State.walked (s : State) (c : NodeIdx) (syms : List Symbol) : State :=
  ((s.accept.setCur c).emitSyms syms).respond ⟨.ok, BitVec.ofNat 64 syms.length⟩

theorem exec_dec_of_done {byte : Byte} {nb : BitVec 3} {c : NodeIdx} {syms : List Symbol} (hnormal : s.err = false)
    (hactive : s.decActive = true) (hrun : decRun s 0 s.cur (decBits byte nb) = .done c syms) :
    exec (.dec byte nb) s = .next (s.walked c syms) := by
  refine congrArg Host.Outcome.next (afterCommand_of_respond ?_)
  rw [refuseIfFaulted_accept _ hnormal, require_of_set (s := s.accept) _ _ hactive]
  simp [hrun]

theorem exec_dec_failed {byte : Byte} {nb : BitVec 3} {i : Nat} (hnormal : s.err = false) (hactive : s.decActive = true)
    (hrun : decRun s 0 s.cur (decBits byte nb) = .failed i) :
    ∃ t, exec (.dec byte nb) s = .next t ∧ Failed s t .invalidCode (BitVec.ofNat 16 i) := by
  refine ⟨_, rfl, failed_of_raise ?_⟩
  rw [refuseIfFaulted_accept _ hnormal, require_of_set (s := s.accept) _ _ hactive]
  simp [hrun]

theorem answered_walked (s : State) (c : NodeIdx) (syms : List Symbol) :
    Answered s (s.walked c syms) ⟨.ok, BitVec.ofNat 64 syms.length⟩ := ⟨rfl, rfl, rfl, rfl⟩

theorem keepsOutsideDecoder_walked (s : State) (c : NodeIdx) (syms : List Symbol) :
    KeepsOutsideDecoder s (s.walked c syms) :=
  ⟨fun _ => rfl, ⟨rfl, rfl, rfl, fun _ => rfl⟩, ⟨rfl, fun _ => rfl⟩, ⟨rfl, rfl, rfl, rfl, rfl⟩, ⟨rfl, rfl, rfl, rfl⟩⟩

/-- A DEC of at most eight symbols answers their number. -/
theorem symbolCount_toNat {nb : BitVec 3} {k : Nat} (hk : k ≤ nb.toNat + 1) : (BitVec.ofNat 64 k).toNat = k := by
  have := nb.isLt
  exact Nat.mod_eq_of_lt (by omega)

/-! ### DECEND -/

/-- The state in which DECEND ends. -/
def State.walkerClosed (s : State) : State := s.accept.clearDecActive.respond ⟨.ok, 0#64⟩

theorem exec_decend_of_root (hnormal : s.err = false) (hactive : s.decActive = true) (hcur : s.cur = s.root) :
    exec .decend s = .next s.walkerClosed :=
  congrArg Host.Outcome.next (afterCommand_of_respond ((refuseIfFaulted_accept _ hnormal).trans
    ((require_of_set (s := s.accept) _ _ hactive).trans (if_pos hcur))))

theorem exec_decend_failed_of_ne_root (hnormal : s.err = false) (hactive : s.decActive = true) (hcur : s.cur ≠ s.root) :
    ∃ t, exec .decend s = .next t ∧ Failed s t .invalidCode (0x8000#16 ||| s.cur.setWidth 16) :=
  ⟨_, rfl, failed_of_raise ((refuseIfFaulted_accept _ hnormal).trans
    ((require_of_set (s := s.accept) _ _ hactive).trans (if_neg hcur)))⟩

theorem answered_walkerClosed (s : State) : Answered s s.walkerClosed ⟨.ok, 0#64⟩ := ⟨rfl, rfl, rfl, rfl⟩

theorem keepsOutsideDecoder_walkerClosed (s : State) : KeepsOutsideDecoder s s.walkerClosed :=
  ⟨fun _ => rfl, ⟨rfl, rfl, rfl, fun _ => rfl⟩, ⟨rfl, fun _ => rfl⟩, ⟨rfl, rfl, rfl, rfl, rfl⟩, ⟨rfl, rfl, rfl, rfl⟩⟩

/-- Bit 15 stands above the node index. -/
theorem offRootArg_toNat (c : NodeIdx) : (0x8000#16 ||| c.setWidth 16).toNat = 0x8000 + c.toNat := by
  have hc : (c.setWidth 16).toNat = c.toNat := BitVec.toNat_setWidth_of_le (by decide)
  have hlt : c.toNat < 2 ^ 15 := c.isLt.trans (by decide)
  rw [BitVec.toNat_or, hc]
  exact (Nat.two_pow_add_eq_or_of_lt hlt 1).symm

end Sys2Proof.Machine

open Sys2Proof Sys2Proof.Machine

/-- Settles O49: DECSTART writes CUR and DEC_ACTIVE, whatever they were. -/
theorem decstartPutsTheWalkerOnTheRoot : Obligations.DecstartPutsTheWalkerOnTheRoot := by
  intro s hnormal hvalid
  exact ⟨_, exec_decstart_of_valid hnormal hvalid, answered_walkerOpened s, rfl, rfl, rfl, keepsOutsideDecoder_walkerOpened s⟩

/-- Settles O50: with an internal root the loop of DEC does not fail, and it is the walk of R171. -/
theorem decWalksTheTree : Obligations.DecWalksTheTree := by
  intro s byte nb hnormal hactive hroot
  obtain ⟨c, syms, hrun, hlen⟩ := decRun_inner hroot 0 s.cur (decBits byte nb)
  rw [decBits_length] at hlen
  exact ⟨_, syms, _, exec_dec_of_done hnormal hactive hrun, answered_walked s c syms, symbolCount_toNat hlen, hlen,
    (decRun_eq_done_iff_decodesTo hroot 0).1 hrun, rfl, hactive, keepsOutsideDecoder_walked s c syms⟩

/-- Settles O51, by whether the bits hold a 1: zeros are walked whole, and the first 1 fails the loop at its position. -/
theorem decOfASingleLeaf : Obligations.DecOfASingleLeaf := by
  intro s byte nb hnormal hactive hroot
  constructor
  · intro hzeros
    have hrun := decRun_single_zeros hroot 0 s.cur (nb.toNat + 1)
    rw [← decBits_eq_zeros hzeros] at hrun
    refine ⟨_, _, exec_dec_of_done hnormal hactive hrun, answered_walked s _ _, ?_, rfl, rfl, hactive,
      keepsOutsideDecoder_walked s _ _⟩
    rw [List.length_replicate, symbolCount_toNat le_rfl]
  · intro i hi hone hzeros
    obtain ⟨rest, hbits⟩ := decBits_eq_zeros_append_one hi hone hzeros
    have hrun := decRun_single_failed hroot 0 s.cur i rest
    rw [← hbits, Nat.zero_add] at hrun
    exact exec_dec_failed hnormal hactive hrun

/-- Settles O52, by whether the walker is on the root. -/
theorem decendNeedsTheWalkerOnTheRoot : Obligations.DecendNeedsTheWalkerOnTheRoot := by
  intro s hnormal hactive
  constructor
  · intro hcur
    exact ⟨_, exec_decend_of_root hnormal hactive hcur, answered_walkerClosed s, rfl, rfl, rfl,
      keepsOutsideDecoder_walkerClosed s⟩
  · intro hcur
    obtain ⟨t, hexec, hfailed⟩ := exec_decend_failed_of_ne_root hnormal hactive hcur
    exact ⟨t, _, hexec, offRootArg_toNat s.cur, hfailed⟩

end

section
/-! PROOFS. The round trip (44_decoder.md R175): the decoder's walk over the encoded bits emits the symbols, however the bits are
split into DEC commands. -/

namespace Sys2Proof.Machine

variable {s t : State}

/-! ### The walk over encoded bits -/

/-- The bits of a symbol's code take the walker from the root back to the root, and emit the symbol (R171, R176). -/
theorem Inv.decRun_codeString (h : Inv s) (hcodes : s.codesValid = true) {a : Symbol} (ha : (codeAt s a.toNat).valid = true) :
    decRun s 0 s.root (codeString s a) = .done s.root [a] := by
  obtain ⟨hpos, -, hroot, harena⟩ := h.tree_of_codesValid hcodes
  rcases Nat.lt_or_ge s.nsym.toNat 2 with hsingle | hmany
  · have hone : s.nsym.toNat = 1 := by omega
    obtain ⟨k, hk, rfl, -⟩ := (h.codes hcodes).exists_leaf ha
    obtain rfl : k = s.root.toNat := by omega
    rw [(h.codes hcodes).codeString_of_single hone ha]
    exact decRun_single_zeros (harena.leaf _ hk).1 0 s.root 1
  · obtain ⟨hwalk, -⟩ := walkingACodeEmitsItsSymbol s a h hcodes hmany ha
    exact (decRun_eq_done_iff_decodesTo (h.root_inner hcodes hmany) 0).2 hwalk

/-- So do the codes of a sequence, one after the other. -/
theorem Inv.decRun_encodedBits (h : Inv s) (hcodes : s.codesValid = true) {l : List Symbol}
    (hvalid : ∀ a ∈ l, (codeAt s a.toNat).valid = true) : decRun s 0 s.root (encodedBits s l) = .done s.root l := by
  induction l with
  | nil => rfl
  | cons a rest ih =>
    obtain ⟨ha, hrest⟩ := List.forall_mem_cons.1 hvalid
    exact decRun_append (h.decRun_codeString hcodes ha) (ih hrest)

/-! ### A sequence of DEC -/

/-- From `s` to `t`, inside a session, commands succeeded, took the walker to `c`, and emitted `syms`. -/
structure WalksTo (s t : State) (c : NodeIdx) (syms : List Symbol) : Prop where
  allOk  : AllOk s t
  normal : t.err = false
  active : t.decActive = true
  cur    : t.cur = c
  root   : t.root = s.root
  outs   : t.outs = s.outs ++ syms

/-- The DEC commands of bytes and bit counts. -/
def decInstrs (decs : List (Byte × BitVec 3)) : List Instr := decs.map fun d => .dec d.1 d.2

/-- The bits that they present. -/
def presentedBits (decs : List (Byte × BitVec 3)) : List Bool := decs.flatMap fun d => decBits d.1 d.2

/-- A sequence of DEC walks the bits it presents, wherever they are split. -/
theorem runCommands_dec_walksTo (decs : List (Byte × BitVec 3)) {c : NodeIdx} {syms : List Symbol} (hnormal : s.err = false)
    (hactive : s.decActive = true) (hrun : decRun s 0 s.cur (presentedBits decs) = .done c syms) :
    ∃ t, runCommands (decInstrs decs) s = some t ∧ WalksTo s t c syms := by
  induction decs generalizing s syms with
  | nil =>
    cases hrun
    exact ⟨s, rfl, allOk_refl s, hnormal, hactive, rfl, rfl, (List.append_nil _).symm⟩
  | cons d rest ih =>
    obtain ⟨e, first, more, hfirst, hmore, rfl⟩ := decRun_append_eq_done hrun
    obtain ⟨t, hcommands, hwalks⟩ := ih (s := s.walked e first) hnormal hactive
      ((decRun_of_keeps (keepsOutsideDecoder_walked s e first).tree 0 e _).trans hmore)
    refine ⟨t, (runCommands_cons _ (exec_dec_of_done hnormal hactive hfirst)).trans hcommands,
      (answered_walked s e first).allOk.trans hwalks.allOk, hwalks.normal, hwalks.active, hwalks.cur, hwalks.root, ?_⟩
    rw [hwalks.outs, ← List.append_assoc]
    rfl

/-! ### A whole session -/

/-- A decode session whose bits take the walker from the root back to the root emits what the walk emits. -/
theorem runCommands_decode_of_decRun {decs : List (Byte × BitVec 3)} {syms : List Symbol} (hnormal : s.err = false)
    (hvalid : s.treeValid = true) (hrun : decRun s 0 s.root (presentedBits decs) = .done s.root syms) :
    ∃ u, runCommands (.decstart :: decInstrs decs ++ [.decend]) s = some u ∧ AllOk s u ∧ u.outs = s.outs ++ syms := by
  obtain ⟨t, hcommands, hwalks⟩ := runCommands_dec_walksTo (s := s.walkerOpened) decs hnormal rfl
    ((decRun_of_keeps (keepsOutsideDecoder_walkerOpened s).tree 0 s.root _).trans hrun)
  have hend := exec_decend_of_root hwalks.normal hwalks.active (hwalks.cur.trans hwalks.root.symm)
  refine ⟨t.walkerClosed, ?_,
    (answered_walkerOpened s).allOk.trans (hwalks.allOk.trans (answered_walkerClosed t).allOk), hwalks.outs⟩
  rw [List.cons_append, runCommands_cons _ (exec_decstart_of_valid hnormal hvalid), runCommands_append, hcommands,
    Option.bind_some, runCommands_cons _ hend]
  rfl

/-- The first bits of a byte are those that DEC takes from it (R67, R172). -/
theorem decBits_eq_take_byteBits (byte : Byte) (nb : BitVec 3) : decBits byte nb = (byteBits byte).take (nb.toNat + 1) := by
  have := nb.isLt
  rw [decBits, byteBits, ← List.map_take, List.take_range, Nat.min_eq_left (by omega)]

/-- The payload's own split presents the first `total` bits of its bytes (R175). -/
theorem exists_decs_of_payload (bytes : List Byte) (total : Nat) :
    ∃ decs, payloadDecs bytes total = decInstrs decs ∧ presentedBits decs = (bytes.flatMap byteBits).take total := by
  induction bytes generalizing total with
  | nil => exact ⟨[], rfl, by simp [presentedBits]⟩
  | cons y rest ih =>
    rw [payloadDecs, List.flatMap_cons]
    split
    · rename_i hfull
      obtain ⟨decs, hdecs, hbits⟩ := ih (total - 8)
      refine ⟨(y, 7#3) :: decs, by rw [hdecs]; rfl, ?_⟩
      have hbyte : decBits y 7#3 = byteBits y := rfl
      rw [List.take_append, List.take_of_length_le (by simpa using hfull), byteBits_length, ← hbits, ← hbyte]
      rfl
    · split
      · rename_i hzero
        exact ⟨[], rfl, by simp [presentedBits, hzero]⟩
      · refine ⟨[(y, BitVec.ofNat 3 (total - 1))], rfl, ?_⟩
        have hcount : (BitVec.ofNat 3 (total - 1)).toNat + 1 = total := by
          rw [BitVec.toNat_ofNat]
          omega
        rw [List.take_append_of_le_length (by rw [byteBits_length]; omega), presentedBits, List.flatMap_singleton,
          decBits_eq_take_byteBits, hcount]

/-! ### Encoding, then decoding -/

/-- The bits of an encode session, presented in any split, decode to its symbols (R175). -/
theorem EncodesBits.decodes {l : List Symbol} {bytes : List Byte} (hsession : EncodesBits s t (encodedBits s l) bytes)
    (h : Inv s) (hnormal : s.err = false) (hcodes : s.codesValid = true)
    (hvalid : ∀ a ∈ l, (codeAt s a.toNat).valid = true) (hroom : (encodedBits s l).length < 2 ^ 64)
    {decs : List (Byte × BitVec 3)} (hbits : presentedBits decs = (bytes.flatMap byteBits).take t.encbits.toNat) :
    ∃ u, runCommands (.decstart :: decInstrs decs ++ [.decend]) t = some u ∧ AllOk s u ∧ u.outs = s.outs ++ l := by
  obtain ⟨k, -, hpadded⟩ := hsession.padded
  obtain ⟨-, tree, -, decoder, -⟩ := hsession.keeps
  have htotal : t.encbits.toNat = (encodedBits s l).length := by rw [hsession.encbits]; exact Nat.mod_eq_of_lt hroom
  have hwalk : decRun t 0 t.root (presentedBits decs) = .done t.root l := by
    rw [hbits, hpadded, htotal, List.take_left, tree.root, decRun_of_keeps tree]
    exact h.decRun_encodedBits hcodes hvalid
  obtain ⟨u, hrun, hok, houts⟩ := runCommands_decode_of_decRun (hsession.keeps.normal hnormal)
    (tree.treeValid.trans (h.flags.codes hcodes)) hwalk
  exact ⟨u, hrun, hsession.allOk.trans hok, by rw [houts, decoder.outs]⟩

/-! ### The whole pipeline -/

theorem inv_runCommands {l : List Instr} (h : Inv s) (hrun : runCommands l s = some t) : Inv t := by
  induction l generalizing s with
  | nil =>
    obtain rfl := Option.some.inj hrun
    exact h
  | cons i rest ih =>
    obtain ⟨u, -, hexec, -⟩ := exec_responses i s
    exact ih (inv_exec h hexec) ((runCommands_cons rest hexec).symm.trans hrun)

/-- The two output streams are as before. -/
def KeepsStreams (s t : State) : Prop := t.outb = s.outb ∧ t.outs = s.outs

/-- A sequence of CNT too short to fill any counter stays outside FAULTED mode and emits nothing. -/
theorem runCommands_cnt_of_room (l : List Symbol) (hnormal : s.err = false)
    (hroom : ∀ a, (freqAt s a).toNat + l.length < 2 ^ 32) :
    ∃ t, runCommands (l.map .cnt) s = some t ∧ t.err = false ∧ KeepsStreams s t := by
  induction l generalizing s with
  | nil => exact ⟨s, rfl, hnormal, rfl, rfl⟩
  | cons sym rest ih =>
    simp only [List.length_cons] at hroom
    have hlt : (freqAt s sym.toNat).toNat < 2 ^ 32 - 1 := by have := hroom sym.toNat; omega
    have hfreq := freqAt_countOne (s := s.accept) hlt
    obtain ⟨t, hrun, hafter, houtb, houts⟩ := ih (s := (s.accept.countOne sym).respond ⟨.ok, 0#64⟩) hnormal fun a => by
      have := hroom a
      rw [freqAt_respond, hfreq, freqAt_accept]
      split <;> omega
    exact ⟨t, (runCommands_cons _ (exec_cnt_of_lt hnormal hlt)).trans hrun, hafter, houtb, houts⟩

/-- A symbol that was counted is present. -/
theorem freqAt_ne_zero_of_allOk_cnt {l : List Symbol} (hnormal : s.err = false) (hrun : runCommands (l.map .cnt) s = some t)
    (hok : AllOk s t) {a : Symbol} (ha : a ∈ l) : freqAt t a.toNat ≠ 0#32 := by
  intro hzero
  have hfreq := freqAt_of_allOk_cnt l hnormal hrun hok a.toNat
  have hpos : 0 < (l.map BitVec.toNat).count a.toNat := List.count_pos_iff.2 (List.mem_map_of_mem ha)
  rw [hzero, BitVec.toNat_ofNat] at hfreq
  omega

/-- The state in which RESET ends. -/
def State.resetDone (s : State) : State := s.accept.doReset.respond ⟨.ok, 0#64⟩

/-- From `s` to `t` commands succeeded that emitted nothing and left a current code table, with a code for every member of
`l`. -/
structure Prepares (s t : State) (l : List Symbol) : Prop where
  allOk   : AllOk s t
  inv     : Inv t
  normal  : t.err = false
  codes   : t.codesValid = true
  known   : ∀ a ∈ l, (codeAt t a.toNat).valid = true
  streams : KeepsStreams s t

/-- After BUILD and ASSIGN the present symbols have codes (R111, R133). -/
theorem valid_builtAndAssigned {a : Symbol} (ha : freqAt s a.toNat ≠ 0#32) :
    (codeAt s.builtAndAssigned a.toNat).valid = true := by
  have hpresent : presentSymbols s ≠ [] := List.ne_nil_of_mem (mem_presentSymbols.2 ⟨a.isLt, ha⟩)
  obtain ⟨k, hk, hsym⟩ := (present_iff_leaf s a).1 ha
  exact ((codesOfTree_builtAndAssigned hpresent).domain a).2 ⟨k, hk.trans_eq (nsym_built s).symm, hsym⟩

/-- RESET, counting, BUILD and ASSIGN prepare the coding of a nonempty string (R175). -/
theorem runCommands_prepares (s : State) {l : List Symbol} (hne : l ≠ []) (hlen : l.length < 2 ^ 32) :
    ∃ t, runCommands (.reset :: l.map .cnt ++ [.build, .assign]) s = some t ∧ Prepares s t l := by
  have hroom : ∀ a, (freqAt s.resetDone a).toNat + l.length < 2 ^ 32 := fun a => (Nat.zero_add _).trans_lt hlen
  obtain ⟨t, hcount, hnormal, houtb, houts⟩ := runCommands_cnt_of_room (s := s.resetDone) l rfl hroom
  have hok := allOk_cnt_of_length (s := s.resetDone) l rfl hroom hcount
  have hcounted : ∀ a ∈ l, freqAt t a.toNat ≠ 0#32 := fun a ha =>
    freqAt_ne_zero_of_allOk_cnt (s := s.resetDone) rfl hcount hok ha
  obtain ⟨a, ha⟩ := List.exists_mem_of_ne_nil l hne
  have hpresent : presentSymbols t ≠ [] := List.ne_nil_of_mem (mem_presentSymbols.2 ⟨a.isLt, hcounted a ha⟩)
  have hbuild := runCommands_build_assign hnormal hpresent
  have hreset : AllOk s s.resetDone := ⟨[⟨.ok, 0#64⟩], rfl, by simp⟩
  refine ⟨t.builtAndAssigned, ?_, hreset.trans (hok.trans (allOk_builtAndAssigned t)), ?_, hnormal, rfl,
    fun b hb => valid_builtAndAssigned (hcounted b hb), houtb, houts⟩
  · rw [List.cons_append, runCommands_cons _ (exec_reset s), runCommands_append]
    exact (congrArg (Option.bind · _) hcount).trans hbuild
  · exact inv_runCommands (inv_runCommands ((inv_doReset s.accept).respond _) hcount) hbuild

/-- A code has at most 255 bits. -/
theorem encodedBits_length_le (s : State) (l : List Symbol) : (encodedBits s l).length ≤ 255 * l.length := by
  induction l with
  | nil => exact Nat.le_refl 0
  | cons a rest ih =>
    have hcode : (codeString s a).length ≤ 255 := (codeBits_length _).trans_le (Nat.le_of_lt_succ (BitVec.isLt _))
    have hcons : encodedBits s (a :: rest) = codeString s a ++ encodedBits s rest := List.flatMap_cons
    rw [hcons, List.length_append, List.length_cons]
    omega

end Sys2Proof.Machine

open Sys2Proof Sys2Proof.Machine

/-- Settles O54: the session's bits are the codes one after the other, each of which walks from the root to its leaf and back, and
a walk does not depend on where the bits are split. -/
theorem decodingAnEncodedSequenceGivesItBack : Obligations.DecodingAnEncodedSequenceGivesItBack := by
  intro s l hinv hnormal hcodes hvalid hroom
  obtain ⟨t, bytes, hrun, hsession⟩ := runCommands_encodeSession hnormal hcodes hvalid hroom
  refine ⟨t, bytes, hrun, hsession.outb, ?_, fun decs => hsession.decodes hinv hnormal hcodes hvalid hroom⟩
  obtain ⟨decs, hdecs, hbits⟩ := exists_decs_of_payload bytes t.encbits.toNat
  rw [decodeSession, hdecs]
  exact hsession.decodes hinv hnormal hcodes hvalid hroom hbits

/-- Settles O55: RESET, counting, BUILD and ASSIGN leave a state of the invariant in which every symbol of the string has a code,
and from there on it is O54. -/
theorem wholePipelineReproducesItsInput : Obligations.WholePipelineReproducesItsInput := by
  intro s l hne hlen
  obtain ⟨r, hprepare, hprepares⟩ := runCommands_prepares s hne hlen
  obtain ⟨houtb, houts⟩ := hprepares.streams
  have hbits := encodedBits_length_le r l
  obtain ⟨t, bytes, hrun, hout, ⟨u, hdecode, hok, hsyms⟩, -⟩ := decodingAnEncodedSequenceGivesItBack r l hprepares.inv
    hprepares.normal hprepares.codes hprepares.known (by omega)
  refine ⟨t, bytes, u, ?_, by rw [hout, houtb], hdecode, hprepares.allOk.trans hok, by rw [hsyms, houts]⟩
  rw [runCommands_append, hprepare]
  exact hrun

end

section
/-! PROOFS. The control commands (45_control.md R190 to R192): RESET, CLRERR and RDCSR, in every mode. -/

namespace Sys2Proof.Machine

variable {s t : State}

/-! ### RESET -/

/-- A reset, from whatever state has emitted what `s` has, leaves the reset state (R230). -/
theorem isResetOf_doReset (houtb : t.outb = s.outb) (houts : t.outs = s.outs) : IsResetOf s t.doReset where
  registers := ⟨rfl, rfl, rfl, rfl, rfl, rfl⟩
  counter := rfl
  fault := rfl
  errors := ⟨rfl, rfl, rfl, rfl⟩
  flags := ⟨rfl, rfl, rfl, rfl⟩
  freq := freqAt_doReset t
  streams := ⟨houtb, houts⟩

theorem IsResetOf.respond (h : IsResetOf s t) (r : Response) : IsResetOf s (t.respond r) :=
  ⟨h.registers, h.counter, h.fault, h.errors, h.flags, h.freq, h.streams⟩

theorem isResetOf_resetDone (s : State) : IsResetOf s s.resetDone :=
  (isResetOf_doReset s.accept_outb s.accept_outs).respond _

/-! ### CLRERR -/

/-- The state in which CLRERR ends. -/
def State.acknowledged (s : State) : State := s.accept.acknowledge.respond ⟨.ok, 0#64⟩

theorem exec_clrerr (s : State) : exec .clrerr s = .next s.acknowledged := rfl

theorem answered_acknowledged (s : State) : Answered s s.acknowledged ⟨.ok, 0#64⟩ := ⟨rfl, rfl, rfl, rfl⟩

theorem keepsAllButErrors_acknowledged (s : State) : KeepsAllButErrors s s.acknowledged :=
  ⟨fun _ => rfl, ⟨rfl, rfl, rfl, fun _ => rfl⟩, ⟨rfl, fun _ => rfl⟩, ⟨rfl, rfl, rfl, rfl, rfl⟩, ⟨rfl, rfl, rfl⟩⟩

/-! ### RDCSR -/

/-- The word is read from the accepted state, which has counted this command (R28). -/
theorem exec_rdcsr (k : BitVec 3) (s : State) :
    exec (.rdcsr k) s = .next (s.accept.respond ⟨.ok, readCsr s.accept k⟩) := rfl

theorem toNat_zero_append {n : Nat} (m : Nat) (x : BitVec n) : (0#m ++ x).toNat = x.toNat := by
  rw [toNat_append_eq, BitVec.toNat_zero, Nat.zero_mul, Nat.zero_add]

theorem readCsr_treeinfo_toNat (s : State) : (readCsr s 1#3).toNat = s.nsym.toNat + 2 ^ 16 * s.root.toNat :=
  treeInfo_toNat s.nsym s.root

theorem readCsr_errcmd_toNat (s : State) : (readCsr s 3#3).toNat = s.errcmd.toNat := toNat_zero_append 32 s.errcmd

theorem readCsr_cmdcnt_toNat (s : State) : (readCsr s 4#3).toNat = s.cmdcnt.toNat := toNat_zero_append 32 s.cmdcnt

theorem readCsr_encbits (s : State) : readCsr s 5#3 = s.encbits := rfl

theorem readCsr_cur_toNat (s : State) : (readCsr s 7#3).toNat = s.cur.toNat := toNat_zero_append 55 s.cur

end Sys2Proof.Machine

open Sys2Proof Sys2Proof.Machine

/-- Settles O17: RESET's response is given after the reset of R230, which keeps what was emitted. -/
theorem resetCommandGivesTheResetState : Obligations.ResetCommandGivesTheResetState := by
  intro s
  exact ⟨s.resetDone, exec_reset s, isResetOf_resetDone s, rfl, rfl⟩

/-- Settles O18: CLRERR's action is the acknowledgement of R208, which writes the error registers only. -/
theorem clrerrClearsTheErrorRegistersOnly : Obligations.ClrerrClearsTheErrorRegistersOnly := by
  intro s
  exact ⟨_, exec_clrerr s, answered_acknowledged s, keepsAllButErrors_acknowledged s, rfl, rfl, rfl, rfl⟩

/-- Settles O19: RDCSR only answers, in every mode, and the word is read, number by number, after the command has been
counted. -/
theorem rdcsrAnswersTheStatusWords : Obligations.RdcsrAnswersTheStatusWords := by
  intro s k
  have hanswered := answered_accept_respond s ⟨.ok, readCsr s.accept k⟩
  refine ⟨_, _, exec_rdcsr k s, hanswered, keepsAllButErrors_accept_respond s _, keepsErrors_accept_respond s _,
    ?status, ?treeinfo, ?errinfo, ?errcmd, ?cmdcnt, ?encbits, ?encacc, ?cur⟩ <;> rintro rfl
  case status => exact readCsr_status_toNat s.accept
  case treeinfo => exact readCsr_treeinfo_toNat s.accept
  case errinfo => exact readCsr_errinfo_toNat s.accept
  case errcmd => exact readCsr_errcmd_toNat s.accept
  case cmdcnt => exact (readCsr_cmdcnt_toNat s.accept).trans hanswered.cmdcnt_toNat
  case encbits => exact readCsr_encbits s.accept
  case encacc => exact readCsr_encacc_toNat s.accept
  case cur => exact readCsr_cur_toNat s.accept

end

section
/-! PROOFS. Errors and the FAULTED mode (60_exceptions.md R200 to R211): every command is checked in the order of R204 before it
acts, and its answer says what became of the error registers. -/

namespace Sys2Proof.Machine

variable {i : Instr} {s t : State} {action : State → Effect} {r : Response} {e : Error} {arg : BitVec 16}

/-! ### The checks before a command's action -/

/-- The checks of a command, in the order of R204: FAULTED mode, for a command outside the permitted set, then the flag. -/
def checks (i : Instr) (action : State → Effect) : State → Effect :=
  if permittedInFaulted i then require (neededFlag · i) (opcodeOf i) action
  else refuseIfFaulted (require (neededFlag · i) (opcodeOf i) action)

theorem checks_of_refused (action : State → Effect) (herr : s.err = true) (hi : permittedInFaulted i = false) :
    checks i action s = .raise .faultedRefusal 0#16 := by
  simp [checks, hi, refuseIfFaulted_of_faulted _ herr]

theorem checks_of_passed (action : State → Effect) (hpass : s.err = false ∨ permittedInFaulted i = true) :
    checks i action s = require (neededFlag · i) (opcodeOf i) action s := by
  rcases hpass with herr | hi
  · unfold checks
    split
    · rfl
    · exact refuseIfFaulted_of_normal _ herr
  · simp [checks, hi]

theorem checks_of_clear_flag (action : State → Effect) (hpass : s.err = false ∨ permittedInFaulted i = true)
    (hflag : neededFlag s i = false) : checks i action s = .raise .sequenceError ((opcodeOf i).setWidth 16) := by
  rw [checks_of_passed action hpass, require_of_clear _ _ hflag]

theorem checks_of_set_flag (action : State → Effect) (hpass : s.err = false ∨ permittedInFaulted i = true)
    (hflag : neededFlag s i = true) : checks i action s = action s := by
  rw [checks_of_passed action hpass, require_of_set _ _ hflag]

/-- A command that needs no flag is only checked for FAULTED mode. -/
theorem checks_of_no_flag (action : State → Effect) (hi : permittedInFaulted i = false) (hflag : ∀ s, neededFlag s i = true) :
    checks i action = refuseIfFaulted action := by
  have hrequire : require (neededFlag · i) (opcodeOf i) action = action := funext fun s => require_of_set _ _ (hflag s)
  simp [checks, hi, hrequire]

/-- Accepting a command changes no flag. -/
theorem neededFlag_accept (s : State) (i : Instr) : neededFlag s.accept i = neededFlag s i := by
  cases i <;> rfl

/-! ### What a command's own action does to the error registers -/

/-- The two commands that return from FAULTED mode (R208). -/
def acknowledges : Instr → Bool
  | .reset | .clrerr => true
  | _ => false

theorem acknowledges_eq_false_iff : acknowledges i = false ↔ i ≠ .clrerr ∧ i ≠ .reset := by
  cases i <;> simp [acknowledges]

/-- The own action of the command `i` went from `s` to `t`: it gave no response itself, and cleared ERR exactly if the command
acknowledges; a command permitted in FAULTED mode that does not acknowledge is a read. -/
structure Acted (i : Instr) (s t : State) : Prop where
  responses : t.responses = s.responses
  err       : t.err = if acknowledges i then false else s.err
  read      : permittedInFaulted i = true → acknowledges i = false → t = s

theorem acted_refl (hi : acknowledges i = false) (s : State) : Acted i s s :=
  ⟨rfl, by simp [hi], fun _ _ => rfl⟩

/-- An action behind the FAULTED check may write, but not the error registers. -/
theorem acted_of_keeps (hi : permittedInFaulted i = false) (hack : acknowledges i = false) (hresponses : t.responses = s.responses)
    (herr : t.err = s.err) : Acted i s t :=
  ⟨hresponses, by simp [hack, herr], fun h => absurd (hi.symm.trans h) (by decide)⟩

/-- An action ends as the command `i` may at `s`. It never refuses: that is for the FAULTED check (R207). -/
def Effect.Acts (i : Instr) (s : State) : Effect → Prop
  | .respond t _ => Acted i s t
  | .raise e _ => e ≠ .faultedRefusal

/-- Every command is accepted, checked in the order of R204, and acts. -/
theorem exec_eq_checks (i : Instr) (s : State) :
    ∃ action, exec i s = .next (afterCommand (checks i action) s) ∧ (action s.accept).Acts i s.accept := by
  cases i with
  | reset => exact ⟨_, rfl, ⟨rfl, rfl, fun _ h => nomatch h⟩⟩
  | clrerr => exact ⟨_, rfl, ⟨rfl, rfl, fun _ h => nomatch h⟩⟩
  | rdcsr csr => exact ⟨_, rfl, acted_refl rfl _⟩
  | clrfreq => exact ⟨_, rfl, acted_of_keeps rfl rfl rfl rfl⟩
  | cnt sym =>
    simp only [checks_of_no_flag (i := .cnt sym) _ rfl fun _ => rfl]
    refine ⟨_, rfl, ?_⟩
    split
    · exact nofun
    · exact acted_of_keeps rfl rfl rfl rfl
  | wrfreq sym val => exact ⟨_, rfl, acted_of_keeps rfl rfl rfl rfl⟩
  | rdfreq sym => exact ⟨_, rfl, acted_refl rfl _⟩
  | build =>
    simp only [checks_of_no_flag (i := .build) _ rfl fun _ => rfl]
    refine ⟨_, rfl, ?_⟩
    split
    · exact nofun
    · exact acted_of_keeps rfl rfl rfl rfl
  | rdnode node =>
    refine ⟨_, rfl, ?_⟩
    split
    · exact acted_refl rfl _
    · exact nofun
  | assign => exact ⟨_, rfl, acted_of_keeps rfl rfl rfl rfl⟩
  | rdclen sym => exact ⟨_, rfl, acted_refl rfl _⟩
  | rdcode sym w => exact ⟨_, rfl, acted_refl rfl _⟩
  | encstart => exact ⟨_, rfl, acted_of_keeps rfl rfl rfl rfl⟩
  | enc sym =>
    refine ⟨_, rfl, ?_⟩
    dsimp only
    split
    · exact nofun
    · split
      · exact nofun
      · exact acted_of_keeps rfl rfl (by simp) (by simp)
  | encend => exact ⟨_, rfl, acted_of_keeps rfl rfl (by simp) (by simp)⟩
  | decstart => exact ⟨_, rfl, acted_of_keeps rfl rfl rfl rfl⟩
  | dec byte nb =>
    refine ⟨_, rfl, ?_⟩
    split
    · exact nofun
    · exact acted_of_keeps rfl rfl rfl rfl
  | decend =>
    refine ⟨_, rfl, ?_⟩
    split
    · exact acted_of_keeps rfl rfl rfl rfl
    · exact nofun

/-! ### How a command ends -/

/-- The command `i` went from `s` to `t` with the response `r`: it passed the FAULTED check and is answered OK, or it failed, with
FaultedRefusal only where the FAULTED check refuses it (R205 to R207). -/
inductive Ends (i : Instr) (s t : State) : Response → Prop where
  | ok (d : Word) (passed : s.err = false ∨ permittedInFaulted i = true) (err : t.err = if acknowledges i then false else s.err)
      (read : permittedInFaulted i = true → acknowledges i = false → t = s.accept.respond ⟨.ok, d⟩) : Ends i s t ⟨.ok, d⟩
  | failed {e : Error} {arg : BitVec 16} (failed : Failed s t e arg)
      (refused : e = .faultedRefusal → s.err = true ∧ permittedInFaulted i = false) : Ends i s t ⟨.error e, 0#64⟩

theorem ends_of_raise (hraise : action s.accept = .raise e arg)
    (hrefused : e = .faultedRefusal → s.err = true ∧ permittedInFaulted i = false) :
    ∃ r, (afterCommand action s).responses = s.responses ++ [r] ∧ Ends i s (afterCommand action s) r :=
  ⟨_, (failed_of_raise hraise).answered.responses, .failed (failed_of_raise hraise) hrefused⟩

theorem ends_of_respond {d : Word} (hrespond : action s.accept = .respond t d) (hacted : Acted i s.accept t)
    (hpass : s.err = false ∨ permittedInFaulted i = true) :
    ∃ r, (afterCommand action s).responses = s.responses ++ [r] ∧ Ends i s (afterCommand action s) r := by
  rw [afterCommand_of_respond hrespond]
  refine ⟨_, congrArg (· ++ [_]) hacted.responses, .ok d hpass hacted.err fun hi hack => ?_⟩
  rw [hacted.read hi hack]

/-- Every command gives one response and ends accordingly: by the checks of R204, then by what its action does. -/
theorem exec_ends (i : Instr) (s : State) :
    ∃ t r, exec i s = .next t ∧ t.responses = s.responses ++ [r] ∧ Ends i s t r := by
  obtain ⟨action, hexec, hacts⟩ := exec_eq_checks i s
  suffices hends : ∃ r, (afterCommand (checks i action) s).responses = s.responses ++ [r] ∧
      Ends i s (afterCommand (checks i action) s) r by
    obtain ⟨r, hresponses, hr⟩ := hends
    exact ⟨_, r, hexec, hresponses, hr⟩
  by_cases hrefused : s.err = true ∧ permittedInFaulted i = false
  · exact ends_of_raise (checks_of_refused action hrefused.1 hrefused.2) fun _ => hrefused
  have hpass : s.err = false ∨ permittedInFaulted i = true := by
    simpa [-not_and, not_and_or] using hrefused
  cases hflag : neededFlag s.accept i with
  | false => exact ends_of_raise (checks_of_clear_flag action hpass hflag) nofun
  | true =>
    have haction : checks i action s.accept = action s.accept := checks_of_set_flag action hpass hflag
    cases heffect : action s.accept with
    | respond t d =>
      rw [heffect] at hacts
      exact ends_of_respond (haction.trans heffect) hacts hpass
    | raise e arg =>
      rw [heffect] at hacts
      exact ends_of_raise (haction.trans heffect) fun h => absurd h hacts

/-- So does every word: as the command it decodes to, or, if it is no command, with IllegalCommand (R83). -/
theorem presentWord_ends (w : Word) (s : State) :
    ∃ t r, presentWord w s = .next t ∧ t.responses = s.responses ++ [r] ∧
      ((∃ i, decode w = .ok i ∧ Ends i s t r) ∨
        r = ⟨.error .illegalCommand, 0#64⟩ ∧ Failed s t .illegalCommand (illegalArg w)) := by
  cases hdecode : decode w with
  | ok i =>
    obtain ⟨t, r, hexec, hresponses, hends⟩ := exec_ends i s
    exact ⟨t, r, (presentWord_of_ok hdecode s).trans hexec, hresponses, .inl ⟨i, rfl, hends⟩⟩
  | error _ =>
    have hfailed : Failed s _ .illegalCommand (illegalArg w) :=
      failed_of_raise (action := fun _ => .raise .illegalCommand (illegalArg w)) rfl
    exact ⟨_, _, presentWord_of_error hdecode s, hfailed.answered.responses, .inr ⟨rfl, hfailed⟩⟩

/-! ### After a failure -/

/-- After a command that failed an error is latched: its own, or the one before it (R206). -/
theorem Failed.err_eq_true (h : Failed s t e arg) (hrefused : e = .faultedRefusal → s.err = true) : t.err = true := by
  cases herr : s.err with
  | true => exact (h.kept (.inl herr)).err.trans herr
  | false => exact (h.latched herr fun he => absurd (hrefused he) (by simp [herr])).1

/-- In NORMAL mode the error latched is the one that the response names. -/
theorem Failed.errcode_eq (h : Failed s t e arg) (hrefused : e = .faultedRefusal → s.err = true) (herr : s.err = false) :
    t.errcode = e.code :=
  (h.latched herr fun he => absurd (hrefused he) (by simp [herr])).2.1

/-! ### Hardware reset -/

theorem step_of_hardwareReset {rest : List HostAction} (h : s.host = .hardwareReset :: rest) :
    step s = .next (s.setHost rest).doReset := by
  simp [step, stepHost, h, hostAction]

end Sys2Proof.Machine

open Sys2Proof Sys2Proof.Machine

/-- Settles O13: a command outside the permitted set begins with the FAULTED check, and nothing else raises FaultedRefusal. -/
theorem faultedModeRefusesAllButThePermittedSet : Obligations.FaultedModeRefusesAllButThePermittedSet := by
  intro i s
  refine ⟨fun herr hi => ?_, fun hpass => ?_⟩
  · obtain ⟨action, hexec⟩ := exec_eq_refuseIfFaulted hi s
    exact ⟨_, hexec, failed_of_faulted action herr⟩
  · obtain ⟨t, r, hexec, hresponses, hends⟩ := exec_ends i s
    refine ⟨t, r, hexec, hresponses, ?_⟩
    cases hends with
    | ok d => simp
    | failed _ hrefused =>
      intro hstatus
      obtain ⟨herr, hi⟩ := hrefused (Status.error.inj hstatus)
      simp [herr, hi] at hpass

/-- Settles O14: a word that is answered with an error has failed, and in NORMAL mode the error is not FaultedRefusal, so that it
is latched. -/
theorem errorsArePreciseAndLatchedOnce : Obligations.ErrorsArePreciseAndLatchedOnce := by
  refine ⟨by decide, fun s w => ?_⟩
  obtain ⟨t, r, hstep, hresponses, hends⟩ := presentWord_ends w s
  refine ⟨t, r, (step_withCommand s w).trans hstep, hresponses, ?_⟩
  rcases hends with ⟨i, -, ⟨d⟩ | ⟨hfailed, hrefused⟩⟩ | ⟨rfl, hfailed⟩
  · exact nofun
  · rintro _ ⟨⟩
    exact ⟨⟨_, hfailed⟩, hfailed.errcode_eq fun he => (hrefused he).1⟩
  · rintro _ ⟨⟩
    exact ⟨⟨_, hfailed⟩, hfailed.errcode_eq nofun⟩

/-- Settles O15: past the FAULTED check the flag is the next thing a command looks at (R204). -/
theorem sequenceErrorNamesTheOpcode : Obligations.SequenceErrorNamesTheOpcode := by
  intro i s hflag hpass
  obtain ⟨action, hexec, -⟩ := exec_eq_checks i s
  rw [← neededFlag_accept] at hflag
  exact ⟨_, hexec, failed_of_raise (checks_of_clear_flag action hpass hflag)⟩

/-- Settles O16: of the commands that FAULTED mode lets through, those that do not acknowledge only read. -/
theorem nothingChangesUntilTheErrorIsAcknowledged : Obligations.NothingChangesUntilTheErrorIsAcknowledged := by
  intro s w herr hclrerr hreset
  obtain ⟨t, r, hstep, -, hends⟩ := presentWord_ends w s
  refine ⟨t, r, (step_withCommand s w).trans hstep, ?_⟩
  rcases hends with ⟨i, hdecode, hends⟩ | ⟨rfl, hfailed⟩
  · cases hends with
    | ok d hpass _ hread =>
      have hi : permittedInFaulted i = true := hpass.resolve_left (by simp [herr])
      have hack : acknowledges i = false :=
        acknowledges_eq_false_iff.2 ⟨fun h => hclrerr (h ▸ hdecode), fun h => hreset (h ▸ hdecode)⟩
      rw [hread hi hack]
      exact ⟨answered_accept_respond s _, keepsAllButErrors_accept_respond s _, keepsErrors_accept_respond s _⟩
    | failed hfailed _ => exact ⟨hfailed.answered, hfailed.precise, hfailed.kept (.inl herr)⟩
  · exact ⟨hfailed.answered, hfailed.precise, hfailed.kept (.inl herr)⟩

/-- Settles O59: a word answered OK changes ERR only if it acknowledges, and after one that failed an error is latched. -/
theorem faultOutputRisesOnErrorsAndFallsOnAcknowledgement : Obligations.FaultOutputRisesOnErrorsAndFallsOnAcknowledgement := by
  refine ⟨fun _ => rfl, fun s w => ?_, fun s rest hhost => ⟨_, step_of_hardwareReset hhost, rfl⟩⟩
  obtain ⟨t, r, hstep, hresponses, hends⟩ := presentWord_ends w s
  refine ⟨t, r, (step_withCommand s w).trans hstep, hresponses, ?_⟩
  rcases hends with ⟨i, hdecode, ⟨d, -, herr, -⟩ | ⟨hfailed, hrefused⟩⟩ | ⟨rfl, hfailed⟩
  · have hkept : t.err = true ↔ s.err = true ∧ acknowledges i = false := by
      cases hack : acknowledges i <;> simp [herr, hack]
    rw [acknowledges_eq_false_iff] at hkept
    simpa [State.faultOutput, hdecode] using hkept
  · exact iff_of_true (hfailed.err_eq_true fun he => (hrefused he).1) (.inl ⟨_, rfl⟩)
  · exact iff_of_true (hfailed.err_eq_true nofun) (.inl ⟨_, rfl⟩)

end

section
/-! PROOFS. The steps in which the host presents no word (70_reset_and_hazards.md R230 to R232): idling and hardware reset. -/

namespace Sys2Proof.Machine

theorem step_of_idle {s : State} (h : s.host = []) : step s = .next s := by
  simp [step, stepHost, h]

end Sys2Proof.Machine

open Sys2Proof Sys2Proof.Machine

/-- Settles O11: an empty port leaves the state as it is (R232), and a hardware reset, once taken off the port, is the reset of
R230 with nothing answered (R231). -/
theorem stepWaitsOrResets : Obligations.StepWaitsOrResets := by
  intro s
  refine ⟨step_of_idle, fun rest hhost => ?_⟩
  have hreset : IsResetOf s (s.setHost rest).doReset := isResetOf_doReset (s.setHost_outb rest) (s.setHost_outs rest)
  exact ⟨_, step_of_hardwareReset hhost, hreset, rfl, rfl⟩

end
